-- ==== Sys2Proof/Word.lean ====
section
/-!
DEFINITION. The word type of the block (00_scope.md R3, R13, R14): every register is a 32-bit unsigned word, bit 0 its
least significant bit.
-/

namespace Sys2Proof

/-- A register's word, `XLEN_REG = 32` (R3). -/
abbrev Word := BitVec 32

/-- `MAX_LINES`, the maximum line count (R3; unaudited literal, 93_implementation_defined.md U12). -/
abbrev maxLines : Nat := 32

end Sys2Proof
end

