-- ==== Sys2Proof/Syntax.lean ====
section
/-!
DEFINITION. The operations of the block as syntax (00_scope.md R9, 30_encoding.md R90 to R103): one constructor of `Instr`
per row of spec/opcode_table.json, the lines a program is written in, and the moves of the agents.
-/

namespace Sys2Proof

/-- The abstract trigger request of SETTYPE (R93). `other k` is an unrecognized request, `k` in 5 to 15 in a CMD word. -/
inductive TriggerRequest where
  | levelHigh
  | levelLow
  | edgeRising
  | edgeFalling
  | edgeBoth
  | other (k : Nat)
deriving DecidableEq, Repr, Inhabited

/-- The operations of the block (R92) and the raw register accesses (R100). A line index is a natural number (R94). -/
inductive Instr where
  /-- INIT `initialize(window, lineCount)`, R270. -/
  | init (lineCount : Nat)
  /-- GETDIR `getDirection(index)`, R181. -/
  | getdir (index : Nat)
  /-- DIRIN `setDirectionInput(index)`, R182. -/
  | dirin (index : Nat)
  /-- DIROUT `setDirectionOutput(index, initialValue)`, R183. -/
  | dirout (index : Nat) (value : Bool)
  /-- GETVAL `getValue(index)`, R184. -/
  | getval (index : Nat)
  /-- SETVAL `setValue(index, value)`, R185. -/
  | setval (index : Nat) (value : Bool)
  /-- SETTYPE `setTriggerType(index, requestedType)`, R211. -/
  | settype (index : Nat) (request : TriggerRequest)
  /-- IRQEN `enable(index)`, R212. -/
  | irqen (index : Nat)
  /-- IRQDIS `disable(index)`, R213. -/
  | irqdis (index : Nat)
  /-- IRQMASK `mask`, R214. -/
  | irqmask (index : Nat)
  /-- IRQUNMASK `unmask`, R215. -/
  | irqunmask (index : Nat)
  /-- HANDLE `handleInterrupt()`, R240. -/
  | handle
  /-- HANDLECHAINED, the optional chained entry, R247. -/
  | handlechained
  /-- RD_CFG, R120. -/
  | rdCfg (line : Nat)
  /-- WR_CFG, R121. -/
  | wrCfg (line : Nat) (data : Word)
  /-- RD_IRQ, R122. -/
  | rdIrq
  /-- WR_IRQ, R123. -/
  | wrIrq (data : Word)
  /-- RD_IN, R124. -/
  | rdIn
  /-- WR_IN, R125. -/
  | wrIn (data : Word)
  /-- RD_OUT, R126. -/
  | rdOut
  /-- WR_OUT, R127. -/
  | wrOut (data : Word)
deriving DecidableEq, Repr, Inhabited

/-- The registers of the window (20_memory.md R61). -/
inductive Reg where
  | cfg (line : Nat)
  | irq
  | inp
  | out
deriving DecidableEq, Repr, Inhabited

/-- One line of a program (30_encoding.md R90, R99, R102): a CMD word, or a raw access spelled by a BUS descriptor with
its separate 32-bit data operand (which a read ignores). -/
inductive ProgLine where
  | cmd (word : Word)
  | bus (descriptor : Word) (data : Word)
deriving DecidableEq, Repr, Inhabited

/-- The agents that can hold the lock or run operations (00_scope.md R10 a, b and d): any number of callers, the dispatch
agent and the platform agent. -/
inductive AgentId where
  | caller (k : Nat)
  | dispatch
  | platform
deriving DecidableEq, Repr, Inhabited

/-- Who moves next (R10, R103): a software agent takes its next micro-step, the platform delivers an upstream interrupt
(by the chained entry or not, 60_exceptions.md R300), or the hardware agent takes one of its three steps
(40_register_window.md R131, R132, R133). -/
inductive Move where
  | agent (a : AgentId)
  | deliver (chained : Bool)
  | latch (mask : Word)
  | latchLevel (line : Nat)
  | setLevel (line : Nat) (value : Bool)
deriving DecidableEq, Repr, Inhabited

end Sys2Proof
end

