-- ==== Sys2Proof/Config.lean ====
section
/-!
DEFINITION. What an implementation fixes (the parameters of 00_scope.md R11 and the launch parameters of 30_encoding.md
R95), and the free values: constants with no body, of which nothing can be proved but that they are one value each.
-/

namespace Sys2Proof

/-- `P_LATCH` (R11, 92_eei_decisions.md D12). -/
inductive LatchModel where
  | loose
  | refined
deriving DecidableEq, Repr, Inhabited

/-- `P_UPSTREAM` (R11, D14). The two settings have the same steps and differ in fairness alone (60_exceptions.md R300). -/
inductive UpstreamModel where
  | any
  | refined
deriving DecidableEq, Repr, Inhabited

/-- `P_TRIGGER_MERGE` (R11, D17). -/
inductive TriggerMerge where
  | accumulate
  | replace
deriving DecidableEq, Repr, Inhabited

/-- The opaque handle of a consumer (10_state.md R36): the type is open (D42) and only its identity is used.
DESIGN CHOICE, safe, log entry 9. -/
structure Handle where
  id : Nat
deriving DecidableEq, Repr, Inhabited

/-- The implementation parameters of R11. `P_CFG_STRIDE = 4` is decided (D3) and is no field. -/
structure Params where
  cfgBase : Nat
  irqOff : Nat
  inOff : Nat
  outOff : Nat
  windowSize : Nat
  inLoopback : Bool
  latch : LatchModel
  upstream : UpstreamModel
  merge : TriggerMerge
  chainedEntry : Bool
  rawBus : Bool
deriving DecidableEq, Repr, Inhabited

/-- The launch parameters of the platform agent (R95): is the window there, and the line→handle map. -/
structure Launch where
  windowPresent : Bool
  map : Vector Handle 32
deriving DecidableEq, Repr, Inhabited

/-- The offset constraints of R12: word-aligned, the 32 CFG words and the three shared registers pairwise distinct, each
register inside the window. -/
abbrev Params.WF (p : Params) : Prop :=
  p.cfgBase % 4 = 0 ∧ p.irqOff % 4 = 0 ∧ p.inOff % 4 = 0 ∧ p.outOff % 4 = 0 ∧
  (p.irqOff < p.cfgBase ∨ p.cfgBase + 128 ≤ p.irqOff) ∧
  (p.inOff < p.cfgBase ∨ p.cfgBase + 128 ≤ p.inOff) ∧
  (p.outOff < p.cfgBase ∨ p.cfgBase + 128 ≤ p.outOff) ∧
  p.irqOff ≠ p.inOff ∧ p.irqOff ≠ p.outOff ∧ p.inOff ≠ p.outOff ∧
  p.cfgBase + 128 ≤ p.windowSize ∧ p.irqOff + 4 ≤ p.windowSize ∧
  p.inOff + 4 ≤ p.windowSize ∧ p.outOff + 4 ≤ p.windowSize

/-- `draw()`: the `k`-th fresh value of a run (10_state.md R25, R30, R33, R40; 40_register_window.md R120 to R134).
A free value, log entry 7. -/
opaque Config.draw : Nat → Word

/-- Whom the scheduler picks at the `k`-th choice that no schedule fixes (R10, 20_memory.md R77). A free value, log entry 2. -/
opaque Config.freeMove : Nat → Move

/-- How many caller agents the machine has at reset: any finite number (R10, D45). A free value, log entry 29. -/
opaque Config.callerCount : Nat

/-- Is the register window there at launch (R95)? A free value, log entry 8. -/
opaque Config.windowPresent : Bool

/-- The handle the platform gives line `i` at launch (R95, D42). A free value, log entry 8. -/
opaque Config.handle : Nat → Handle

/-- `P_IN_LOOPBACK` of the machine at reset: the spec leaves it OPEN with no default (D11). A free value, log entry 5. -/
opaque Config.inLoopback : Bool

/-- The parameters at their defaults (R11; the offsets are PRESUMED from the Linux `gpio-mpfs` layout the spec names as
the default, log entry 4). -/
def Params.default : Params where
  cfgBase := 0x000
  irqOff := 0x080
  inOff := 0x084
  outOff := 0x088
  windowSize := 0x08C
  inLoopback := Config.inLoopback
  latch := .loose
  upstream := .any
  merge := .accumulate
  chainedEntry := false
  rawBus := false

/-- The launch parameters at reset, which the spec leaves to the platform: free values, log entry 8. -/
def Launch.default : Launch where
  windowPresent := Config.windowPresent
  map := Vector.ofFn fun i => Config.handle i

end Sys2Proof
end

