-- ==== Sys2Proof/WellFormed.lean ====
section
/-!
DEFINITION. Which instructions an encoding can spell (30_encoding.md R91, R93, R94, R100): a 16-bit line index or count,
an unrecognized trigger request numbered 5 to 15, a CFG line below 32.
-/

namespace Sys2Proof

/-- An unrecognized request is numbered 5 to 15 (R93); the five named ones have no number to check. -/
def TriggerRequest.wellFormed : TriggerRequest → Bool
  | .other k => decide (5 ≤ k) && decide (k ≤ 15)
  | _ => true

/-- The IDX field has 16 bits (R91). -/
def indexFits (i : Nat) : Bool := decide (i < 65536)

/-- The CFG registers of the window are those of lines 0 to 31 (20_memory.md R61). -/
def lineFits (i : Nat) : Bool := decide (i < 32)

/-- The instructions a CMD word or a BUS descriptor can spell. -/
def Instr.wellFormed : Instr → Bool
  | .init n => indexFits n
  | .getdir i => indexFits i
  | .dirin i => indexFits i
  | .dirout i _ => indexFits i
  | .getval i => indexFits i
  | .setval i _ => indexFits i
  | .settype i t => indexFits i && t.wellFormed
  | .irqen i => indexFits i
  | .irqdis i => indexFits i
  | .irqmask i => indexFits i
  | .irqunmask i => indexFits i
  | .handle => true
  | .handlechained => true
  | .rdCfg i => lineFits i
  | .wrCfg i _ => lineFits i
  | .rdIrq => true
  | .wrIrq _ => true
  | .rdIn => true
  | .wrIn _ => true
  | .rdOut => true
  | .wrOut _ => true

end Sys2Proof
end

