-- ==== Sys2Proof/Decode.lean ====
section
/-!
DEFINITION. The register map (20_memory.md R61) and the two encodings (30_encoding.md R90 to R101): a total decoder of
CMD words and of BUS descriptors that rejects by name, and the encoder. The BUS format is decoded against the offset
parameters (R100).
-/

namespace Sys2Proof

/-- Why a program line spells no instruction. -/
inductive DecodeError where
  /-- OP is 0xD, 0xE or 0xF (R97). -/
  | reservedOp
  /-- A field the mnemonic does not use is nonzero (R96). -/
  | unusedField
  /-- A BUS offset that is not a multiple of 4 (20_memory.md R64). -/
  | misaligned
  /-- An aligned BUS offset at which no register stands, or one outside the window (20_memory.md R65). -/
  | unmapped
deriving DecidableEq, Repr, Inhabited

/-! ### The register map -/

/-- `CFG_OFF(i) = P_CFG_BASE + 4*i` (00_scope.md R15, 10_state.md R22). -/
def Params.cfgOff (p : Params) (i : Nat) : Nat := p.cfgBase + 4 * i

/-- The offset of a register (20_memory.md R61). -/
def Params.offOf (p : Params) : Reg → Nat
  | .cfg i => p.cfgOff i
  | .irq => p.irqOff
  | .inp => p.inOff
  | .out => p.outOff

/-- The register at byte offset `off` of the window, or why there is none (20_memory.md R61, R64, R65). -/
def Params.regAt (p : Params) (off : Nat) : Except DecodeError Reg :=
  if off % 4 ≠ 0 then .error .misaligned
  else if p.windowSize ≤ off then .error .unmapped
  else if p.cfgBase ≤ off ∧ off < p.cfgBase + 128 ∧ (off - p.cfgBase) % 4 = 0 then .ok (.cfg ((off - p.cfgBase) / 4))
  else if off = p.irqOff then .ok .irq
  else if off = p.inOff then .ok .inp
  else if off = p.outOff then .ok .out
  else .error .unmapped

/-! ### Format CMD -/

/-- OP, bits 3:0 (R91). -/
def cmdOp (w : Word) : Nat := w.toNat % 16
/-- TRQ, bits 7:4 (R91). -/
def cmdTrq (w : Word) : Nat := w.toNat / 16 % 16
/-- VAL, bit 8 (R91), as a number. -/
def cmdVal (w : Word) : Nat := w.toNat / 256 % 2
/-- RSV, bits 15:9 (R91). -/
def cmdRsv (w : Word) : Nat := w.toNat / 512 % 128
/-- IDX, bits 31:16 (R91). -/
def cmdIdx (w : Word) : Nat := w.toNat / 65536

/-- TRQ values (R93). -/
def requestOf : Nat → TriggerRequest
  | 0 => .levelHigh
  | 1 => .levelLow
  | 2 => .edgeRising
  | 3 => .edgeFalling
  | 4 => .edgeBoth
  | k => .other k

/-- The TRQ number of a request (R93). -/
def trqOf : TriggerRequest → Nat
  | .levelHigh => 0
  | .levelLow => 1
  | .edgeRising => 2
  | .edgeFalling => 3
  | .edgeBoth => 4
  | .other k => k

/-- The instruction `i` if every field it does not use is zero (R96): `ok` says that they are. -/
def ifUnusedZero (ok : Bool) (i : Instr) : Except DecodeError Instr :=
  if ok then .ok i else .error .unusedField

/-- The CMD decoder (R92, R96 to R98), total on 32-bit words. -/
def decodeCmd (w : Word) : Except DecodeError Instr :=
  let noRsv := cmdRsv w == 0
  let noTrq := cmdTrq w == 0
  let noVal := cmdVal w == 0
  let noIdx := cmdIdx w == 0
  match cmdOp w with
  | 0 => ifUnusedZero (noRsv && noTrq && noVal) (.init (cmdIdx w))
  | 1 => ifUnusedZero (noRsv && noTrq && noVal) (.getdir (cmdIdx w))
  | 2 => ifUnusedZero (noRsv && noTrq && noVal) (.dirin (cmdIdx w))
  | 3 => ifUnusedZero (noRsv && noTrq) (.dirout (cmdIdx w) (cmdVal w == 1))
  | 4 => ifUnusedZero (noRsv && noTrq && noVal) (.getval (cmdIdx w))
  | 5 => ifUnusedZero (noRsv && noTrq) (.setval (cmdIdx w) (cmdVal w == 1))
  | 6 => ifUnusedZero (noRsv && noVal) (.settype (cmdIdx w) (requestOf (cmdTrq w)))
  | 7 => ifUnusedZero (noRsv && noTrq && noVal) (.irqen (cmdIdx w))
  | 8 => ifUnusedZero (noRsv && noTrq && noVal) (.irqdis (cmdIdx w))
  | 9 => ifUnusedZero (noRsv && noTrq && noVal) (.irqmask (cmdIdx w))
  | 10 => ifUnusedZero (noRsv && noTrq && noVal) (.irqunmask (cmdIdx w))
  | 11 => ifUnusedZero (noRsv && noTrq && noVal && noIdx) .handle
  | 12 => ifUnusedZero (noRsv && noTrq && noVal && noIdx) .handlechained
  | _ => .error .reservedOp

/-! ### Format BUS -/

/-- W, bit 31 (R99): the descriptor spells a write. -/
def busWrites (desc : Word) : Bool := desc.getLsbD 31

/-- OFF, bits 30:0 (R99). -/
def busOff (desc : Word) : Nat := desc.toNat % 2 ^ 31

/-- The access a descriptor spells on the register its offset names (R100). -/
def accessOf (writes : Bool) (data : Word) : Reg → Instr
  | .cfg i => if writes then .wrCfg i data else .rdCfg i
  | .irq => if writes then .wrIrq data else .rdIrq
  | .inp => if writes then .wrIn data else .rdIn
  | .out => if writes then .wrOut data else .rdOut

/-- The BUS decoder against the offset parameters (R100). -/
def decodeBus (p : Params) (desc data : Word) : Except DecodeError Instr :=
  match p.regAt (busOff desc) with
  | .error e => .error e
  | .ok r => .ok (accessOf (busWrites desc) data r)

/-- A program line: the context tells the formats apart, not the bits (R90). -/
def decodeLine (p : Params) : ProgLine → Except DecodeError Instr
  | .cmd w => decodeCmd w
  | .bus desc data => decodeBus p desc data

/-! ### The encoder -/

/-- A CMD word from its fields (R91, R102). -/
def cmdWord (op trq : Nat) (val : Bool) (idx : Nat) : ProgLine :=
  .cmd (BitVec.ofNat 32 (op + 16 * trq + 256 * val.toNat + 65536 * idx))

/-- A BUS descriptor from its fields (R99). -/
def busLine (p : Params) (writes : Bool) (r : Reg) (data : Word) : ProgLine :=
  .bus (BitVec.ofNat 32 (p.offOf r + 2 ^ 31 * writes.toNat)) data

/-- The program line that spells an instruction (R92, R100, R102). -/
def encode (p : Params) : Instr → ProgLine
  | .init n => cmdWord 0 0 false n
  | .getdir i => cmdWord 1 0 false i
  | .dirin i => cmdWord 2 0 false i
  | .dirout i v => cmdWord 3 0 v i
  | .getval i => cmdWord 4 0 false i
  | .setval i v => cmdWord 5 0 v i
  | .settype i t => cmdWord 6 (trqOf t) false i
  | .irqen i => cmdWord 7 0 false i
  | .irqdis i => cmdWord 8 0 false i
  | .irqmask i => cmdWord 9 0 false i
  | .irqunmask i => cmdWord 10 0 false i
  | .handle => cmdWord 11 0 false 0
  | .handlechained => cmdWord 12 0 false 0
  | .rdCfg i => busLine p false (.cfg i) 0
  | .wrCfg i d => busLine p true (.cfg i) d
  | .rdIrq => busLine p false .irq 0
  | .wrIrq d => busLine p true .irq d
  | .rdIn => busLine p false .inp 0
  | .wrIn d => busLine p true .inp d
  | .rdOut => busLine p false .out 0
  | .wrOut d => busLine p true .out d

/-! ### Words of the opcode table, which carry no context -/

/-- The program line that a word of spec/opcode_table.json stands for when nothing says which format it has (R90: the
context does). At most one format spells an instruction, but for seven words (0, 4, 8 and 12, and 0, 4 and 8 with bit
31 set); those are read as BUS when bit 31 is set (as a CMD word they would name a line index of 32768) and as CMD
otherwise.
DESIGN CHOICE, safe, log entry 12. -/
def tableLine (w : Nat) : ProgLine :=
  let first := BitVec.ofNat 32 w
  let asBus := ProgLine.bus first (BitVec.ofNat 32 (w / 2 ^ 32))
  match decodeCmd first, decodeLine Params.default asBus with
  | .error _, _ => asBus
  | .ok _, .error _ => .cmd first
  | .ok _, .ok _ => if busWrites first then asBus else .cmd first

/-- The decoder on a word numbered as spec/opcode_table.json numbers it, under the default layout. Bits at and above
`nbits` are zero: a write's data operand, which the table gives no bits, is zero. -/
def decodeTableWord (nbits w : Nat) : Option Instr :=
  (decodeLine Params.default (tableLine (w % 2 ^ nbits))).toOption

end Sys2Proof
end

