-- ==== Sys2Proof/Machine/PinLayout.lean ====
section
/-!
DEFINITION. The numeric literals the spec takes from its source unaudited (00_scope.md R5, 93_implementation_defined.md
U12), each in one definition: the places of the CFG fields (10_state.md R23) and the trigger-type codes (R26,
41_pin_config_codec.md R150). The line maximum is `maxLines`.
-/

namespace Sys2Proof.Machine

/-! ### Places of the fields of a CFG word (R23) -/

/-- EO is bit 0. -/
def bitEO : Nat := 0
/-- EI is bit 1. -/
def bitEI : Nat := 1
/-- OE is bit 2. -/
def bitOE : Nat := 2
/-- EINT is bit 3. -/
def bitEINT : Nat := 3
/-- `TT_SHIFT`: TT begins at bit 5. -/
def ttShift : Nat := 5

/-- `M_EO`. -/
def maskEO : Word := 1#32 <<< bitEO
/-- `M_EI`. -/
def maskEI : Word := 1#32 <<< bitEI
/-- `M_OE`. -/
def maskOE : Word := 1#32 <<< bitOE
/-- `M_EINT`. -/
def maskEINT : Word := 1#32 <<< bitEINT
/-- `M_TT`: the three bits of TT. -/
def maskTT : Word := 7#32 <<< ttShift

/-! ### Trigger-type codes (R26, R150) -/

/-- level-high. -/
def codeLevelHigh : BitVec 3 := 0#3
/-- level-low. -/
def codeLevelLow : BitVec 3 := 1#3
/-- edge-rising. -/
def codeEdgeRising : BitVec 3 := 2#3
/-- edge-falling. -/
def codeEdgeFalling : BitVec 3 := 3#3
/-- edge-both. -/
def codeEdgeBoth : BitVec 3 := 4#3
/-- The code an unrecognized request degrades to: level-low (R150). -/
def codeFallback : BitVec 3 := codeLevelLow

end Sys2Proof.Machine
end

