-- ==== Sys2Proof/Machine/State.lean ====
section
/-!
DEFINITION. The state of the block (10_state.md R20) as plain data, the reasons a step can stop, and the machine right
after power-on reset (R40 to R42, 70_reset_and_hazards.md R330).
-/

namespace Sys2Proof.Machine

/-- The stored fields of one CFG word (10_state.md R23, R24). The reserved bits 4 and 31:8 are not stored: a read returns
a fresh draw in them and a write to them has no effect (R25). -/
structure PinConfig where
  /-- EO, bit 0, enable-output. -/
  eo : Bool
  /-- EI, bit 1, enable-input. -/
  ei : Bool
  /-- OE, bit 2, output-enable. -/
  oe : Bool
  /-- EINT, bit 3, enable-interrupt. -/
  eint : Bool
  /-- TT, bits 7:5, trigger-type code. -/
  tt : BitVec 3
deriving DecidableEq, Repr, Inhabited

/-- A line's direction (00_scope.md R16). -/
inductive Direction where
  | input
  | output
deriving DecidableEq, Repr, Inhabited

/-- The error kinds (60_exceptions.md R290). -/
inductive ErrorKind where
  | invalidLine
  | tooManyLines
  | hardwareUnavailable
deriving DecidableEq, Repr, Inhabited

/-- The result of an operation (R16). `okWord` is the word a raw read yields (40_register_window.md R120, R129), kept as
the result of that access: the model's choice, log entry 28. -/
inductive Result where
  | ok
  | okDirection (d : Direction)
  | okBit (b : Bool)
  | okWord (w : Word)
  | err (k : ErrorKind)
deriving DecidableEq, Repr, Inhabited

/-- What HANDLE and HANDLECHAINED deliver to the dispatch sink (10_state.md R39). -/
inductive Event where
  | irq (line : Nat) (handle : Handle)
  | chainedEnter
  | chainedExit
deriving DecidableEq, Repr, Inhabited

/-- The operation an agent is in the middle of (10_state.md R20, R43): its micro-step index `mpc` and its one local, the
word it read last (`c`, `c2`, `o` or HANDLE's snapshot `s`). -/
structure InFlight where
  instr : Instr
  mpc : Nat
  tmp : Word
deriving DecidableEq, Repr, Inhabited

/-- A software agent (00_scope.md R10): the rest of its program, the operation in flight, and the results its operations
returned, oldest first (an observation, 92_eei_decisions.md D35: the block stores none, R44). -/
structure Agent where
  program : List ProgLine
  op : Option InFlight
  results : List Result
deriving DecidableEq, Repr, Inhabited

/-- An agent with no program and no operation in flight. -/
def Agent.idle : Agent := ⟨[], none, []⟩

/-- A controller instance once Ready (10_state.md R34 to R36): `ctl.n` and `ctl.map`. -/
structure Controller where
  n : Nat
  map : Vector Handle 32
deriving DecidableEq, Repr, Inhabited

/-- The state of the block (R20), with the configuration it runs under and the model's own scheduling data. -/
structure State where
  /-- The implementation parameters (00_scope.md R11); no step changes them. -/
  params : Params
  /-- The launch parameters of the platform agent (30_encoding.md R95); no step changes them. -/
  launch : Launch
  /-- CFG[0..31] (R22). -/
  cfg : Vector PinConfig 32
  /-- IRQ, the sticky status (R28). -/
  irq : Word
  /-- OUT (R32). -/
  out : Word
  /-- `level[i]`, read only when `P_LATCH = Refined` (R20, R41); IN is a view of it (40_register_window.md R134). -/
  level : Word
  /-- `ctl`: `none` is Absent, `some` is Ready (R34). -/
  ctl : Option Controller
  /-- `lock`: `none` is Free, else the agent that holds it (R37). -/
  lock : Option AgentId
  /-- `handleBusy` (R38). -/
  handleBusy : Bool
  /-- `events`, oldest first (R39). -/
  events : List Event
  /-- The caller agents; caller `k` is entry `k` (00_scope.md R10 a). -/
  callers : List Agent
  /-- The dispatch agent (R10 b). -/
  dispatch : Agent
  /-- The platform agent (R10 d). -/
  platform : Agent
  /-- The software agent that takes, or took last, a micro-step: the agent `exec` acts for. The model's own. -/
  cur : AgentId
  /-- The moves a schedule fixes, next first; when it is empty the free values choose. The model's own. -/
  schedule : List Move
  /-- How many moves the free values have chosen. The model's own. -/
  moves : Nat
  /-- How many values `draw()` has given. The model's own. -/
  draws : Nat
deriving DecidableEq, Repr

/-- The block has no traps and no hardware faults: its exceptions are error results (60_exceptions.md, opening and R290),
and everything else that has no step is a refusal (R293). So nothing raises a fault. -/
inductive Fault where
deriving DecidableEq, Repr

/-- The model's refusals, R293: there is no step, or the program is refused. Each is safe: the model stops. -/
inductive Refusal where
  /-- An instruction without a meaning yet, raised by `exec` alone; safe. -/
  | notModelled (mnemonic : String)
  /-- Any operation but INIT while the controller is Absent (10_state.md R34); raised by its meaning; safe. -/
  | absent
  /-- INIT while Ready (45_controller.md R273); raised by execInit; safe. -/
  | alreadyReady
  /-- HANDLE or HANDLECHAINED with no delivery in progress (44_dispatch.md R240, its precondition); safe. -/
  | notDelivered
  /-- An operation issued by an agent whose context may not issue it (60_exceptions.md R305); raised by the meanings and
  by a program's admission; safe. -/
  | wrongContext
  /-- HANDLECHAINED when `P_CHAINED_ENTRY` is false (44_dispatch.md R247); raised by its meaning and by admission; safe. -/
  | chainedNotAdmitted
  /-- A raw access when `P_RAW_BUS` is false (40_register_window.md R129); raised by its meaning and by admission; safe. -/
  | rawNotAdmitted
  /-- A raw access to CFG[i] with `i ≥ n` (R128); raised by execRdCfg and execWrCfg; safe. -/
  | rawLineOutOfRange
  /-- A write to IN (R125); raised by the bus write, by execWrIn and by admission; safe. -/
  | writeToIn
  /-- A bus access of a width other than 32 bits (20_memory.md R62); raised by the bus; safe. -/
  | badWidth
  /-- A bus access at an offset that is not a multiple of 4 (R64); raised by the bus; safe. -/
  | misaligned
  /-- A bus access at an offset with no register or outside the window (R65); raised by the bus; safe. -/
  | unmapped
  /-- A program line that spells no instruction (30_encoding.md R96, R97, R100); raised by admission; safe. -/
  | spellsNothing (e : DecodeError)
deriving DecidableEq, Repr

/-- What `exec` and `step` answer. -/
abbrev Out := Host.Outcome State Fault Refusal

/-- A CFG word's stored fields at power-on, each an unspecified value (R40): the bits of a draw. -/
def PinConfig.drawn (r : Word) : PinConfig :=
  ⟨r.getLsbD bitEO, r.getLsbD bitEI, r.getLsbD bitOE, r.getLsbD bitEINT, r.extractLsb' ttShift 3⟩

/-- The pin levels at power-on (R41): draws, but OUT's bit for a line that drives under loopback. -/
def resetLevel (loopback : Bool) (cfg : Vector PinConfig 32) (out r : Word) : Word :=
  BitVec.ofFnLE fun b : Fin 32 =>
    if loopback && cfg[b].eo && cfg[b].oe && !cfg[b].ei then out[b] else r[b]

/-- The CFG words at power-on. -/
def resetCfg : Vector PinConfig 32 := Vector.ofFn fun i => PinConfig.drawn (Config.draw i)

/-- The machine right after power-on reset (R40 to R42, R330): the registers hold draws, the instance is Absent, the lock
has no holder, no HANDLE is in flight, there is no event and no agent has a program. How many callers there are is a free
value (log entry 29). -/
def State.reset : State where
  params := Params.default
  launch := Launch.default
  cfg := resetCfg
  irq := Config.draw 32
  out := Config.draw 33
  level := resetLevel Config.inLoopback resetCfg (Config.draw 33) (Config.draw 34)
  ctl := none
  lock := none
  handleBusy := false
  events := []
  callers := List.replicate Config.callerCount Agent.idle
  dispatch := Agent.idle
  platform := Agent.idle
  cur := .platform
  schedule := []
  moves := 0
  draws := 35

end Sys2Proof.Machine
end

