-- ==== Sys2Proof/Machine/Operands.lean ====
section
/-!
DEFINITION. The pin-config bitfield codec and the other pure functions of the operations (41_pin_config_codec.md R150 to
R163), and how a CFG word's stored fields and its 32-bit word correspond (10_state.md R23, R25). The places and the codes
are those of Machine/PinLayout.lean.
-/

namespace Sys2Proof.Machine

/-! ### Trigger-type encoding -/

/-- `encodeTrigger(request)` (R150): an unrecognized request degrades to level-low. -/
def encodeTrigger : TriggerRequest → BitVec 3
  | .levelHigh => codeLevelHigh
  | .levelLow => codeLevelLow
  | .edgeRising => codeEdgeRising
  | .edgeFalling => codeEdgeFalling
  | .edgeBoth => codeEdgeBoth
  | .other _ => codeFallback

/-- `ttBits(code)` (R151). -/
def ttBits (code : BitVec 3) : Word := code.setWidth 32 <<< ttShift

/-- What a TT code is read back as (R152). -/
inductive TriggerName where
  | levelHigh
  | levelLow
  | edgeRising
  | edgeFalling
  | edgeBoth
  | reserved (code : BitVec 3)
deriving DecidableEq, Repr, Inhabited

/-- The name of a TT code (R26, R152). -/
def triggerName (code : BitVec 3) : TriggerName :=
  if code = codeLevelHigh then .levelHigh
  else if code = codeLevelLow then .levelLow
  else if code = codeEdgeRising then .edgeRising
  else if code = codeEdgeFalling then .edgeFalling
  else if code = codeEdgeBoth then .edgeBoth
  else .reserved code

/-- `decodeTrigger(c)` (R152). -/
def decodeTrigger (c : Word) : TriggerName := triggerName (c.extractLsb' ttShift 3)

/-! ### Direction and interrupt field updates -/

/-- `cfgInput(c)` (R153). -/
def cfgInput (c : Word) : Word := (c ||| maskEI) &&& ~~~(maskEO ||| maskOE)

/-- `cfgOutput()` (R154). -/
def cfgOutput : Word := maskEO ||| maskOE

/-- `decodeDirection(c)` (R155). -/
def decodeDirection (c : Word) : Direction :=
  if c.getLsbD bitEI then .input
  else if c.getLsbD bitEO && c.getLsbD bitOE then .output
  else .output

/-- `cfgTrigger(c, code)` (R156). -/
def cfgTrigger (m : TriggerMerge) (c : Word) (code : BitVec 3) : Word :=
  match m with
  | .accumulate => c ||| ttBits code
  | .replace => (c &&& ~~~maskTT) ||| ttBits code

/-- The TT code a SETTYPE leaves (R156): the union of the codes, or the requested one. -/
def mergedType (m : TriggerMerge) (old code : BitVec 3) : BitVec 3 :=
  match m with
  | .accumulate => old ||| code
  | .replace => code

/-- `cfgIntEnable(c)` (R158). -/
def cfgIntEnable (c : Word) : Word := c ||| maskEINT

/-- `cfgIntDisable(c)` (R158). -/
def cfgIntDisable (c : Word) : Word := c &&& ~~~maskEINT

/-! ### Line bits and masks -/

/-- `lineBit(i)` (R159). -/
def lineBit (i : Nat) : Word := 1#32 <<< i

/-- `setBit(w, i, v)` (R160). -/
def setBit (w : Word) (i : Nat) (v : Bool) : Word :=
  if v then w ||| lineBit i else w &&& ~~~lineBit i

/-- `validMask(n) = 2^n - 1`, computed exactly (R161). -/
def validMask (n : Nat) : Word := BitVec.ofNat 32 (2 ^ n - 1)

/-- The word whose bit `b` is `f b`: the `for b in [0,32)` of 40_register_window.md. -/
def wordOfBits (f : Nat → Bool) : Word := BitVec.ofFnLE fun b : Fin 32 => f b

/-- Bits below `n` of `a`, the others of `b` (R122, R126, R127). -/
def mergeBelow (n : Nat) (a b : Word) : Word :=
  wordOfBits fun i => if i < n then a.getLsbD i else b.getLsbD i

/-! ### CFG words and their stored fields -/

/-- The fields a write of `d` stores (40_register_window.md R121). -/
def PinConfig.ofWord (d : Word) : PinConfig :=
  ⟨d.getLsbD bitEO, d.getLsbD bitEI, d.getLsbD bitOE, d.getLsbD bitEINT, d.extractLsb' ttShift 3⟩

/-- Bit `b` of the word a read yields: a stored field, or the draw `r` in a reserved bit (40_register_window.md R120). -/
def PinConfig.bit (c : PinConfig) (r : Word) (b : Nat) : Bool :=
  if b = bitEO then c.eo
  else if b = bitEI then c.ei
  else if b = bitOE then c.oe
  else if b = bitEINT then c.eint
  else if ttShift ≤ b ∧ b < ttShift + 3 then c.tt.getLsbD (b - ttShift)
  else r.getLsbD b

/-- The word a read of CFG[i] yields (R120). -/
def PinConfig.toWord (c : PinConfig) (r : Word) : Word := wordOfBits (c.bit r)

/-- Line `i` is driving (40_register_window.md R134). -/
def PinConfig.driving (c : PinConfig) : Bool := c.eo && c.oe && !c.ei

/-! ### Numbers of the results (60_exceptions.md R290) -/

/-- The number of an error kind. -/
def errorNumber : ErrorKind → Nat
  | .invalidLine => 1
  | .tooManyLines => 2
  | .hardwareUnavailable => 3

/-- The number of a direction result. -/
def directionNumber : Direction → Nat
  | .input => 1
  | .output => 0

/-- The status number of a result: 0 for success. -/
def resultNumber : Result → Nat
  | .err k => errorNumber k
  | _ => 0

end Sys2Proof.Machine
end

