-- ==== Sys2Proof/Machine/Flags.lean ====
section
/-!
DEFINITION. The block has no flags or condition codes (10_state.md R44); the status a program observes is the sticky IRQ
bits. Here stand the computations on them: when a line's trigger condition latches its bit (40_register_window.md R131
to R135), the write-1-to-clear (R123), the IN view (R134) and the upstream predicate `UP` (10_state.md R45).
-/

namespace Sys2Proof.Machine

/-- The level condition of a TT code (R132): level-high, level-low, and the reserved codes at every level. -/
def levelCondition (tt : BitVec 3) (level : Bool) : Bool :=
  match triggerName tt with
  | .levelHigh => level
  | .levelLow => !level
  | .reserved _ => true
  | _ => false

/-- The edge condition of a TT code for a change of level from `old` to `new` (R132). -/
def edgeCondition (tt : BitVec 3) (old new : Bool) : Bool :=
  match triggerName tt with
  | .edgeRising => !old && new
  | .edgeFalling => old && !new
  | .edgeBoth => old != new
  | _ => false

/-- Does a change of level latch the line's sticky bit (R132, gating): it must when EINT and EI are set, and otherwise
may or may not, which `may` decides. -/
def edgeLatches (c : PinConfig) (old new may : Bool) : Bool :=
  edgeCondition c.tt old new && ((c.eint && c.ei) || may)

/-- The write-1-to-clear of IRQ (R123). -/
def clearBits (irq d : Word) : Word := irq &&& ~~~d

/-- `s[i] = 1` for the lines below `n`, in ascending order: the lines HANDLE services (44_dispatch.md R240). -/
def pendingLines (n : Nat) (s : Word) : List Nat := (List.range n).filter fun i => s.getLsbD i

/-- `pinView(b, r)` (R134). -/
def pinView (loopback : Bool) (m : LatchModel) (c : PinConfig) (out level r : Bool) : Bool :=
  if loopback && c.driving then out
  else match m with
    | .refined => level
    | .loose => r

end Sys2Proof.Machine
end

