-- ==== Sys2Proof/Machine/Ops.lean ====
section
/-!
DEFINITION. The named operations every meaning is built from: the agents and their micro-step index (10_state.md R43), the
lock (20_memory.md R70 to R72), the bus (R62 to R67; 40_register_window.md R120 to R127), the dispatch sink (44_dispatch.md
R245), the return of a result, and the delivery of the upstream interrupt with the return from it (60_exceptions.md R300,
R302).
-/

namespace Sys2Proof.Machine

/-! ### Agents -/

/-- The agent of a name; a caller that does not exist is idle. -/
def State.agent (s : State) : AgentId → Agent
  | .caller k => s.callers.getD k Agent.idle
  | .dispatch => s.dispatch
  | .platform => s.platform

/-- Replaces an agent; nothing happens for a caller that does not exist. -/
def State.setAgent (s : State) (a : AgentId) (g : Agent) : State :=
  match a with
  | .caller k => { s with callers := s.callers.set k g }
  | .dispatch => { s with dispatch := g }
  | .platform => { s with platform := g }

/-- The agent `exec` acts for. -/
def State.me (s : State) : Agent := s.agent s.cur

/-- Replaces the agent `exec` acts for. -/
def State.setMe (s : State) (g : Agent) : State := s.setAgent s.cur g

/-- The micro-step index of the operation in flight, 0 when it has not begun (R43). -/
def State.mpc (s : State) : Nat :=
  match s.me.op with
  | some o => o.mpc
  | none => 0

/-- The local of the operation in flight: the word it read last. -/
def State.tmp (s : State) : Word :=
  match s.me.op with
  | some o => o.tmp
  | none => 0#32

/-- Begins operation `i` at `mpc` 0 unless the agent is in the middle of one (R43). -/
def enter (i : Instr) (s : State) : State :=
  match s.me.op with
  | some _ => s
  | none => s.setMe { s.me with op := some ⟨i, 0, 0#32⟩ }

/-- One micro-step done: `mpc` advances by one and the local becomes `w` (R43). -/
def advance (w : Word) (s : State) : State :=
  s.setMe { s.me with op := s.me.op.map fun o => { o with mpc := o.mpc + 1, tmp := w } }

/-- `return r`: the operation ends and its caller has the result (00_scope.md R15, R16). -/
def finish (r : Result) (s : State) : State :=
  s.setMe { s.me with op := none, results := s.me.results ++ [r] }

/-- The context an agent runs in (60_exceptions.md R305). -/
inductive Context where
  | call
  | interrupt
  | platform
deriving DecidableEq, Repr

/-- A context is fixed per agent (R305). -/
def contextOf : AgentId → Context
  | .caller _ => .call
  | .dispatch => .interrupt
  | .platform => .platform

/-- The context that may issue an instruction (R305); raw accesses are lines of caller programs (40_register_window.md
R129). -/
def contextFor : Instr → Context
  | .init _ => .platform
  | .handle => .interrupt
  | .handlechained => .interrupt
  | _ => .call

/-- Goes on with `k` if the acting agent runs in context `c`; log entry 13. -/
def inContext (c : Context) (s : State) (k : Out) : Out :=
  if contextOf s.cur = c then k else .refused .wrongContext

/-- Goes on with the controller if it is Ready (10_state.md R34). -/
def whenReady (s : State) (k : Controller → Out) : Out :=
  match s.ctl with
  | none => .refused .absent
  | some c => k c

/-- The line count, 0 while Absent, when `ctl.n` is undefined and no rule reads it (log entry 18). -/
def State.lineCount (s : State) : Nat :=
  match s.ctl with
  | none => 0
  | some c => c.n

/-! ### Fields -/

/-- The lock becomes `l`. -/
def State.setLock (s : State) (l : Option AgentId) : State := { s with lock := l }

/-- IRQ becomes `w`. -/
def State.setIrq (s : State) (w : Word) : State := { s with irq := w }

/-- OUT becomes `w`. -/
def State.setOut (s : State) (w : Word) : State := { s with out := w }

/-- `events` gains one entry (10_state.md R39). -/
def addEvent (e : Event) (s : State) : State := { s with events := s.events ++ [e] }

/-! ### The lock -/

/-- `Acquire()` (R70): enabled when the lock is Free; otherwise the agent is held, also when it holds the lock itself
(R72): it stays where it is. Log entry 3. -/
def acquire (s : State) : Out :=
  match s.lock with
  | none => .next (advance s.tmp (s.setLock (some s.cur)))
  | some _ => .next s

/-- `Release()` (R71), and `k` in the same micro-step: enabled when the agent holds the lock. -/
def release (s : State) (k : State → State) : Out :=
  if s.lock = some s.cur then .next (k (s.setLock none)) else .next s

/-! ### Draws -/

/-- One `draw()`. -/
def State.draw (s : State) : Word := Config.draw s.draws

/-- The draw is used up. -/
def State.drew (s : State) : State := { s with draws := s.draws + 1 }

/-! ### The bus -/

/-- The stored fields of CFG[i], `i < 32`; no rule reads a CFG word past 31 (20_memory.md R61, R65). -/
def State.cfgAt (s : State) (i : Nat) : PinConfig := if h : i < 32 then s.cfg[i] else default

/-- Stores CFG[i]. -/
def State.setCfg (s : State) (i : Nat) (c : PinConfig) : State := { s with cfg := s.cfg.setIfInBounds i c }

/-- The register an access names, or why there is no step (20_memory.md R62, R64, R65). -/
def resolve (p : Params) (off width : Nat) : Except Refusal Reg :=
  if width ≠ 4 then .error .badWidth
  else match p.regAt off with
    | .ok r => .ok r
    | .error .misaligned => .error .misaligned
    | .error _ => .error .unmapped

/-- The word a read of a register yields for the draw `r` (R120, R122, R124, R126). -/
def State.view (s : State) (r : Word) : Reg → Word
  | .cfg i => (s.cfgAt i).toWord r
  | .irq => mergeBelow s.lineCount s.irq r
  | .inp => wordOfBits fun b =>
      if b < s.lineCount then
        pinView s.params.inLoopback s.params.latch (s.cfgAt b) (s.out.getLsbD b) (s.level.getLsbD b) (r.getLsbD b)
      else r.getLsbD b
  | .out => mergeBelow s.lineCount s.out r

/-- Under `P_LATCH = Refined` with loopback, the level of each driving line of `lines` follows OUT in the same step, with
the edge latch of that change; whether an optional latch occurs is a draw's to say (R127, R133, R134). Log entry 16. -/
def driveLevels (lines : Nat → Bool) (s : State) : State :=
  if s.params.latch = .refined ∧ s.params.inLoopback = true then
    let drives := fun b => lines b && (s.cfgAt b).driving
    { s with
      level := wordOfBits fun b => if drives b then s.out.getLsbD b else s.level.getLsbD b
      irq := wordOfBits fun b => s.irq.getLsbD b ||
        (drives b && edgeLatches (s.cfgAt b) (s.level.getLsbD b) (s.out.getLsbD b) (s.draw.getLsbD b))
      draws := s.draws + 1 }
  else s

/-- The effect of a write of `d` to a register (R121, R123, R125, R127). -/
def State.put (s : State) (d : Word) : Reg → Except Refusal State
  | .cfg i => .ok (driveLevels (fun b => b == i) (s.setCfg i (PinConfig.ofWord d)))
  | .irq => .ok (s.setIrq (clearBits s.irq d))
  | .inp => .error .writeToIn
  | .out => .ok (driveLevels (fun b => decide (b < s.lineCount)) (s.setOut (mergeBelow s.lineCount d s.out)))

/-- `MemRead(off, width)`: one single-copy atomic read, and `k` with the word in the same micro-step (R15, R66, R67). -/
def memRead (off width : Nat) (s : State) (k : Word → State → State) : Out :=
  match resolve s.params off width with
  | .error e => .refused e
  | .ok r => .next (k (s.view s.draw r) s.drew)

/-- `MemWrite(off, width, d)`: one single-copy atomic write, and `k` in the same micro-step (R15, R66). -/
def memWrite (off width : Nat) (d : Word) (s : State) (k : State → State) : Out :=
  match resolve s.params off width with
  | .error e => .refused e
  | .ok r =>
    match s.put d r with
    | .error e => .refused e
    | .ok t => .next (k t)

/-- The micro-step that reads into the operation's local. -/
def readStep (off : Nat) (s : State) : Out := memRead off 4 s fun w t => advance w t

/-- The micro-step that writes `d`; the local keeps its value. -/
def writeStep (off : Nat) (d : Word) (s : State) : Out := memWrite off 4 d s fun t => advance s.tmp t

/-- The last micro-step of a critical section that ends the operation with `Ok`. -/
def releaseOk (s : State) : Out := release s (finish .ok)

/-! ### The dispatch sink -/

/-- `ctl.map(i)`, `i < n ≤ 32` (10_state.md R36). -/
def Controller.handleOf (c : Controller) (i : Nat) : Handle := if h : i < 32 then c.map[i] else default

/-- `Dispatch(i)` (44_dispatch.md R245): one micro-step that appends the event. -/
def dispatchLine (c : Controller) (i : Nat) (s : State) : Out :=
  .next (advance s.tmp (addEvent (.irq i (c.handleOf i)) s))

/-! ### Delivery of the upstream interrupt and the return from it -/

/-- `deliver` is enabled (60_exceptions.md R300), and the chained entry only where it is admitted (44_dispatch.md R247). -/
def deliverEnabled (chained : Bool) (s : State) : Bool :=
  s.ctl.isSome && !s.handleBusy && (!chained || s.params.chainedEntry)

/-- `deliver` (R300): sets `handleBusy` and starts HANDLE or HANDLECHAINED in the dispatch agent. It saves no state,
changes no mode and has no vector. While it is not enabled nothing happens (log entry 3). -/
def deliver (chained : Bool) (s : State) : State :=
  if deliverEnabled chained s then
    { s with
      handleBusy := true
      dispatch := { s.dispatch with
        program := [encode s.params (if chained then .handlechained else .handle)], op := none } }
  else s

/-- The return from HANDLE (44_dispatch.md R240, 60_exceptions.md R302): `handleBusy` is cleared, nothing is restored, and
`Ok` goes to the platform agent. -/
def returnHandle (s : State) : State :=
  { s with
    handleBusy := false
    dispatch := { s.dispatch with op := none }
    platform := { s.platform with results := s.platform.results ++ [.ok] } }

end Sys2Proof.Machine
end

