-- ==== Sys2Proof/Machine/BringUp.lean ====
section
/-!
DEFINITION. Controller bring-up (45_controller.md R270 to R274): INIT. The meaning is one micro-step: the one the
operation's `mpc` says is next.
-/

namespace Sys2Proof.Machine

/-- The publish micro-step (R270, R272). -/
def publish (lineCount : Nat) (s : State) : State :=
  { s with ctl := some ⟨lineCount, s.launch.map⟩, lock := none, handleBusy := false }

/-- Micro-step `m` of INIT once its arguments are checked (R270): at `2i` the read of CFG[i], at `2i+1` the write that
clears EINT, at `2*lineCount` the publish. -/
def initStep (lineCount m : Nat) (s : State) : Out :=
  if m < 2 * lineCount then
    if m % 2 = 0 then readStep (s.params.cfgOff (m / 2)) s
    else writeStep (s.params.cfgOff (m / 2)) (cfgIntDisable s.tmp) s
  else .next (finish .ok (publish lineCount s))

/-- INIT (R270): no step while Ready (R273); the window is checked before the count (R271). A return with an error has no
micro-step, and takes one turn of its agent: DESIGN CHOICE, safe, log entry 27. -/
def execInit (lineCount : Nat) (s : State) : Out :=
  inContext .platform s <|
    match s.ctl with
    | some _ => .refused .alreadyReady
    | none =>
      let t := enter (.init lineCount) s
      if t.launch.windowPresent = false then .next (finish (.err .hardwareUnavailable) t)
      else if maxLines < lineCount then .next (finish (.err .tooManyLines) t)
      else initStep lineCount t.mpc t

end Sys2Proof.Machine
end

