-- ==== Sys2Proof/Machine/DispatchLoop.lean ====
section
/-!
DEFINITION. The interrupt dispatch loop (44_dispatch.md R240 to R248): HANDLE and the optional HANDLECHAINED. A meaning is
one micro-step: the one its operation's `mpc` says is next.
-/

namespace Sys2Proof.Machine

/-- The preconditions of HANDLE (R240): the dispatch context (60_exceptions.md R305), Ready, delivered. -/
def dispatchOp (i : Instr) (s : State) (k : Controller → State → Out) : Out :=
  inContext .interrupt s <| whenReady s fun c =>
    if s.handleBusy then k c (enter i s) else .refused .notDelivered

/-- The micro-step of the scan after the snapshot, number `k` of them (R240): for the `k/2`-th line set in the snapshot
its W1C of that line's bit alone (R241), then its Dispatch (R244); after the last line, `last`. -/
def serviceStep (c : Controller) (k : Nat) (s : State) (last : State → Out) : Out :=
  match (pendingLines c.n s.tmp)[k / 2]? with
  | some i => if k % 2 = 0 then writeStep s.params.irqOff (lineBit i) s else dispatchLine c i s
  | none => last s

/-- Micro-step `m` of HANDLE's scan (R240). -/
def scanStep (c : Controller) (m : Nat) (s : State) (last : State → Out) : Out :=
  match m with
  | 0 => acquire s
  | 1 => memRead s.params.irqOff 4 s fun w t => advance (w &&& validMask c.n) t
  | k + 2 => serviceStep c k s last

/-- HANDLE (R240). -/
def execHandle (s : State) : Out :=
  dispatchOp .handle s fun c t => scanStep c t.mpc t fun u => release u returnHandle

/-- How many micro-steps a scan with snapshot `w` takes before its Release: the Acquire, the read, and two for each
line. -/
def scanLength (n : Nat) (w : Word) : Nat := 2 + 2 * (pendingLines n w).length

/-- HANDLECHAINED (R247), admitted only when `P_CHAINED_ENTRY` is true: the enter marker, HANDLE's micro-steps with a
Release that leaves `handleBusy`, the exit marker. -/
def execHandlechained (s : State) : Out :=
  if s.params.chainedEntry then
    dispatchOp .handlechained s fun c t =>
      match t.mpc with
      | 0 => .next (advance t.tmp (addEvent .chainedEnter t))
      | m + 1 =>
        if m ≤ scanLength c.n t.tmp then scanStep c m t fun u => release u fun v => advance v.tmp v
        else .next (returnHandle (addEvent .chainedExit t))
  else .refused .chainedNotAdmitted

end Sys2Proof.Machine
end

