-- ==== Sys2Proof/Machine/LineControl.lean ====
section
/-!
DEFINITION. The five line operations (42_line_control.md R180 to R186). A meaning is one micro-step: the one its
operation's `mpc` says is next.
-/

namespace Sys2Proof.Machine

/-- The common preconditions of the per-line operations (R180, 43_interrupt_chip.md R210): a caller's context, Ready, and
`index < ctl.n` before any micro-step; on an invalid index the operation returns `bad` with no lock and no access. Such a
return has no micro-step, and takes one turn of its agent: DESIGN CHOICE, safe, log entry 27. -/
def lineOp (i : Instr) (index : Nat) (bad : Result) (s : State) (k : State → Out) : Out :=
  inContext .call s <| whenReady s fun c =>
    if index < c.n then k (enter i s) else .next (finish bad (enter i s))

/-- The micro-steps of a locked read-modify-write of one register (00_scope.md R18): Acquire, read, write, Release. -/
def lockedRmw (off : Nat) (f : Word → Word) (s : State) : Out :=
  match s.mpc with
  | 0 => acquire s
  | 1 => readStep off s
  | 2 => writeStep off (f s.tmp) s
  | _ => releaseOk s

/-- GETDIR (R181): one read, no lock. -/
def execGetdir (i : Nat) (s : State) : Out :=
  lineOp (.getdir i) i (.err .invalidLine) s fun t =>
    memRead (t.params.cfgOff i) 4 t fun w u => finish (.okDirection (decodeDirection w)) u

/-- DIRIN (R182). -/
def execDirin (i : Nat) (s : State) : Out :=
  lineOp (.dirin i) i (.err .invalidLine) s fun t => lockedRmw (t.params.cfgOff i) cfgInput t

/-- DIROUT (R183): the CFG overwrite first, then the read-modify-write of OUT, in one critical section. -/
def execDirout (i : Nat) (v : Bool) (s : State) : Out :=
  lineOp (.dirout i v) i (.err .invalidLine) s fun t =>
    match t.mpc with
    | 0 => acquire t
    | 1 => writeStep (t.params.cfgOff i) cfgOutput t
    | 2 => readStep t.params.outOff t
    | 3 => writeStep t.params.outOff (setBit t.tmp i v) t
    | _ => releaseOk t

/-- GETVAL (R184): one read, no lock. -/
def execGetval (i : Nat) (s : State) : Out :=
  lineOp (.getval i) i (.err .invalidLine) s fun t =>
    memRead t.params.inOff 4 t fun w u => finish (.okBit (w.getLsbD i)) u

/-- SETVAL (R185): an invalid index is a silent no-op. -/
def execSetval (i : Nat) (v : Bool) (s : State) : Out :=
  lineOp (.setval i v) i .ok s fun t => lockedRmw t.params.outOff (fun o => setBit o i v) t

end Sys2Proof.Machine
end

