-- ==== Sys2Proof/Machine/InterruptChip.lean ====
section
/-!
DEFINITION. The five interrupt-chip operations (43_interrupt_chip.md R210 to R216). A meaning is one micro-step: the one
its operation's `mpc` says is next.
-/

namespace Sys2Proof.Machine

/-- SETTYPE (R211). -/
def execSettype (i : Nat) (request : TriggerRequest) (s : State) : Out :=
  lineOp (.settype i request) i (.err .invalidLine) s fun t =>
    lockedRmw (t.params.cfgOff i) (fun c => cfgTrigger t.params.merge c (encodeTrigger request)) t

/-- The micro-step `Release()` inside an operation, which goes on after it. -/
def releaseStep (s : State) : Out := release s fun t => advance t.tmp t

/-- IRQEN (R212): three critical sections in this order, the input direction, the clear of the pending bit, the enable
bit (70_reset_and_hazards.md R346). -/
def execIrqen (i : Nat) (s : State) : Out :=
  lineOp (.irqen i) i (.err .invalidLine) s fun t =>
    match t.mpc with
    | 0 => acquire t
    | 1 => readStep (t.params.cfgOff i) t
    | 2 => writeStep (t.params.cfgOff i) (cfgInput t.tmp) t
    | 3 => releaseStep t
    | 4 => acquire t
    | 5 => writeStep t.params.irqOff (lineBit i) t
    | 6 => releaseStep t
    | 7 => acquire t
    | 8 => readStep (t.params.cfgOff i) t
    | 9 => writeStep (t.params.cfgOff i) (cfgIntEnable t.tmp) t
    | _ => releaseOk t

/-- IRQDIS (R213). -/
def execIrqdis (i : Nat) (s : State) : Out :=
  lineOp (.irqdis i) i (.err .invalidLine) s fun t => lockedRmw (t.params.cfgOff i) cfgIntDisable t

/-- IRQMASK (R214): a no-op, no micro-step. Its return takes one turn of its agent: DESIGN CHOICE, safe, log entry 27. -/
def execIrqmask (i : Nat) (s : State) : Out :=
  lineOp (.irqmask i) i (.err .invalidLine) s fun t => .next (finish .ok t)

/-- IRQUNMASK (R215): a no-op, no micro-step. Its return takes one turn of its agent: DESIGN CHOICE, safe, log entry
27. -/
def execIrqunmask (i : Nat) (s : State) : Out :=
  lineOp (.irqunmask i) i (.err .invalidLine) s fun t => .next (finish .ok t)

end Sys2Proof.Machine
end

