-- ==== Sys2Proof/Machine/RegisterWindow.lean ====
section
/-!
DEFINITION. The raw register accesses (40_register_window.md R120 to R129). Each is one micro-step, takes no lock, and is
admitted only when `P_RAW_BUS` is true and the controller is Ready (R129).
-/

namespace Sys2Proof.Machine

/-- What every raw access asks first (R129; 60_exceptions.md R305). -/
def rawAccess (i : Instr) (s : State) (k : Controller → State → Out) : Out :=
  inContext .call s <|
    if s.params.rawBus then whenReady s fun c => k c (enter i s) else .refused .rawNotAdmitted

/-- A raw access to CFG[i] with `i ≥ n` is refused (R128). -/
def belowCount (c : Controller) (i : Nat) (k : Out) : Out :=
  if i < c.n then k else .refused .rawLineOutOfRange

/-- The raw read at `off`: the word it yields is kept as its result (DESIGN CHOICE, safe, log entry 28). -/
def rawRead (off : Nat) (s : State) : Out := memRead off 4 s fun w t => finish (.okWord w) t

/-- The raw write of `d` at `off`: it leaves the result `Ok` (DESIGN CHOICE, safe, log entry 28). -/
def rawWrite (off : Nat) (d : Word) (s : State) : Out := memWrite off 4 d s (finish .ok)

/-- RD_CFG (R120). -/
def execRdCfg (i : Nat) (s : State) : Out :=
  rawAccess (.rdCfg i) s fun c t => belowCount c i (rawRead (t.params.cfgOff i) t)

/-- WR_CFG (R121). -/
def execWrCfg (i : Nat) (d : Word) (s : State) : Out :=
  rawAccess (.wrCfg i d) s fun c t => belowCount c i (rawWrite (t.params.cfgOff i) d t)

/-- RD_IRQ (R122). -/
def execRdIrq (s : State) : Out := rawAccess .rdIrq s fun _ t => rawRead t.params.irqOff t

/-- WR_IRQ (R123), write-1-to-clear. -/
def execWrIrq (d : Word) (s : State) : Out := rawAccess (.wrIrq d) s fun _ t => rawWrite t.params.irqOff d t

/-- RD_IN (R124). -/
def execRdIn (s : State) : Out := rawAccess .rdIn s fun _ t => rawRead t.params.inOff t

/-- WR_IN (R125): this access is refused, it has no step. -/
def execWrIn (_d : Word) (_s : State) : Out := .refused .writeToIn

/-- RD_OUT (R126). -/
def execRdOut (s : State) : Out := rawAccess .rdOut s fun _ t => rawRead t.params.outOff t

/-- WR_OUT (R127). -/
def execWrOut (d : Word) (s : State) : Out := rawAccess (.wrOut d) s fun _ t => rawWrite t.params.outOff d t

end Sys2Proof.Machine
end

