-- ==== Sys2Proof/Machine/Dispatch.lean ====
section
/-!
DEFINITION. The one match from instructions to meanings. `exec i s` is the next micro-step of operation `i` for the agent
`s.cur` (00_scope.md R15, 10_state.md R43; log entry 1).
-/

namespace Sys2Proof.Machine

def exec (i : Instr) (s : State) : Host.Outcome State Fault Refusal :=
  match i with
  | .init lineCount => Sys2Proof.Machine.execInit lineCount s
  | .getdir index => Sys2Proof.Machine.execGetdir index s
  | .dirin index => Sys2Proof.Machine.execDirin index s
  | .dirout index value => Sys2Proof.Machine.execDirout index value s
  | .getval index => Sys2Proof.Machine.execGetval index s
  | .setval index value => Sys2Proof.Machine.execSetval index value s
  | .settype index request => Sys2Proof.Machine.execSettype index request s
  | .irqen index => Sys2Proof.Machine.execIrqen index s
  | .irqdis index => Sys2Proof.Machine.execIrqdis index s
  | .irqmask index => Sys2Proof.Machine.execIrqmask index s
  | .irqunmask index => Sys2Proof.Machine.execIrqunmask index s
  | .handle => Sys2Proof.Machine.execHandle s
  | .handlechained => Sys2Proof.Machine.execHandlechained s
  | .rdCfg line => Sys2Proof.Machine.execRdCfg line s
  | .wrCfg line data => Sys2Proof.Machine.execWrCfg line data s
  | .rdIrq => Sys2Proof.Machine.execRdIrq s
  | .wrIrq data => Sys2Proof.Machine.execWrIrq data s
  | .rdIn => Sys2Proof.Machine.execRdIn s
  | .wrIn data => Sys2Proof.Machine.execWrIn data s
  | .rdOut => Sys2Proof.Machine.execRdOut s
  | .wrOut data => Sys2Proof.Machine.execWrOut data s

end Sys2Proof.Machine
end

