-- ==== Sys2Proof/Machine/Hardware.lean ====
section
/-!
DEFINITION. The hardware agent (40_register_window.md R130 to R135). It is never held by the lock, may step before INIT,
and never writes CFG or OUT. A step that is not enabled does nothing (log entry 3).
-/

namespace Sys2Proof.Machine

/-- The lines the hardware agent acts on: those below `n` (R132, R133), and while Absent, when `n` is not known yet, all
32 (log entry 17). -/
def hwLine (s : State) (i : Nat) : Bool :=
  match s.ctl with
  | none => decide (i < maxLines)
  | some c => decide (i < c.n)

/-- `latch(m)`, under `P_LATCH = Loose` at every state (R131). -/
def hwLatch (m : Word) (s : State) : State :=
  match s.params.latch with
  | .loose => { s with irq := s.irq ||| m }
  | .refined => s

/-- `latchLevel(i)` is enabled (R132): under Refined while the level condition of CFG[i].TT holds. -/
def latchLevelEnabled (i : Nat) (s : State) : Bool :=
  s.params.latch == .refined && hwLine s i && levelCondition (s.cfgAt i).tt (s.level.getLsbD i)

/-- `latchLevel(i)` (R132). -/
def hwLatchLevel (i : Nat) (s : State) : State :=
  if latchLevelEnabled i s then { s with irq := s.irq ||| lineBit i } else s

/-- `setLevel(i, c)` is enabled (R133): under Refined when the level changes and the line is not driving under
loopback. -/
def setLevelEnabled (i : Nat) (v : Bool) (s : State) : Bool :=
  s.params.latch == .refined && hwLine s i && (v != s.level.getLsbD i) &&
    !(s.params.inLoopback && (s.cfgAt i).driving)

/-- `setLevel(i, c)` (R133): the level changes and, in the same step, the edge latch of R132; whether an optional latch
occurs is a draw's to say (log entry 16). -/
def hwSetLevel (i : Nat) (v : Bool) (s : State) : State :=
  if setLevelEnabled i v s then
    let latched := edgeLatches (s.cfgAt i) (s.level.getLsbD i) v (s.draw.getLsbD i)
    { s with
      level := setBit s.level i v
      irq := if latched then s.irq ||| lineBit i else s.irq
      draws := s.draws + 1 }
  else s

end Sys2Proof.Machine
end

