-- ==== Sys2Proof/Machine/Fetch.lean ====
section
/-!
DEFINITION. Who moves next (00_scope.md R10, 20_memory.md R76, R77), how an agent takes its next operation from its
program (10_state.md R43), which programs are refused as a whole (30_encoding.md R97, 40_register_window.md R125, R129,
44_dispatch.md R247), and the helpers with which the host places one program line.
-/

namespace Sys2Proof.Machine

/-- The next move and the state without it: the schedule's, or a free value's once the schedule is empty (log entry 2). -/
def takeMove (s : State) : Move × State :=
  match s.schedule with
  | m :: rest => (m, { s with schedule := rest })
  | [] => (Config.freeMove s.moves, { s with moves := s.moves + 1 })

/-- Is an instruction a raw access? -/
def isRaw : Instr → Bool
  | .rdCfg _ | .wrCfg _ _ | .rdIrq | .wrIrq _ | .rdIn | .wrIn _ | .rdOut | .wrOut _ => true
  | _ => false

/-- Why a decoded line may not stand in the program of an agent of context `c` (60_exceptions.md R293, R305). -/
def inadmissible (p : Params) (c : Context) (i : Instr) : Option Refusal :=
  if contextFor i ≠ c then some .wrongContext
  else if isRaw i ∧ p.rawBus = false then some .rawNotAdmitted
  else match i with
    | .wrIn _ => some .writeToIn
    | .handlechained => if p.chainedEntry then none else some .chainedNotAdmitted
    | _ => none

/-- Why one line refuses its program. That a BUS line whose OFF names no register does so, as a CMD word that spells no
instruction does (30_encoding.md R97), is the model's: R100 says only that such an OFF is refused. DESIGN CHOICE, safe, log
entry 30. -/
def lineRefusal (p : Params) (c : Context) (l : ProgLine) : Option Refusal :=
  match decodeLine p l with
  | .error e => some (.spellsNothing e)
  | .ok i => inadmissible p c i

/-- Why a program is refused as a whole: the reason of its first inadmissible line. -/
def programRefusal (p : Params) (c : Context) : List ProgLine → Option Refusal
  | [] => none
  | l :: rest =>
    match lineRefusal p c l with
    | some e => some e
    | none => programRefusal p c rest

/-- What a scheduled agent does: it runs a micro-step of an instruction, it is idle, or its program is refused. -/
inductive Fetched where
  | run (i : Instr) (s : State)
  | idle (s : State)
  | refuse (e : Refusal)
deriving DecidableEq, Repr

/-- The agent's operation in flight, or the next line of its program, decoded and taken off it (10_state.md R43). An
agent with nothing to do is idle. -/
def fetch (a : AgentId) (s0 : State) : Fetched :=
  let s := { s0 with cur := a }
  match s.me.op with
  | some o => .run o.instr s
  | none =>
    match s.me.program with
    | [] => .idle s
    | l :: rest =>
      match programRefusal s.params (contextOf a) (l :: rest) with
      | some e => .refuse e
      | none =>
        match decodeLine s.params l with
        | .error e => .refuse (.spellsNothing e)
        | .ok i => .run i (s.setMe { s.me with program := rest })

/-! ### Placing one line for the next step (log entry 11) -/

/-- The instance a placed line that is not INIT needs: the one that stands, or the one a successful INIT of 32 lines
leaves. -/
def placedController (s : State) : Controller :=
  match s.ctl with
  | some c => c
  | none => ⟨maxLines, s.launch.map⟩

/-- The state in which the next step fetches line `l` and runs it: the agent whose context issues the instruction has
this one line and is scheduled next; the instance is Ready unless the line is INIT, for which the window is there; a
delivery stands behind HANDLE; and the parameter that admits a raw access or the chained entry is true (log entry 11). -/
def placeLine (l : ProgLine) (s : State) : State :=
  let agent : Agent := { Agent.idle with program := [l] }
  match decodeLine s.params l with
  | .ok (.init _) =>
    { s with
      launch := { s.launch with windowPresent := true }
      platform := agent, cur := .platform, schedule := [.agent .platform] }
  | .ok .handle =>
    { s with
      ctl := some (placedController s), handleBusy := true, dispatch := agent, schedule := [.agent .dispatch] }
  | .ok .handlechained =>
    { s with
      params := { s.params with chainedEntry := true }
      ctl := some (placedController s), handleBusy := true, dispatch := agent, schedule := [.agent .dispatch] }
  | .ok i =>
    { s with
      params := { s.params with rawBus := s.params.rawBus || isRaw i }
      ctl := some (placedController s), callers := [agent], schedule := [.agent (.caller 0)] }
  | .error _ => { s with callers := [agent], schedule := [.agent (.caller 0)] }

end Sys2Proof.Machine
end

