-- ==== Sys2Proof/Machine/Step.lean ====
section
/-!
DEFINITION. One step of the machine: one step of one agent in the total order of 20_memory.md R76.
-/

namespace Sys2Proof.Machine

/-- A software agent's turn: a micro-step of its operation, or nothing when it is idle. -/
def agentStep (a : AgentId) (s : State) : Host.Outcome State Fault Refusal :=
  match fetch a s with
  | .run i t => exec i t
  | .idle t => .next t
  | .refuse e => .refused e

/-- One step: the scheduler's next move (00_scope.md R10, R103). -/
def step (s : State) : Host.Outcome State Fault Refusal :=
  match takeMove s with
  | (.agent a, t) => agentStep a t
  | (.deliver chained, t) => .next (deliver chained t)
  | (.latch m, t) => .next (hwLatch m t)
  | (.latchLevel i, t) => .next (hwLatchLevel i t)
  | (.setLevel i v, t) => .next (hwSetLevel i v t)

/-- The state in which the next step runs the opcode-table word `w` (log entry 11). -/
def State.withFetchWord (s : State) (nbits w : Nat) : State :=
  placeLine (tableLine (w % 2 ^ nbits)) s

end Sys2Proof.Machine
end

