-- ==== Sys2Proof/Safety.lean ====
section
/-!
DEFINITION. The terms claims are stated in: what running an operation to its end means, what a call leaves as it was, and
the invariants of the block.
-/

namespace Sys2Proof.Machine

/-! ### Running an operation -/

/-- The acting agent exists: every caller entry does, and the two other agents always do. -/
def State.hasCur (s : State) : Bool :=
  match s.cur with
  | .caller k => decide (k < s.callers.length)
  | _ => true

/-- `exec i` answering a next state `k` times in a row, each time from the state the last one left: `k` micro-steps of
operation `i` that no other agent's step comes between. -/
def execTimes (i : Instr) : Nat → State → Out
  | 0, s => .next s
  | k + 1, s =>
    match exec i s with
    | .next t => execTimes i k t
    | .fault r => .fault r
    | .refused r => .refused r

/-- `P_LATCH = Refined` and `P_IN_LOOPBACK`: the setting under which the level of a driving line is state that follows
OUT (40_register_window.md R134). -/
abbrev State.levelsDriven (s : State) : Prop := s.params.latch = .refined ∧ s.params.inLoopback = true

/-- A caller is about to run on a Ready controller `c` under a legal register map (00_scope.md R12) and line count
(10_state.md R35). -/
abbrev CallerReady (s : State) (c : Controller) : Prop :=
  contextOf s.cur = .call ∧ s.hasCur = true ∧ s.ctl = some c ∧ c.n ≤ 32 ∧ s.params.WF

/-- The acting agent is between operations (10_state.md R43). -/
abbrev State.fresh (s : State) : Prop := s.me.op = none

/-- The acting agent is in operation `i` at micro-step `k` with local `w` (R43). -/
abbrev State.inOp (s : State) (i : Instr) (k : Nat) (w : Word) : Prop := s.me.op = some ⟨i, k, w⟩

/-- A raw access is admitted here (40_register_window.md R129). -/
abbrev RawReady (s : State) (c : Controller) : Prop := CallerReady s c ∧ s.params.rawBus = true ∧ s.fresh

/-- The dispatch agent is about to run HANDLE or HANDLECHAINED after a delivery (44_dispatch.md R240). -/
abbrev DispatchReady (s : State) (c : Controller) : Prop :=
  s.cur = .dispatch ∧ s.ctl = some c ∧ c.n ≤ 32 ∧ s.params.WF ∧ s.handleBusy = true

/-! ### Frames -/

/-- The acting agent's call returned `r`: it is between operations, has the result, and its program is as it was. -/
def Returned (r : Result) (s t : State) : Prop :=
  t.me = { s.me with op := none, results := s.me.results ++ [r] }

/-- Nothing but the window registers, the levels, the acting agent and the draws may differ: the parameters, the
instance, the lock, `handleBusy`, the events, the schedule and every other agent are as they were. -/
def KeepsInstance (s t : State) : Prop :=
  t.params = s.params ∧ t.launch = s.launch ∧ t.ctl = s.ctl ∧ t.lock = s.lock ∧ t.handleBusy = s.handleBusy ∧
  t.events = s.events ∧ t.cur = s.cur ∧ t.schedule = s.schedule ∧ t.moves = s.moves ∧
  ∀ a, a ≠ s.cur → t.agent a = s.agent a

/-- No window register and no level changed. -/
def KeepsRegisters (s t : State) : Prop :=
  t.cfg = s.cfg ∧ t.irq = s.irq ∧ t.out = s.out ∧ t.level = s.level

/-- No CFG word but that of line `i` changed. -/
def KeepsOtherCfg (i : Nat) (s t : State) : Prop := ∀ j, j ≠ i → t.cfgAt j = s.cfgAt j

/-! ### The upstream predicate and fairness -/

/-- `UP` (10_state.md R45): some line below `n` is pending with its interrupt enabled. -/
def up (s : State) : Bool :=
  (List.range s.lineCount).any fun i => s.irq.getLsbD i && (s.cfgAt i).eint

/-- The move the next step takes. -/
def nextMove (s : State) : Move := (takeMove s).1

/-- A run: the state before every step, each step answering the next one. -/
def IsRun (run : Nat → State) : Prop := ∀ k, step (run k) = .next (run (k + 1))

/-- Weak fairness (20_memory.md R75): what is enabled at every state from some point on is taken again and again. The
step itself assumes no fairness (log entry 19); a claim about progress takes the fairness it needs as a premise. -/
def WeaklyFair (run : Nat → State) (enabled taken : State → Prop) : Prop :=
  ∀ j, (∀ k, j ≤ k → enabled (run k)) → ∀ k, ∃ l, k ≤ l ∧ taken (run l)

/-- The fairness among the software agents (R75): an agent with work is scheduled again and again. -/
def AgentFair (a : AgentId) (run : Nat → State) : Prop :=
  WeaklyFair run (fun s => (s.agent a).op ≠ none ∨ (s.agent a).program ≠ []) fun s => nextMove s = .agent a

/-- The delivery fairness of `P_UPSTREAM = Refined` (60_exceptions.md R300). -/
def DeliverFair (run : Nat → State) : Prop :=
  WeaklyFair run (fun s => s.params.upstream = .refined ∧ up s = true)
    fun s => ∃ c, nextMove s = .deliver c ∧ deliverEnabled c s = true

/-- The latch fairness of `P_LATCH = Refined` for line `i` (40_register_window.md R132). It binds the two level types
alone: a line with a reserved TT code may latch and need not (92_eei_decisions.md D13, 93_implementation_defined.md U3), the
weaker of the two readings of R132's gating. DESIGN CHOICE, safe, log entry 19. -/
def LatchFair (i : Nat) (run : Nat → State) : Prop :=
  WeaklyFair run
    (fun s => latchLevelEnabled i s = true ∧ (s.cfgAt i).eint = true ∧ (s.cfgAt i).ei = true ∧
      ((s.cfgAt i).tt = codeLevelHigh ∨ (s.cfgAt i).tt = codeLevelLow))
    fun s => nextMove s = .latchLevel i

/-- The hardware agent acts on the lines below `n`: the line count once Ready (40_register_window.md R132, R133), and 32
while Absent (R130; log entry 17). -/
abbrev HardwareLines (s : State) (n : Nat) : Prop :=
  s.ctl = none ∧ n = 32 ∨ ∃ c, s.ctl = some c ∧ c.n = n ∧ n ≤ 32

/-! ### Invariants -/

/-- `0 ≤ n ≤ 32` (10_state.md R35). -/
def CountBounded (s : State) : Prop := ∀ c, s.ctl = some c → c.n ≤ 32

/-- `level[b] = OUT[b]` for a line that drives under loopback (40_register_window.md R134). -/
def LevelsFollowOut (s : State) : Prop :=
  s.levelsDriven → ∀ b, b < 32 → (s.cfgAt b).driving = true → s.level.getLsbD b = s.out.getLsbD b

/-- The operation in flight is inside a critical section (00_scope.md R18): between an Acquire it has done and the
matching Release. -/
def inCritical (n : Nat) (o : InFlight) : Bool :=
  match o.instr with
  | .dirin _ | .dirout _ _ | .setval _ _ | .settype _ _ | .irqdis _ | .handle => decide (1 ≤ o.mpc)
  | .irqen _ => decide (1 ≤ o.mpc ∧ o.mpc ≤ 3 ∨ 5 ≤ o.mpc ∧ o.mpc ≤ 6 ∨ 8 ≤ o.mpc)
  | .handlechained => decide (2 ≤ o.mpc ∧ o.mpc ≤ scanLength n o.tmp + 1)
  | _ => false

/-- The line index an instruction validates before its first micro-step (60_exceptions.md R291). -/
def indexOf : Instr → Option Nat
  | .getdir i | .dirin i | .dirout i _ | .getval i | .setval i _ | .settype i _ | .irqen i | .irqdis i
  | .irqmask i | .irqunmask i | .rdCfg i | .wrCfg i _ => some i
  | _ => none

/-- The lock discipline (20_memory.md R70 to R74, 60_exceptions.md R302, R305): whoever is inside a critical section
holds the lock and whoever holds the lock is inside one; an operation in flight belongs to its agent's context and has
passed its checks; while Absent no operation but INIT is in flight, and INIT only then (45_controller.md R272, R273); the
dispatch agent runs only while `handleBusy`. -/
structure LockDiscipline (s : State) : Prop where
  critical_holds : ∀ a o, (s.agent a).op = some o → inCritical s.lineCount o = true → s.lock = some a
  holder_critical : ∀ a, s.lock = some a → ∃ o, (s.agent a).op = some o ∧ inCritical s.lineCount o = true
  in_context : ∀ a o, (s.agent a).op = some o → contextFor o.instr = contextOf a
  checked : ∀ a o i, (s.agent a).op = some o → indexOf o.instr = some i → i < s.lineCount
  absent_init : s.ctl = none → ∀ a o, (s.agent a).op = some o → ∃ n, o.instr = .init n
  init_absent : ∀ a o n, (s.agent a).op = some o → o.instr = .init n → s.ctl = none
  idle_dispatch : s.handleBusy = false → s.dispatch.op = none
  chained_admitted : ∀ o, s.dispatch.op = some o → o.instr = .handlechained → s.params.chainedEntry = true

/-- What an operation in flight has read and is about to write back is still what the register holds (20_memory.md
R80): the defined fields of a CFG word, or the OUT bits below `n`. -/
def SnapshotCurrent (s : State) (o : InFlight) : Prop :=
  match o.instr with
  | .dirin i | .settype i _ | .irqdis i => o.mpc = 2 → s.cfgAt i = PinConfig.ofWord o.tmp
  | .irqen i => o.mpc = 2 ∨ o.mpc = 9 → s.cfgAt i = PinConfig.ofWord o.tmp
  | .setval _ _ => o.mpc = 2 → ∀ b, b < s.lineCount → s.out.getLsbD b = o.tmp.getLsbD b
  | .dirout _ _ => o.mpc = 3 → ∀ b, b < s.lineCount → s.out.getLsbD b = o.tmp.getLsbD b
  | .init m => o.mpc < 2 * m → o.mpc % 2 = 1 → s.cfgAt (o.mpc / 2) = PinConfig.ofWord o.tmp
  | _ => True

/-- No lost update: with raw accesses off, under a legal register map, every read-modify-write in flight is current. -/
structure NoLostUpdate (s : State) : Prop where
  discipline : LockDiscipline s
  legal_map : s.params.WF
  bounded : CountBounded s
  raw_off : s.params.rawBus = false
  current : ∀ a o, (s.agent a).op = some o → SnapshotCurrent s o

end Sys2Proof.Machine
end

