-- ==== Sys2Proof/Certificates/Slice0/Obligations.lean ====
section
/-!
DEFINITION. The statements for the provers. Each docstring names the rules of spec/ it formalises. A multi-micro-step
operation is stated as `execTimes`: `exec` answering a next state at each of its micro-steps (00_scope.md R15) with no other
agent's step between; the statements on single micro-steps and the invariants hold whatever comes between.
-/

open Sys2Proof Sys2Proof.Machine

/-! ### Encodings -/

/-- Decoding the encoding of a well-formed instruction gives it back, under every legal register map whose offsets the
31-bit OFF field can spell (30_encoding.md R91 to R94, R98 to R100). -/
def Obligations.DecodeOfEncodeIsInstr : Prop :=
  ∀ (p : Params) (i : Instr), p.WF → p.windowSize ≤ 2 ^ 31 → i.wellFormed = true →
    decodeLine p (encode p i) = .ok i

/-- What decodes is the encoding of the well-formed instruction it decodes to: a CMD word and a BUS descriptor have no bit
that is ignored, and a read ignores its data operand alone (R96, R98, R99, R100). -/
def Obligations.EncodeOfDecodedLineIsLine : Prop :=
  (∀ (p : Params) (w : Word) (i : Instr), decodeLine p (.cmd w) = .ok i →
    i.wellFormed = true ∧ encode p i = .cmd w) ∧
  ∀ (p : Params) (d x : Word) (i : Instr), decodeLine p (.bus d x) = .ok i →
    i.wellFormed = true ∧ (encode p i = .bus d x ∨ busWrites d = false ∧ encode p i = .bus d 0#32)

/-- A CMD word with OP 0 to 12 and a nonzero field its mnemonic does not use spells no instruction: RSV always, TRQ but
for SETTYPE, VAL but for DIROUT and SETVAL, IDX for HANDLE and HANDLECHAINED; with those fields zero it spells one (R96). -/
def Obligations.UnusedCommandFieldsMustBeZero : Prop :=
  ∀ w : Word, cmdOp w ≤ 12 →
    ((cmdRsv w ≠ 0 ∨ (cmdOp w ≠ 6 ∧ cmdTrq w ≠ 0) ∨ (cmdOp w ≠ 3 ∧ cmdOp w ≠ 5 ∧ cmdVal w ≠ 0) ∨
        (11 ≤ cmdOp w ∧ cmdIdx w ≠ 0)) ↔
      decodeCmd w = .error .unusedField) ∧
    ∀ e, decodeCmd w = .error e → e = .unusedField

/-- OP 0xD to 0xF spell no instruction, and a scheduled agent whose program holds a line that spells none runs nothing of
it: the program is refused as a whole (R97). That the refusal comes when the agent is about to take an operation is the
model's choice, log entry 14, and that a BUS line whose OFF names no register refuses its program too is log entry 30. -/
def Obligations.ProgramWithInvalidWordIsRefused : Prop :=
  (∀ w : Word, 13 ≤ cmdOp w → decodeCmd w = .error .reservedOp) ∧
  ∀ (s : State) (a : AgentId) (rest : List Move) (l : ProgLine) (e : DecodeError),
    s.schedule = .agent a :: rest → (s.agent a).op = none → l ∈ (s.agent a).program →
    decodeLine s.params l = .error e → ∃ r, step s = .refused r

/-- Words written out from the encoding tables decode to the instruction they stand for (R92, R100, 95_test_vectors.md
2.1, 2.2). The BUS words are those of `Params.default`, the presumed default layout: log entry 4. -/
def Obligations.SpelledWordsDecode : Prop :=
  decodeCmd 0x00080000#32 = .ok (.init 8) ∧ decodeCmd 0x00020103#32 = .ok (.dirout 2 true) ∧
  decodeCmd 0x00020096#32 = .ok (.settype 2 (.other 9)) ∧ decodeCmd 0x00030007#32 = .ok (.irqen 3) ∧
  decodeCmd 0x0000000B#32 = .ok .handle ∧ decodeCmd 0xFFFF0001#32 = .ok (.getdir 65535) ∧
  decodeBus Params.default 0x8000000C#32 0x42#32 = .ok (.wrCfg 3 0x42#32) ∧
  decodeBus Params.default 0x0000007C#32 0#32 = .ok (.rdCfg 31) ∧
  decodeBus Params.default 0x00000002#32 0#32 = .error .misaligned ∧
  decodeBus Params.default 0x0000008C#32 0#32 = .error .unmapped

/-! ### A step runs the decoded instruction -/

/-- When the scheduled agent is between operations and the lines of its program are admitted, the step is `exec` of the
instruction its first line decodes to, with that line and the move taken off and the agent made the acting one; when the
agent is in the middle of an operation, the step is `exec` of that operation (10_state.md R43). The schedule, and where a
program is admitted, are the model's: log entries 2 and 14. -/
def Obligations.StepRunsDecodedInstruction : Prop :=
  ∀ (s : State) (a : AgentId) (rest : List Move), s.schedule = .agent a :: rest →
    let t := { s with schedule := rest, cur := a }
    (∀ (l : ProgLine) (ls : List ProgLine) (i : Instr),
      t.me.op = none → t.me.program = l :: ls → programRefusal s.params (contextOf a) (l :: ls) = none →
      decodeLine s.params l = .ok i → step s = exec i (t.setMe { t.me with program := ls })) ∧
    ∀ o : InFlight, t.me.op = some o → step s = exec o.instr t

/-! ### Register accesses -/

/-- RD_CFG completes and yields the stored fields in the defined bits and a fresh draw in the reserved ones; it writes no
state (40_register_window.md R120). The reserved bits are free: log entry 7; the word as the access's result: log entry
28. -/
def Obligations.RdCfgYieldsFieldsAndDraw : Prop :=
  ∀ (s : State) (c : Controller) (i : Nat), RawReady s c → i < c.n →
    ∃ t v, exec (.rdCfg i) s = .next t ∧ Returned (.okWord v) s t ∧
      v.getLsbD 0 = (s.cfgAt i).eo ∧ v.getLsbD 1 = (s.cfgAt i).ei ∧ v.getLsbD 2 = (s.cfgAt i).oe ∧
      v.getLsbD 3 = (s.cfgAt i).eint ∧ v.extractLsb' 5 3 = (s.cfgAt i).tt ∧
      (∀ b, b = 4 ∨ 8 ≤ b → v.getLsbD b = (Config.draw s.draws).getLsbD b) ∧
      t.draws = s.draws + 1 ∧ KeepsRegisters s t ∧ KeepsInstance s t

/-- RD_IRQ completes and yields IRQ below `n` and draws above; the read clears nothing (R122). The word as the access's
result is the model's choice: log entry 28. -/
def Obligations.RdIrqYieldsStatusBelowCount : Prop :=
  ∀ (s : State) (c : Controller), RawReady s c →
    ∃ t v, exec .rdIrq s = .next t ∧ Returned (.okWord v) s t ∧
      (∀ b, b < 32 → v.getLsbD b = if b < c.n then s.irq.getLsbD b else (Config.draw s.draws).getLsbD b) ∧
      t.draws = s.draws + 1 ∧ KeepsRegisters s t ∧ KeepsInstance s t

/-- RD_IN completes and yields each line's pin view: OUT's bit for a line driving under loopback, else the level under
Refined and a draw under Loose; draws at and above `n` (R124, R134). The word as the access's result: log entry 28. -/
def Obligations.RdInYieldsPinView : Prop :=
  ∀ (s : State) (c : Controller), RawReady s c →
    ∃ t v, exec .rdIn s = .next t ∧ Returned (.okWord v) s t ∧
      (∀ b, b < 32 → v.getLsbD b =
        if b < c.n then
          if s.params.inLoopback && (s.cfgAt b).eo && (s.cfgAt b).oe && !(s.cfgAt b).ei then s.out.getLsbD b
          else if s.params.latch = .refined then s.level.getLsbD b
          else (Config.draw s.draws).getLsbD b
        else (Config.draw s.draws).getLsbD b) ∧
      t.draws = s.draws + 1 ∧ KeepsRegisters s t ∧ KeepsInstance s t

/-- RD_OUT completes and yields the last value written below `n` and draws above (R126). The word as the access's result
is the model's choice: log entry 28. -/
def Obligations.RdOutYieldsOutputBelowCount : Prop :=
  ∀ (s : State) (c : Controller), RawReady s c →
    ∃ t v, exec .rdOut s = .next t ∧ Returned (.okWord v) s t ∧
      (∀ b, b < 32 → v.getLsbD b = if b < c.n then s.out.getLsbD b else (Config.draw s.draws).getLsbD b) ∧
      t.draws = s.draws + 1 ∧ KeepsRegisters s t ∧ KeepsInstance s t

/-- WR_CFG completes and stores the five fields of CFG[i] alone; under Refined loopback a line it makes driving has its
level set to OUT's bit, with an edge latch that may occur when the new TT names that edge (R121, R134). That the latch looks
at the new TT and that a draw decides it are the model's reading, log entry 16; the result `Ok` is log entry 28. -/
def Obligations.WrCfgStoresFields : Prop :=
  ∀ (s : State) (c : Controller) (i : Nat) (d : Word), RawReady s c → i < c.n →
    ∃ t, exec (.wrCfg i d) s = .next t ∧ Returned .ok s t ∧
      t.cfgAt i = ⟨d.getLsbD 0, d.getLsbD 1, d.getLsbD 2, d.getLsbD 3, d.extractLsb' 5 3⟩ ∧
      KeepsOtherCfg i s t ∧ t.out = s.out ∧ KeepsInstance s t ∧
      (∀ b, b < 32 → b ≠ i → t.irq.getLsbD b = s.irq.getLsbD b ∧ t.level.getLsbD b = s.level.getLsbD b) ∧
      (if s.levelsDriven ∧ d.getLsbD 0 = true ∧ d.getLsbD 2 = true ∧ d.getLsbD 1 = false then
        t.level.getLsbD i = s.out.getLsbD i ∧
        t.irq.getLsbD i = (s.irq.getLsbD i ||
          (edgeCondition (d.extractLsb' 5 3) (s.level.getLsbD i) (s.out.getLsbD i) && (Config.draw s.draws).getLsbD i))
       else t.level.getLsbD i = s.level.getLsbD i ∧ t.irq.getLsbD i = s.irq.getLsbD i)

/-- WR_IRQ completes and clears exactly the bits set in `d`; nothing else changes (R123). The result `Ok` is the model's
choice: log entry 28. -/
def Obligations.WrIrqClearsTheOnes : Prop :=
  ∀ (s : State) (c : Controller) (d : Word), RawReady s c →
    ∃ t, exec (.wrIrq d) s = .next t ∧ Returned .ok s t ∧
      (∀ b, b < 32 → t.irq.getLsbD b = (s.irq.getLsbD b && !d.getLsbD b)) ∧
      t.cfg = s.cfg ∧ t.out = s.out ∧ t.level = s.level ∧ t.draws = s.draws ∧ KeepsInstance s t

/-- WR_OUT completes and stores the bits below `n`; under Refined loopback the level of each driving line below `n`
follows, with an edge latch that may occur; no sticky bit is cleared (R127, R133, R134). That a draw decides the latch is
the model's reading, log entry 16 (R132 admits both successors); the result `Ok` is log entry 28. -/
def Obligations.WrOutStoresBelowCount : Prop :=
  ∀ (s : State) (c : Controller) (d : Word), RawReady s c →
    ∃ t, exec (.wrOut d) s = .next t ∧ Returned .ok s t ∧
      (∀ b, b < 32 → t.out.getLsbD b = if b < c.n then d.getLsbD b else s.out.getLsbD b) ∧
      t.cfg = s.cfg ∧ KeepsInstance s t ∧
      (∀ b, b < 32 →
        if s.levelsDriven ∧ b < c.n ∧ (s.cfgAt b).driving = true then
          t.level.getLsbD b = d.getLsbD b ∧
          t.irq.getLsbD b = (s.irq.getLsbD b ||
            (edgeCondition (s.cfgAt b).tt (s.level.getLsbD b) (d.getLsbD b) && (Config.draw s.draws).getLsbD b))
        else t.level.getLsbD b = s.level.getLsbD b ∧ t.irq.getLsbD b = s.irq.getLsbD b)

/-- WR_IN is refused: it has no step, and a program that holds it is refused; the descriptor of a write at `P_IN_OFF`
spells it; and no other operation ever issues a write to IN (R125). That the program is refused when its agent is about to
take an operation is the model's choice, log entry 14. -/
def Obligations.WrInHasNoStep : Prop :=
  (∀ (s : State) (d : Word), exec (.wrIn d) s = .refused .writeToIn) ∧
  (∀ (s : State) (a : AgentId) (rest : List Move) (l : ProgLine) (d : Word),
    s.schedule = .agent a :: rest → (s.agent a).op = none → l ∈ (s.agent a).program →
    decodeLine s.params l = .ok (.wrIn d) → ∃ r, step s = .refused r) ∧
  (∀ (p : Params) (d : Word), p.WF → p.windowSize ≤ 2 ^ 31 →
    decodeLine p (.bus (BitVec.ofNat 32 (2 ^ 31 + p.inOff)) d) = .ok (.wrIn d)) ∧
  ∀ (s : State) (i : Instr), s.params.WF → CountBounded s → exec i s = .refused .writeToIn → ∃ d, i = .wrIn d

/-- A raw access is admitted only when `P_RAW_BUS` is true and needs Ready; otherwise it has no step, and with
`P_RAW_BUS` false a program that holds one is refused (R129); a raw access to CFG[i] with `i ≥ n` is refused (R128). That
the program is refused when its agent is about to take an operation is the model's choice, log entry 14. -/
def Obligations.RawAccessNeedsParameterReadyAndLine : Prop :=
  (∀ (s : State) (i : Instr), isRaw i = true → s.params.rawBus = false ∨ s.ctl = none → ∃ r, exec i s = .refused r) ∧
  (∀ (s : State) (a : AgentId) (rest : List Move) (l : ProgLine) (i : Instr),
    s.schedule = .agent a :: rest → (s.agent a).op = none → l ∈ (s.agent a).program →
    decodeLine s.params l = .ok i → isRaw i = true → s.params.rawBus = false → ∃ r, step s = .refused r) ∧
  ∀ (s : State) (c : Controller) (i : Nat) (d : Word), RawReady s c → c.n ≤ i →
    exec (.rdCfg i) s = .refused .rawLineOutOfRange ∧ exec (.wrCfg i d) s = .refused .rawLineOutOfRange

/-- An access of another width than 4 bytes, at an offset that is not a multiple of 4, outside the window, or at which
no register stands has no step (20_memory.md R62, R64, R65). -/
def Obligations.BadAccessesHaveNoStep : Prop :=
  ∀ (s : State) (off width : Nat) (d : Word) (k : Word → State → State) (h : State → State),
    (width ≠ 4 → memRead off width s k = .refused .badWidth ∧ memWrite off width d s h = .refused .badWidth) ∧
    (off % 4 ≠ 0 → memRead off 4 s k = .refused .misaligned ∧ memWrite off 4 d s h = .refused .misaligned) ∧
    (off % 4 = 0 →
      (s.params.windowSize ≤ off ∨ (∀ i, i < 32 → off ≠ s.params.cfgBase + 4 * i) ∧
        off ≠ s.params.irqOff ∧ off ≠ s.params.inOff ∧ off ≠ s.params.outOff) →
      memRead off 4 s k = .refused .unmapped ∧ memWrite off 4 d s h = .refused .unmapped)

/-! ### Line control -/

/-- GETDIR completes in one micro-step and reports Input when the stored EI is set and Output otherwise; it writes no
state and takes no lock (42_line_control.md R181, 41_pin_config_codec.md R155). -/
def Obligations.GetdirReportsDirection : Prop :=
  ∀ (s : State) (c : Controller) (i : Nat), CallerReady s c → s.fresh → i < c.n →
    ∃ t, exec (.getdir i) s = .next t ∧
      Returned (.okDirection (if (s.cfgAt i).ei then .input else .output)) s t ∧
      KeepsRegisters s t ∧ KeepsInstance s t

/-- DIRIN completes in four micro-steps: EI set, EO and OE cleared, EINT and TT kept, every other CFG word, IRQ, OUT and
the levels as they were, the lock Free again, `Ok` (R182). -/
def Obligations.DirinMakesLineInput : Prop :=
  ∀ (s : State) (c : Controller) (i : Nat), CallerReady s c → s.fresh → s.lock = none → i < c.n →
    ∃ t, execTimes (.dirin i) 4 s = .next t ∧ Returned .ok s t ∧
      t.cfgAt i = { s.cfgAt i with eo := false, ei := true, oe := false } ∧ KeepsOtherCfg i s t ∧
      t.irq = s.irq ∧ t.out = s.out ∧ t.level = s.level ∧ KeepsInstance s t

/-- DIROUT completes in five micro-steps: the CFG word is overwritten with EO and OE alone, OUT's bit `i` is the initial
value and its other bits as read, IRQ as it was, `Ok` (R183). Under Refined loopback the line's level follows (R134), and
IRQ is as it was because the latch inside the CFG write looks at the CFG word after the write, whose TT is level-high: the
model's reading, log entry 16. -/
def Obligations.DiroutOverwritesAndDrives : Prop :=
  ∀ (s : State) (c : Controller) (i : Nat) (v : Bool),
    CallerReady s c → s.fresh → s.lock = none → i < c.n → LevelsFollowOut s →
    ∃ t, execTimes (.dirout i v) 5 s = .next t ∧ Returned .ok s t ∧
      t.cfgAt i = ⟨true, false, true, false, 0#3⟩ ∧ KeepsOtherCfg i s t ∧
      (∀ b, b < 32 → t.out.getLsbD b = if b = i then v else s.out.getLsbD b) ∧ t.irq = s.irq ∧
      (∀ b, b < 32 → t.level.getLsbD b = if b = i ∧ s.levelsDriven then v else s.level.getLsbD b) ∧
      KeepsInstance s t

/-- GETVAL completes in one micro-step with the line's bit of IN, whatever its direction (R184, 40_register_window.md
R134). -/
def Obligations.GetvalReadsPinView : Prop :=
  ∀ (s : State) (c : Controller) (i : Nat), CallerReady s c → s.fresh → i < c.n →
    ∃ t, exec (.getval i) s = .next t ∧
      Returned (.okBit (
        if s.params.inLoopback && (s.cfgAt i).eo && (s.cfgAt i).oe && !(s.cfgAt i).ei then s.out.getLsbD i
        else if s.params.latch = .refined then s.level.getLsbD i
        else (Config.draw s.draws).getLsbD i)) s t ∧
      KeepsRegisters s t ∧ KeepsInstance s t

/-- SETVAL completes in four micro-steps: OUT's bit `i` is the value, every other bit as read, no CFG word changes, `Ok`
(R185). Under Refined loopback a driving line's level follows, with the edge latch of that change (R132, R134): the line's
sticky bit may become set when the level changes on an edge that TT names, and stays as it was otherwise. -/
def Obligations.SetvalDrivesOneBit : Prop :=
  ∀ (s : State) (c : Controller) (i : Nat) (v : Bool),
    CallerReady s c → s.fresh → s.lock = none → i < c.n → LevelsFollowOut s →
    ∃ t, execTimes (.setval i v) 4 s = .next t ∧ Returned .ok s t ∧
      (∀ b, b < 32 → t.out.getLsbD b = if b = i then v else s.out.getLsbD b) ∧ t.cfg = s.cfg ∧
      (∀ b, b < 32 → t.level.getLsbD b =
        if b = i ∧ s.levelsDriven ∧ (s.cfgAt i).driving = true then v else s.level.getLsbD b) ∧
      (∀ b, b < 32 → b ≠ i → t.irq.getLsbD b = s.irq.getLsbD b) ∧
      (¬ (s.levelsDriven ∧ (s.cfgAt i).driving = true) → t.irq = s.irq) ∧
      (s.irq.getLsbD i = true → t.irq.getLsbD i = true) ∧
      (¬ (s.level.getLsbD i ≠ v ∧ ((s.cfgAt i).tt = 2#3 ∧ v = true ∨ (s.cfgAt i).tt = 3#3 ∧ v = false ∨
          (s.cfgAt i).tt = 4#3)) → t.irq.getLsbD i = s.irq.getLsbD i) ∧
      KeepsInstance s t

/-- DIRIN then GETDIR reports Input; DIROUT then GETDIR reports Output; DIROUT then GETVAL reports the initial value under
loopback (R186). -/
def Obligations.DirectionAndValueReadBack : Prop :=
  ∀ (s : State) (c : Controller) (i : Nat) (v : Bool), CallerReady s c → s.fresh → s.lock = none → i < c.n →
    (∃ t u, execTimes (.dirin i) 4 s = .next t ∧ exec (.getdir i) t = .next u ∧
      Returned (.okDirection .input) t u) ∧
    (∃ t u, execTimes (.dirout i v) 5 s = .next t ∧ exec (.getdir i) t = .next u ∧
      Returned (.okDirection .output) t u) ∧
    (s.params.inLoopback = true →
      ∃ t u, execTimes (.dirout i v) 5 s = .next t ∧ exec (.getval i) t = .next u ∧ Returned (.okBit v) t u)

/-- The micro-steps of DIRIN one by one, whatever came between them (R182, R66): the read takes the stored fields, the
write stores `cfgInput` of the word read, the Release frees the lock and returns. -/
def Obligations.DirinMicroSteps : Prop :=
  ∀ (s : State) (c : Controller) (i : Nat) (w : Word), CallerReady s c → i < c.n →
    (s.inOp (.dirin i) 1 w → ∃ t v, exec (.dirin i) s = .next t ∧ t.me = { s.me with op := some ⟨.dirin i, 2, v⟩ } ∧
      PinConfig.ofWord v = s.cfgAt i ∧ KeepsRegisters s t ∧ KeepsInstance s t) ∧
    (s.inOp (.dirin i) 2 w → ∃ t, exec (.dirin i) s = .next t ∧ t.me = { s.me with op := some ⟨.dirin i, 3, w⟩ } ∧
      t.cfgAt i = { PinConfig.ofWord w with eo := false, ei := true, oe := false } ∧ KeepsOtherCfg i s t ∧
      t.irq = s.irq ∧ t.out = s.out ∧ t.level = s.level ∧ KeepsInstance s t) ∧
    (s.inOp (.dirin i) 3 w → s.lock = some s.cur → ∃ t, exec (.dirin i) s = .next t ∧ Returned .ok s t ∧
      t.lock = none ∧ KeepsRegisters s t)

/-- DIROUT writes CFG before OUT: after its first write the line drives and OUT is as it was, and after its second OUT's
bit `i` is the initial value in the word it read (R183, 70_reset_and_hazards.md R344). -/
def Obligations.DiroutWritesConfigThenOutput : Prop :=
  ∀ (s : State) (c : Controller) (i : Nat) (v : Bool) (w : Word), CallerReady s c → i < c.n →
    (s.inOp (.dirout i v) 1 w → ∃ t, exec (.dirout i v) s = .next t ∧
      t.me = { s.me with op := some ⟨.dirout i v, 2, w⟩ } ∧
      (t.cfgAt i).driving = true ∧ t.out = s.out ∧ KeepsOtherCfg i s t ∧ KeepsInstance s t) ∧
    (s.inOp (.dirout i v) 3 w → ∃ t, exec (.dirout i v) s = .next t ∧
      t.me = { s.me with op := some ⟨.dirout i v, 4, w⟩ } ∧ t.cfg = s.cfg ∧
      (∀ b, b < 32 → t.out.getLsbD b =
        if b = i then v else if b < c.n then w.getLsbD b else s.out.getLsbD b) ∧ KeepsInstance s t)

/-! ### Interrupt-chip operations -/

/-- SETTYPE completes in four micro-steps: TT is the union of the old and the requested code under Accumulate and the
requested code under Replace, the other fields kept, IRQ, OUT and the levels as they were, `Ok` (43_interrupt_chip.md
R211, 41_pin_config_codec.md R156). -/
def Obligations.SettypeMergesTrigger : Prop :=
  ∀ (s : State) (c : Controller) (i : Nat) (r : TriggerRequest),
    CallerReady s c → s.fresh → s.lock = none → i < c.n → LevelsFollowOut s →
    ∃ t, execTimes (.settype i r) 4 s = .next t ∧ Returned .ok s t ∧
      t.cfgAt i = { s.cfgAt i with
        tt := if s.params.merge = .accumulate then (s.cfgAt i).tt ||| encodeTrigger r else encodeTrigger r } ∧
      KeepsOtherCfg i s t ∧ t.irq = s.irq ∧ t.out = s.out ∧ t.level = s.level ∧ KeepsInstance s t

/-- IRQEN completes in eleven micro-steps: the line is an input with EINT set and TT kept, its sticky bit alone is
cleared, OUT and the levels as they were, no event, `Ok` (R212, R216). -/
def Obligations.IrqenClearsThenEnables : Prop :=
  ∀ (s : State) (c : Controller) (i : Nat), CallerReady s c → s.fresh → s.lock = none → i < c.n →
    ∃ t, execTimes (.irqen i) 11 s = .next t ∧ Returned .ok s t ∧
      t.cfgAt i = { s.cfgAt i with eo := false, ei := true, oe := false, eint := true } ∧ KeepsOtherCfg i s t ∧
      (∀ b, b < 32 → t.irq.getLsbD b = (s.irq.getLsbD b && !decide (b = i))) ∧
      t.out = s.out ∧ t.level = s.level ∧ KeepsInstance s t

/-- The order of IRQEN's parts, whatever came between them: micro-step 5 clears the line's sticky bit and writes no CFG
word, and micro-step 9, the last write, stores the word it read with EINT set (R212, 70_reset_and_hazards.md R346). -/
def Obligations.IrqenClearPrecedesEnable : Prop :=
  ∀ (s : State) (c : Controller) (i : Nat) (w : Word), CallerReady s c → i < c.n →
    (s.inOp (.irqen i) 5 w → ∃ t, exec (.irqen i) s = .next t ∧ t.me = { s.me with op := some ⟨.irqen i, 6, w⟩ } ∧
      (∀ b, b < 32 → t.irq.getLsbD b = (s.irq.getLsbD b && !decide (b = i))) ∧
      t.cfg = s.cfg ∧ t.out = s.out ∧ t.level = s.level ∧ KeepsInstance s t) ∧
    (s.inOp (.irqen i) 9 w → ∃ t, exec (.irqen i) s = .next t ∧ t.me = { s.me with op := some ⟨.irqen i, 10, w⟩ } ∧
      t.cfgAt i = { PinConfig.ofWord w with eint := true } ∧ KeepsOtherCfg i s t ∧ t.out = s.out ∧
      KeepsInstance s t)

/-- IRQDIS completes in four micro-steps: EINT cleared, the other fields kept, IRQ, OUT and the levels as they were,
`Ok` (R213). -/
def Obligations.IrqdisClearsEnableOnly : Prop :=
  ∀ (s : State) (c : Controller) (i : Nat),
    CallerReady s c → s.fresh → s.lock = none → i < c.n → LevelsFollowOut s →
    ∃ t, execTimes (.irqdis i) 4 s = .next t ∧ Returned .ok s t ∧
      t.cfgAt i = { s.cfgAt i with eint := false } ∧ KeepsOtherCfg i s t ∧
      t.irq = s.irq ∧ t.out = s.out ∧ t.level = s.level ∧ KeepsInstance s t

/-- IRQMASK and IRQUNMASK complete at once with `Ok` and change nothing (R214, R215). That the return, which has no
micro-step, takes one turn is the model's choice: log entry 27. -/
def Obligations.MaskAndUnmaskAreNoOps : Prop :=
  ∀ (s : State) (c : Controller) (i : Nat), CallerReady s c → s.fresh → i < c.n →
    (∃ t, exec (.irqmask i) s = .next t ∧ Returned .ok s t ∧ t.draws = s.draws ∧
      KeepsRegisters s t ∧ KeepsInstance s t) ∧
    (∃ t, exec (.irqunmask i) s = .next t ∧ Returned .ok s t ∧ t.draws = s.draws ∧
      KeepsRegisters s t ∧ KeepsInstance s t)

/-- A per-line operation with `index ≥ n` returns `InvalidLine` at once, SETVAL `Ok`; no register changes, no bus access is
made (no draw is used) and no lock is taken (60_exceptions.md R291, 42_line_control.md R180, 43_interrupt_chip.md R210). That
the return, which has no micro-step, takes one turn is the model's choice: log entry 27. -/
def Obligations.InvalidIndexChangesNothing : Prop :=
  ∀ (s : State) (c : Controller) (i : Nat) (op : Instr),
    contextOf s.cur = .call → s.hasCur = true → s.ctl = some c → s.fresh → c.n ≤ i →
    indexOf op = some i → isRaw op = false →
    ∃ t, exec op s = .next t ∧
      Returned (match op with | .setval _ _ => .ok | _ => .err .invalidLine) s t ∧
      t.draws = s.draws ∧ KeepsRegisters s t ∧ KeepsInstance s t

/-! ### The lock -/

/-- An operation whose next micro-step is an Acquire takes a Free lock, and is held while the lock is busy, also when it
is itself the holder: then nothing moves (20_memory.md R70, R72). This holds whether the operation has begun (and was held
before) or begins now. HANDLE, the second and third critical sections of IRQEN and the scan of HANDLECHAINED wait in the same
way (44_dispatch.md R240, R247, 43_interrupt_chip.md R212). That a held agent's turn is a step that changes nothing, rather
than no step, is the model's: log entry 3. -/
def Obligations.AcquireTakesFreeLockOrHolds : Prop :=
  (∀ (s : State) (c : Controller) (i : Nat) (v : Bool) (r : TriggerRequest) (op : Instr) (w : Word),
    CallerReady s c → s.fresh ∧ w = 0#32 ∨ s.inOp op 0 w → i < c.n →
    op ∈ [.dirin i, .dirout i v, .setval i v, .settype i r, .irqen i, .irqdis i] →
    ∃ t, exec op s = .next t ∧ KeepsRegisters s t ∧ t.draws = s.draws ∧
      if s.lock = none then
        KeepsInstance { s with lock := some s.cur } t ∧ t.me = { s.me with op := some ⟨op, 1, w⟩ }
      else KeepsInstance s t ∧ t.me = { s.me with op := some ⟨op, 0, w⟩ }) ∧
  (∀ (s : State) (c : Controller) (w : Word),
    s.cur = .dispatch → s.ctl = some c → s.handleBusy = true → s.fresh ∧ w = 0#32 ∨ s.inOp .handle 0 w →
    ∃ t, exec .handle s = .next t ∧ KeepsRegisters s t ∧ t.draws = s.draws ∧
      if s.lock = none then
        KeepsInstance { s with lock := some .dispatch } t ∧ t.me = { s.me with op := some ⟨.handle, 1, w⟩ }
      else KeepsInstance s t ∧ t.me = { s.me with op := some ⟨.handle, 0, w⟩ }) ∧
  (∀ (s : State) (c : Controller) (i k : Nat) (w : Word),
    CallerReady s c → i < c.n → k = 4 ∨ k = 7 → s.inOp (.irqen i) k w →
    (s.lock = none → ∃ t, exec (.irqen i) s = .next t ∧ KeepsInstance { s with lock := some s.cur } t ∧
      t.me = { s.me with op := some ⟨.irqen i, k + 1, w⟩ } ∧ KeepsRegisters s t) ∧
    (s.lock ≠ none → exec (.irqen i) s = .next s)) ∧
  ∀ (s : State) (c : Controller) (w : Word),
    s.cur = .dispatch → s.ctl = some c → s.handleBusy = true → s.params.chainedEntry = true →
    s.inOp .handlechained 1 w →
    (s.lock = none → ∃ t, exec .handlechained s = .next t ∧ KeepsInstance { s with lock := some .dispatch } t ∧
      t.me = { s.me with op := some ⟨.handlechained, 2, w⟩ } ∧ KeepsRegisters s t) ∧
    (s.lock ≠ none → exec .handlechained s = .next s)

/-- Every write to CFG, IRQ or OUT by an operation after INIT is made by the holder of the lock (20_memory.md R73). -/
def Obligations.WritesAreUnderTheLock : Prop :=
  ∀ (s t : State) (i : Instr), LockDiscipline s → isRaw i = false → (∀ n, i ≠ .init n) →
    (s.me.op = none ∨ ∃ o, s.me.op = some o ∧ o.instr = i) → exec i s = .next t →
    t.cfg ≠ s.cfg ∨ t.irq ≠ s.irq ∨ t.out ≠ s.out → s.lock = some s.cur

/-- The lock discipline is kept by every step: whoever is inside a critical section holds the lock, so at most one agent
is (20_memory.md R70 to R74, 60_exceptions.md R301, R302). -/
def Obligations.StepKeepsLockDiscipline : Prop :=
  ∀ s t : State, LockDiscipline s → step s = .next t → LockDiscipline t

/-- The holder of the lock releases it within `2n + 2` micro-steps of its own: HANDLE's bound beyond its Acquire (R75,
R360). -/
def Obligations.LockHolderReleasesSoon : Prop :=
  ∀ (s : State) (c : Controller), LockDiscipline s → s.params.WF → s.ctl = some c → c.n ≤ 32 →
    s.lock = some s.cur →
    ∃ o k t, s.me.op = some o ∧ k ≤ 2 * c.n + 2 ∧ execTimes o.instr k s = .next t ∧ t.lock = none

/-- No lost update: with raw accesses off, every word that an operation has read and is about to write back is still what
the register holds, whatever the other agents do; every step keeps that (R80, R77). -/
def Obligations.StepKeepsNoLostUpdate : Prop :=
  ∀ s t : State, NoLostUpdate s → step s = .next t → NoLostUpdate t

/-! ### The dispatch loop -/

/-- HANDLE completes: every line below `n` pending at the read is cleared and delivered once, in ascending order with its
handle, whatever its EINT; bits at or above `n` stay, no CFG word, OUT bit or level changes, the lock is Free and
`handleBusy` false again, and `Ok` goes to the platform (44_dispatch.md R240, R243, R246, R248). -/
def Obligations.HandleServicesPendingLines : Prop :=
  ∀ (s : State) (c : Controller), DispatchReady s c → s.fresh → s.lock = none →
    ∃ t, execTimes .handle (3 + 2 * (pendingLines c.n s.irq).length) s = .next t ∧
      t.events = s.events ++ (pendingLines c.n s.irq).map (fun i => .irq i (c.handleOf i)) ∧
      (∀ b, b < 32 → t.irq.getLsbD b = (s.irq.getLsbD b && decide (c.n ≤ b))) ∧
      t.cfg = s.cfg ∧ t.out = s.out ∧ t.level = s.level ∧ t.lock = none ∧ t.handleBusy = false ∧
      t.ctl = s.ctl ∧ t.params = s.params ∧ t.launch = s.launch ∧ t.callers = s.callers ∧
      t.dispatch = { s.dispatch with op := none } ∧
      t.platform = { s.platform with results := s.platform.results ++ [.ok] } ∧
      t.schedule = s.schedule ∧ t.moves = s.moves ∧ t.cur = s.cur ∧ t.draws = s.draws + 1

/-- HANDLECHAINED completes, when admitted, as HANDLE does, with the enter marker before and the exit marker after the
line events (R247). -/
def Obligations.HandlechainedFramesTheScan : Prop :=
  ∀ (s : State) (c : Controller), DispatchReady s c → s.params.chainedEntry = true → s.fresh → s.lock = none →
    ∃ t, execTimes .handlechained (5 + 2 * (pendingLines c.n s.irq).length) s = .next t ∧
      t.events = s.events ++ .chainedEnter ::
        ((pendingLines c.n s.irq).map (fun i => .irq i (c.handleOf i)) ++ [.chainedExit]) ∧
      (∀ b, b < 32 → t.irq.getLsbD b = (s.irq.getLsbD b && decide (c.n ≤ b))) ∧
      t.cfg = s.cfg ∧ t.out = s.out ∧ t.level = s.level ∧ t.lock = none ∧ t.handleBusy = false ∧
      t.ctl = s.ctl ∧ t.params = s.params ∧ t.launch = s.launch ∧ t.callers = s.callers ∧
      t.dispatch = { s.dispatch with op := none } ∧
      t.platform = { s.platform with results := s.platform.results ++ [.ok] } ∧
      t.schedule = s.schedule ∧ t.moves = s.moves ∧ t.cur = s.cur ∧ t.draws = s.draws + 1

/-- Every micro-step of HANDLE and HANDLECHAINED leaves IRQ as it is or clears the one bit of a line of its snapshot,
whatever was latched meanwhile, and writes no CFG word and no OUT bit (R241). -/
def Obligations.HandleClearsOneBitAtATime : Prop :=
  ∀ (s t : State) (i : Instr), i = .handle ∨ i = .handlechained → s.params.WF → exec i s = .next t →
    t.cfg = s.cfg ∧ t.out = s.out ∧
    (t.irq = s.irq ∨ ∃ c b, s.ctl = some c ∧ b < c.n ∧ s.tmp.getLsbD b = true ∧
      ∀ a, a < 32 → t.irq.getLsbD a = (s.irq.getLsbD a && !decide (a = b)))

/-- The lines a scan services: those below `n` set in the snapshot, in strictly ascending order (R243). -/
def Obligations.PendingLinesAscend : Prop :=
  ∀ (n : Nat) (w : Word), (pendingLines n w).Pairwise (· < ·) ∧
    ∀ i, i ∈ pendingLines n w ↔ i < n ∧ w.getLsbD i = true

/-- HANDLECHAINED is refused when `P_CHAINED_ENTRY` is false, and so is a program that holds its word (00_scope.md R8,
44_dispatch.md R247). That the program is refused when its agent is about to take an operation is the model's choice, log
entry 14. -/
def Obligations.ChainedEntryNeedsParameter : Prop :=
  (∀ s : State, s.params.chainedEntry = false → exec .handlechained s = .refused .chainedNotAdmitted) ∧
  ∀ (s : State) (a : AgentId) (rest : List Move) (l : ProgLine),
    s.schedule = .agent a :: rest → (s.agent a).op = none → l ∈ (s.agent a).program →
    decodeLine s.params l = .ok .handlechained → s.params.chainedEntry = false → ∃ r, step s = .refused r

/-- `deliver` is enabled when the controller is Ready and no HANDLE runs: it sets `handleBusy` and puts the word of HANDLE
(of HANDLECHAINED, where that is admitted) before the dispatch agent, and does nothing else; otherwise nothing happens
(60_exceptions.md R300, R302). The delivery as a word in the dispatch agent's program, and the disabled move that changes
nothing, are the model's: log entries 24 and 3. -/
def Obligations.DeliverStartsHandle : Prop :=
  ∀ (s : State) (rest : List Move) (chained : Bool), s.schedule = .deliver chained :: rest →
    (s.ctl ≠ none → s.handleBusy = false → (chained = true → s.params.chainedEntry = true) →
      step s = .next { s with
        schedule := rest, handleBusy := true
        dispatch := { s.dispatch with
          program := [.cmd (if chained then 0x0000000C#32 else 0x0000000B#32)], op := none } }) ∧
    (s.ctl = none ∨ s.handleBusy = true ∨ (chained = true ∧ s.params.chainedEntry = false) →
      step s = .next { s with schedule := rest })

/-! ### Bring-up -/

/-- INIT completes in `2n + 1` micro-steps: EINT is cleared on every line below `n`, every other field, IRQ, OUT and the
levels are as they were, and the instance is published Ready with `n` and the launch map, the lock Free, no HANDLE in
flight, the events as before (45_controller.md R270, R272); no enabled line is pending, so `UP` is false (R274). -/
def Obligations.InitBuildsController : Prop :=
  ∀ (s : State) (n : Nat), s.cur = .platform → s.fresh → s.ctl = none → s.launch.windowPresent = true → n ≤ 32 →
    s.params.WF → LevelsFollowOut s →
    ∃ t, execTimes (.init n) (2 * n + 1) s = .next t ∧ Returned .ok s t ∧
      t.ctl = some ⟨n, s.launch.map⟩ ∧ t.lock = none ∧ t.handleBusy = false ∧ t.events = s.events ∧
      (∀ i, i < n → t.cfgAt i = { s.cfgAt i with eint := false }) ∧
      (∀ i, n ≤ i → t.cfgAt i = s.cfgAt i) ∧ t.irq = s.irq ∧ t.out = s.out ∧ t.level = s.level ∧
      t.params = s.params ∧ t.launch = s.launch ∧ t.schedule = s.schedule ∧ t.moves = s.moves ∧ t.cur = s.cur ∧
      t.callers = s.callers ∧ t.dispatch = s.dispatch ∧ up t = false

/-- INIT fails with `HardwareUnavailable` when the window is absent, checked first, and with `TooManyLines` above 32
lines; it makes no access and the controller stays Absent (R270, R271). That the return, which has no micro-step, takes
one turn is the model's choice: log entry 27. -/
def Obligations.InitErrorsLeaveAbsent : Prop :=
  ∀ (s : State) (n : Nat), s.cur = .platform → s.fresh → s.ctl = none →
    s.launch.windowPresent = false ∨ 32 < n →
    ∃ t, exec (.init n) s = .next t ∧
      Returned (.err (if s.launch.windowPresent then .tooManyLines else .hardwareUnavailable)) s t ∧
      t.draws = s.draws ∧ KeepsRegisters s t ∧ KeepsInstance s t

/-- INIT has no step while the controller is Ready, whoever issues it; the platform agent's is refused by that name
(R273). -/
def Obligations.InitHasNoStepWhileReady : Prop :=
  ∀ (s : State) (c : Controller) (n : Nat), s.ctl = some c →
    (∃ r, exec (.init n) s = .refused r) ∧ (s.cur = .platform → exec (.init n) s = .refused .alreadyReady)

/-- Every operation but INIT has no step while the controller is Absent (10_state.md R34). -/
def Obligations.OnlyInitStepsWhileAbsent : Prop :=
  ∀ (s : State) (i : Instr), s.ctl = none → (∀ n, i ≠ .init n) → ∃ r, exec i s = .refused r

/-! ### The hardware agent -/

/-- Under Loose, `latch(m)` is enabled at every state and sets the bits of `m` in IRQ, and nothing else happens
(40_register_window.md R131). Under Refined there is no such step and nothing happens (R132: no latch occurs outside its
conditions; the move that is not enabled: log entry 3). -/
def Obligations.LooseLatchSetsBits : Prop :=
  ∀ (s : State) (rest : List Move) (m : Word), s.schedule = .latch m :: rest →
    (s.params.latch = .loose → step s = .next { s with schedule := rest, irq := s.irq ||| m }) ∧
    (s.params.latch = .refined → step s = .next { s with schedule := rest })

/-- Under Refined, `latchLevel(i)` sets IRQ's bit `i` when line `i < n` has TT level-high and a high level, level-low and a
low one, or a reserved TT; otherwise nothing happens, and under Loose nothing happens (R132; the move that is not enabled:
log entry 3). While Absent (R130) it acts on each of the 32 lines, the model's choice: log entry 17. -/
def Obligations.LevelLatchFollowsTrigger : Prop :=
  ∀ (s : State) (n : Nat) (rest : List Move) (i : Nat), s.schedule = .latchLevel i :: rest → HardwareLines s n →
    (s.params.latch = .refined →
      ∃ t, step s = .next { s with schedule := rest, irq := t } ∧
        ∀ b, b < 32 → t.getLsbD b = (s.irq.getLsbD b || (decide (b = i) && decide (i < n) &&
          (decide ((s.cfgAt i).tt = 0#3) && s.level.getLsbD i || decide ((s.cfgAt i).tt = 1#3) && !s.level.getLsbD i ||
            decide (5 ≤ (s.cfgAt i).tt.toNat))))) ∧
    (s.params.latch = .loose → step s = .next { s with schedule := rest })

/-- Under Refined, `setLevel(i, v)` on a line below `n` whose level differs and which is not driving under loopback changes
that level alone and, in the same step, latches on a matching edge: for certain when EINT and EI are set, otherwise maybe;
without a matching edge no sticky bit changes. When it is not enabled, and under Loose, nothing happens (R132, R133; log
entries 3 and 16). While Absent (R130) it acts on each of the 32 lines, the model's choice: log entry 17. -/
def Obligations.LevelChangeLatchesEdges : Prop :=
  ∀ (s : State) (n : Nat) (rest : List Move) (i : Nat) (v : Bool),
    s.schedule = .setLevel i v :: rest → HardwareLines s n →
    if s.params.latch = .refined ∧ i < n ∧ v ≠ s.level.getLsbD i ∧
        ¬ (s.params.inLoopback = true ∧ (s.cfgAt i).driving = true) then
      ∃ l q, step s = .next { s with schedule := rest, level := l, irq := q, draws := s.draws + 1 } ∧
        (∀ b, b < 32 → l.getLsbD b = if b = i then v else s.level.getLsbD b) ∧
        (∀ b, b < 32 → b ≠ i → q.getLsbD b = s.irq.getLsbD b) ∧
        (if (s.cfgAt i).tt = 2#3 ∧ v = true ∨ (s.cfgAt i).tt = 3#3 ∧ v = false ∨ (s.cfgAt i).tt = 4#3 then
          (s.irq.getLsbD i = true → q.getLsbD i = true) ∧
          ((s.cfgAt i).eint = true → (s.cfgAt i).ei = true → q.getLsbD i = true)
         else q.getLsbD i = s.irq.getLsbD i)
    else step s = .next { s with schedule := rest }

/-- A step of the hardware agent always is possible, never writes CFG or OUT, never clears a sticky bit, and touches
neither the instance nor any agent (R130, 10_state.md R29; a move that is not enabled changes nothing: log entry 3). -/
def Obligations.HardwareNeverClearsNorConfigures : Prop :=
  ∀ (s : State) (rest : List Move) (m : Move),
    (∃ w, m = .latch w) ∨ (∃ i, m = .latchLevel i) ∨ (∃ i v, m = .setLevel i v) → s.schedule = m :: rest →
    ∃ t, step s = .next t ∧ t.cfg = s.cfg ∧ t.out = s.out ∧
      (∀ b, s.irq.getLsbD b = true → t.irq.getLsbD b = true) ∧
      t.ctl = s.ctl ∧ t.lock = s.lock ∧ t.handleBusy = s.handleBusy ∧ t.events = s.events ∧ t.params = s.params ∧
      ∀ a, t.agent a = s.agent a

/-- No operation sets a sticky bit: software only clears (10_state.md R28). Under Refined loopback the write of a driven
level may latch its edge, which is the hardware's doing (R133), so that setting is left to `WrCfgStoresFields` and
`WrOutStoresBelowCount`. -/
def Obligations.SoftwareNeverSetsStatusBits : Prop :=
  ∀ (s t : State) (i : Instr), ¬ s.levelsDriven → exec i s = .next t →
    ∀ b, t.irq.getLsbD b = true → s.irq.getLsbD b = true

/-! ### Whole-machine rules -/

/-- No step changes the parameters or the launch parameters, and once Ready the controller stays Ready with the same line
count and map; the line count stays within 32 (10_state.md R34, R35, R36). -/
def Obligations.StepKeepsControllerAndParameters : Prop :=
  ∀ s t : State, step s = .next t →
    t.params = s.params ∧ t.launch = s.launch ∧ (∀ c, s.ctl = some c → t.ctl = some c) ∧
      (CountBounded s → CountBounded t)

/-- Every step keeps the level of each line that drives under Refined loopback equal to OUT's bit
(40_register_window.md R134). -/
def Obligations.StepKeepsLevelsFollowOut : Prop :=
  ∀ s t : State, LevelsFollowOut s → step s = .next t → LevelsFollowOut t

/-- The events only ever grow at their end (10_state.md R39, 44_dispatch.md R245). -/
def Obligations.EventsOnlyGrow : Prop :=
  ∀ s t : State, step s = .next t → ∃ new, t.events = s.events ++ new ∧ new.length ≤ 1

/-- Once Ready, no step of any agent changes CFG[i] for a line at or above `n` (40_register_window.md R128). -/
def Obligations.CfgBeyondCountNeverChanges : Prop :=
  ∀ (s t : State) (c : Controller) (i : Nat), s.ctl = some c → c.n ≤ 32 → s.params.WF → step s = .next t →
    c.n ≤ i → t.cfgAt i = s.cfgAt i

/-- An operation's micro-step touches no other agent, but for the result HANDLE gives the platform (60_exceptions.md
R302, 00_scope.md R10). -/
def Obligations.OperationsTouchNoOtherAgent : Prop :=
  ∀ (s t : State) (i : Instr) (a : AgentId), exec i s = .next t → a ≠ s.cur →
    t.agent a = s.agent a ∨ a = .platform ∧ (i = .handle ∨ i = .handlechained) ∧
      t.agent a = { s.platform with results := s.platform.results ++ [.ok] }

/-- The state at reset: Absent, `handleBusy` false, no events, every agent with no program and nothing in flight, the lock
with no holder (10_state.md R42, 70_reset_and_hazards.md R330). R42 gives the lock's value only from Ready on: log entry 22. -/
def Obligations.ResetIsAbsentAndIdle : Prop :=
  State.reset.ctl = none ∧ State.reset.handleBusy = false ∧ State.reset.events = [] ∧ State.reset.lock = none ∧
  ∀ a, State.reset.agent a = Agent.idle

/-- The invariants hold at reset: the line count bound, the lock discipline, no lost update (R42), and the levels of lines
that drive under loopback. R41 gives such a level when `P_LATCH` is Refined; that it equals OUT's bit at reset, where the
model is Loose, is the model's choice, log entry 6. The defaults of the parameters (`P_RAW_BUS` false, the legal map) are
log entry 4, and the Free lock is log entry 22. -/
def Obligations.ResetMeetsInvariants : Prop :=
  CountBounded State.reset ∧ LockDiscipline State.reset ∧ NoLostUpdate State.reset ∧
  ∀ b, b < 32 → State.reset.params.inLoopback = true → (State.reset.cfgAt b).driving = true →
    State.reset.level.getLsbD b = State.reset.out.getLsbD b

/-! ### The codec -/

/-- The codec's functions on every word: what `cfgInput`, `cfgOutput`, `cfgIntEnable` and `cfgIntDisable` leave of each of
the 32 bits, and that `decodeDirection` is Input exactly when bit 1 is set (41_pin_config_codec.md R153 to R155, R158). -/
def Obligations.ConfigUpdatesBitByBit : Prop :=
  ∀ (c : Word) (b : Nat), b < 32 →
    (cfgInput c).getLsbD b = (if b = 1 then true else if b = 0 ∨ b = 2 then false else c.getLsbD b) ∧
    cfgOutput = 0x00000005#32 ∧
    (cfgIntEnable c).getLsbD b = (if b = 3 then true else c.getLsbD b) ∧
    (cfgIntDisable c).getLsbD b = (if b = 3 then false else c.getLsbD b) ∧
    decodeDirection c = if c.getLsbD 1 then .input else .output

/-- `encodeTrigger`, `ttBits` and `cfgTrigger` (R150, R151, R156): the five named codes, level-low for every other request,
a code in bits 7:5, and TT merged or replaced with every bit outside 7:5 kept. -/
def Obligations.TriggerEncodingAndMerge : Prop :=
  (encodeTrigger .levelHigh = 0#3 ∧ encodeTrigger .levelLow = 1#3 ∧ encodeTrigger .edgeRising = 2#3 ∧
    encodeTrigger .edgeFalling = 3#3 ∧ encodeTrigger .edgeBoth = 4#3 ∧ ∀ k, encodeTrigger (.other k) = 1#3) ∧
  ∀ (c : Word) (q : BitVec 3) (b : Nat), b < 32 →
    (ttBits q).getLsbD b = (decide (5 ≤ b) && decide (b ≤ 7) && q.getLsbD (b - 5)) ∧
    (cfgTrigger .accumulate c q).getLsbD b =
      (c.getLsbD b || (decide (5 ≤ b) && decide (b ≤ 7) && q.getLsbD (b - 5))) ∧
    (cfgTrigger .replace c q).getLsbD b = (if 5 ≤ b ∧ b ≤ 7 then q.getLsbD (b - 5) else c.getLsbD b)

/-- `lineBit`, `setBit` and `validMask` bit by bit (R159, R160, R161): the mask is exact at `n = 32`. -/
def Obligations.LineBitsAndMasks : Prop :=
  (∀ (w : Word) (i b : Nat) (v : Bool), i < 32 → b < 32 →
    (lineBit i).getLsbD b = decide (b = i) ∧ (setBit w i v).getLsbD b = if b = i then v else w.getLsbD b) ∧
  (∀ n b : Nat, n ≤ 32 → b < 32 → (validMask n).getLsbD b = decide (b < n)) ∧ validMask 32 = 0xFFFFFFFF#32
end

