-- ==== Sys2Proof/Laws/State.lean ====
section
/-!
SUPPORT. What each update of the state leaves in each field it does not touch: one lemma a field, so that no later proof
unfolds a record update.
-/

namespace Sys2Proof.Machine

/-! ### Replacing an agent -/

@[simp] theorem setAgent_params (s : State) (a : AgentId) (g : Agent) : (s.setAgent a g).params = s.params := by cases a <;> rfl
@[simp] theorem setAgent_launch (s : State) (a : AgentId) (g : Agent) : (s.setAgent a g).launch = s.launch := by cases a <;> rfl
@[simp] theorem setAgent_cfg (s : State) (a : AgentId) (g : Agent) : (s.setAgent a g).cfg = s.cfg := by cases a <;> rfl
@[simp] theorem setAgent_irq (s : State) (a : AgentId) (g : Agent) : (s.setAgent a g).irq = s.irq := by cases a <;> rfl
@[simp] theorem setAgent_out (s : State) (a : AgentId) (g : Agent) : (s.setAgent a g).out = s.out := by cases a <;> rfl
@[simp] theorem setAgent_level (s : State) (a : AgentId) (g : Agent) : (s.setAgent a g).level = s.level := by cases a <;> rfl
@[simp] theorem setAgent_ctl (s : State) (a : AgentId) (g : Agent) : (s.setAgent a g).ctl = s.ctl := by cases a <;> rfl
@[simp] theorem setAgent_lock (s : State) (a : AgentId) (g : Agent) : (s.setAgent a g).lock = s.lock := by cases a <;> rfl
@[simp] theorem setAgent_handleBusy (s : State) (a : AgentId) (g : Agent) : (s.setAgent a g).handleBusy = s.handleBusy := by cases a <;> rfl
@[simp] theorem setAgent_events (s : State) (a : AgentId) (g : Agent) : (s.setAgent a g).events = s.events := by cases a <;> rfl
@[simp] theorem setAgent_cur (s : State) (a : AgentId) (g : Agent) : (s.setAgent a g).cur = s.cur := by cases a <;> rfl
@[simp] theorem setAgent_schedule (s : State) (a : AgentId) (g : Agent) : (s.setAgent a g).schedule = s.schedule := by cases a <;> rfl
@[simp] theorem setAgent_moves (s : State) (a : AgentId) (g : Agent) : (s.setAgent a g).moves = s.moves := by cases a <;> rfl
@[simp] theorem setAgent_draws (s : State) (a : AgentId) (g : Agent) : (s.setAgent a g).draws = s.draws := by cases a <;> rfl

@[simp] theorem setMe_params (s : State) (g : Agent) : (s.setMe g).params = s.params := setAgent_params ..
@[simp] theorem setMe_launch (s : State) (g : Agent) : (s.setMe g).launch = s.launch := setAgent_launch ..
@[simp] theorem setMe_cfg (s : State) (g : Agent) : (s.setMe g).cfg = s.cfg := setAgent_cfg ..
@[simp] theorem setMe_irq (s : State) (g : Agent) : (s.setMe g).irq = s.irq := setAgent_irq ..
@[simp] theorem setMe_out (s : State) (g : Agent) : (s.setMe g).out = s.out := setAgent_out ..
@[simp] theorem setMe_level (s : State) (g : Agent) : (s.setMe g).level = s.level := setAgent_level ..
@[simp] theorem setMe_ctl (s : State) (g : Agent) : (s.setMe g).ctl = s.ctl := setAgent_ctl ..
@[simp] theorem setMe_lock (s : State) (g : Agent) : (s.setMe g).lock = s.lock := setAgent_lock ..
@[simp] theorem setMe_handleBusy (s : State) (g : Agent) : (s.setMe g).handleBusy = s.handleBusy := setAgent_handleBusy ..
@[simp] theorem setMe_events (s : State) (g : Agent) : (s.setMe g).events = s.events := setAgent_events ..
@[simp] theorem setMe_cur (s : State) (g : Agent) : (s.setMe g).cur = s.cur := setAgent_cur ..
@[simp] theorem setMe_schedule (s : State) (g : Agent) : (s.setMe g).schedule = s.schedule := setAgent_schedule ..
@[simp] theorem setMe_moves (s : State) (g : Agent) : (s.setMe g).moves = s.moves := setAgent_moves ..
@[simp] theorem setMe_draws (s : State) (g : Agent) : (s.setMe g).draws = s.draws := setAgent_draws ..

/-! ### Micro-step bookkeeping -/

@[simp] theorem enter_params (i : Instr) (s : State) : (enter i s).params = s.params := by unfold enter; split <;> simp
@[simp] theorem enter_launch (i : Instr) (s : State) : (enter i s).launch = s.launch := by unfold enter; split <;> simp
@[simp] theorem enter_cfg (i : Instr) (s : State) : (enter i s).cfg = s.cfg := by unfold enter; split <;> simp
@[simp] theorem enter_irq (i : Instr) (s : State) : (enter i s).irq = s.irq := by unfold enter; split <;> simp
@[simp] theorem enter_out (i : Instr) (s : State) : (enter i s).out = s.out := by unfold enter; split <;> simp
@[simp] theorem enter_level (i : Instr) (s : State) : (enter i s).level = s.level := by unfold enter; split <;> simp
@[simp] theorem enter_ctl (i : Instr) (s : State) : (enter i s).ctl = s.ctl := by unfold enter; split <;> simp
@[simp] theorem enter_lock (i : Instr) (s : State) : (enter i s).lock = s.lock := by unfold enter; split <;> simp
@[simp] theorem enter_handleBusy (i : Instr) (s : State) : (enter i s).handleBusy = s.handleBusy := by unfold enter; split <;> simp
@[simp] theorem enter_events (i : Instr) (s : State) : (enter i s).events = s.events := by unfold enter; split <;> simp
@[simp] theorem enter_cur (i : Instr) (s : State) : (enter i s).cur = s.cur := by unfold enter; split <;> simp
@[simp] theorem enter_schedule (i : Instr) (s : State) : (enter i s).schedule = s.schedule := by unfold enter; split <;> simp
@[simp] theorem enter_moves (i : Instr) (s : State) : (enter i s).moves = s.moves := by unfold enter; split <;> simp
@[simp] theorem enter_draws (i : Instr) (s : State) : (enter i s).draws = s.draws := by unfold enter; split <;> simp

@[simp] theorem advance_params (w : Word) (s : State) : (advance w s).params = s.params := by simp [advance]
@[simp] theorem advance_launch (w : Word) (s : State) : (advance w s).launch = s.launch := by simp [advance]
@[simp] theorem advance_cfg (w : Word) (s : State) : (advance w s).cfg = s.cfg := by simp [advance]
@[simp] theorem advance_irq (w : Word) (s : State) : (advance w s).irq = s.irq := by simp [advance]
@[simp] theorem advance_out (w : Word) (s : State) : (advance w s).out = s.out := by simp [advance]
@[simp] theorem advance_level (w : Word) (s : State) : (advance w s).level = s.level := by simp [advance]
@[simp] theorem advance_ctl (w : Word) (s : State) : (advance w s).ctl = s.ctl := by simp [advance]
@[simp] theorem advance_lock (w : Word) (s : State) : (advance w s).lock = s.lock := by simp [advance]
@[simp] theorem advance_handleBusy (w : Word) (s : State) : (advance w s).handleBusy = s.handleBusy := by simp [advance]
@[simp] theorem advance_events (w : Word) (s : State) : (advance w s).events = s.events := by simp [advance]
@[simp] theorem advance_cur (w : Word) (s : State) : (advance w s).cur = s.cur := by simp [advance]
@[simp] theorem advance_schedule (w : Word) (s : State) : (advance w s).schedule = s.schedule := by simp [advance]
@[simp] theorem advance_moves (w : Word) (s : State) : (advance w s).moves = s.moves := by simp [advance]
@[simp] theorem advance_draws (w : Word) (s : State) : (advance w s).draws = s.draws := by simp [advance]

@[simp] theorem finish_params (r : Result) (s : State) : (finish r s).params = s.params := by simp [finish]
@[simp] theorem finish_launch (r : Result) (s : State) : (finish r s).launch = s.launch := by simp [finish]
@[simp] theorem finish_cfg (r : Result) (s : State) : (finish r s).cfg = s.cfg := by simp [finish]
@[simp] theorem finish_irq (r : Result) (s : State) : (finish r s).irq = s.irq := by simp [finish]
@[simp] theorem finish_out (r : Result) (s : State) : (finish r s).out = s.out := by simp [finish]
@[simp] theorem finish_level (r : Result) (s : State) : (finish r s).level = s.level := by simp [finish]
@[simp] theorem finish_ctl (r : Result) (s : State) : (finish r s).ctl = s.ctl := by simp [finish]
@[simp] theorem finish_lock (r : Result) (s : State) : (finish r s).lock = s.lock := by simp [finish]
@[simp] theorem finish_handleBusy (r : Result) (s : State) : (finish r s).handleBusy = s.handleBusy := by simp [finish]
@[simp] theorem finish_events (r : Result) (s : State) : (finish r s).events = s.events := by simp [finish]
@[simp] theorem finish_cur (r : Result) (s : State) : (finish r s).cur = s.cur := by simp [finish]
@[simp] theorem finish_schedule (r : Result) (s : State) : (finish r s).schedule = s.schedule := by simp [finish]
@[simp] theorem finish_moves (r : Result) (s : State) : (finish r s).moves = s.moves := by simp [finish]
@[simp] theorem finish_draws (r : Result) (s : State) : (finish r s).draws = s.draws := by simp [finish]

/-! ### Draws and the CFG store -/

@[simp] theorem drew_params (s : State) : (s.drew).params = s.params := rfl
@[simp] theorem drew_launch (s : State) : (s.drew).launch = s.launch := rfl
@[simp] theorem drew_cfg (s : State) : (s.drew).cfg = s.cfg := rfl
@[simp] theorem drew_irq (s : State) : (s.drew).irq = s.irq := rfl
@[simp] theorem drew_out (s : State) : (s.drew).out = s.out := rfl
@[simp] theorem drew_level (s : State) : (s.drew).level = s.level := rfl
@[simp] theorem drew_ctl (s : State) : (s.drew).ctl = s.ctl := rfl
@[simp] theorem drew_lock (s : State) : (s.drew).lock = s.lock := rfl
@[simp] theorem drew_handleBusy (s : State) : (s.drew).handleBusy = s.handleBusy := rfl
@[simp] theorem drew_events (s : State) : (s.drew).events = s.events := rfl
@[simp] theorem drew_callers (s : State) : (s.drew).callers = s.callers := rfl
@[simp] theorem drew_dispatch (s : State) : (s.drew).dispatch = s.dispatch := rfl
@[simp] theorem drew_platform (s : State) : (s.drew).platform = s.platform := rfl
@[simp] theorem drew_cur (s : State) : (s.drew).cur = s.cur := rfl
@[simp] theorem drew_schedule (s : State) : (s.drew).schedule = s.schedule := rfl
@[simp] theorem drew_moves (s : State) : (s.drew).moves = s.moves := rfl

@[simp] theorem drew_draws (s : State) : s.drew.draws = s.draws + 1 := rfl

@[simp] theorem setCfg_params (s : State) (i : Nat) (c : PinConfig) : (s.setCfg i c).params = s.params := rfl
@[simp] theorem setCfg_launch (s : State) (i : Nat) (c : PinConfig) : (s.setCfg i c).launch = s.launch := rfl
@[simp] theorem setCfg_irq (s : State) (i : Nat) (c : PinConfig) : (s.setCfg i c).irq = s.irq := rfl
@[simp] theorem setCfg_out (s : State) (i : Nat) (c : PinConfig) : (s.setCfg i c).out = s.out := rfl
@[simp] theorem setCfg_level (s : State) (i : Nat) (c : PinConfig) : (s.setCfg i c).level = s.level := rfl
@[simp] theorem setCfg_ctl (s : State) (i : Nat) (c : PinConfig) : (s.setCfg i c).ctl = s.ctl := rfl
@[simp] theorem setCfg_lock (s : State) (i : Nat) (c : PinConfig) : (s.setCfg i c).lock = s.lock := rfl
@[simp] theorem setCfg_handleBusy (s : State) (i : Nat) (c : PinConfig) : (s.setCfg i c).handleBusy = s.handleBusy := rfl
@[simp] theorem setCfg_events (s : State) (i : Nat) (c : PinConfig) : (s.setCfg i c).events = s.events := rfl
@[simp] theorem setCfg_callers (s : State) (i : Nat) (c : PinConfig) : (s.setCfg i c).callers = s.callers := rfl
@[simp] theorem setCfg_dispatch (s : State) (i : Nat) (c : PinConfig) : (s.setCfg i c).dispatch = s.dispatch := rfl
@[simp] theorem setCfg_platform (s : State) (i : Nat) (c : PinConfig) : (s.setCfg i c).platform = s.platform := rfl
@[simp] theorem setCfg_cur (s : State) (i : Nat) (c : PinConfig) : (s.setCfg i c).cur = s.cur := rfl
@[simp] theorem setCfg_schedule (s : State) (i : Nat) (c : PinConfig) : (s.setCfg i c).schedule = s.schedule := rfl
@[simp] theorem setCfg_moves (s : State) (i : Nat) (c : PinConfig) : (s.setCfg i c).moves = s.moves := rfl
@[simp] theorem setCfg_draws (s : State) (i : Nat) (c : PinConfig) : (s.setCfg i c).draws = s.draws := rfl

/-! ### The levels of driving lines -/

@[simp] theorem driveLevels_params (l : Nat → Bool) (s : State) : (driveLevels l s).params = s.params := by unfold driveLevels; split <;> rfl
@[simp] theorem driveLevels_launch (l : Nat → Bool) (s : State) : (driveLevels l s).launch = s.launch := by unfold driveLevels; split <;> rfl
@[simp] theorem driveLevels_cfg (l : Nat → Bool) (s : State) : (driveLevels l s).cfg = s.cfg := by unfold driveLevels; split <;> rfl
@[simp] theorem driveLevels_out (l : Nat → Bool) (s : State) : (driveLevels l s).out = s.out := by unfold driveLevels; split <;> rfl
@[simp] theorem driveLevels_ctl (l : Nat → Bool) (s : State) : (driveLevels l s).ctl = s.ctl := by unfold driveLevels; split <;> rfl
@[simp] theorem driveLevels_lock (l : Nat → Bool) (s : State) : (driveLevels l s).lock = s.lock := by unfold driveLevels; split <;> rfl
@[simp] theorem driveLevels_handleBusy (l : Nat → Bool) (s : State) : (driveLevels l s).handleBusy = s.handleBusy := by unfold driveLevels; split <;> rfl
@[simp] theorem driveLevels_events (l : Nat → Bool) (s : State) : (driveLevels l s).events = s.events := by unfold driveLevels; split <;> rfl
@[simp] theorem driveLevels_callers (l : Nat → Bool) (s : State) : (driveLevels l s).callers = s.callers := by unfold driveLevels; split <;> rfl
@[simp] theorem driveLevels_dispatch (l : Nat → Bool) (s : State) : (driveLevels l s).dispatch = s.dispatch := by unfold driveLevels; split <;> rfl
@[simp] theorem driveLevels_platform (l : Nat → Bool) (s : State) : (driveLevels l s).platform = s.platform := by unfold driveLevels; split <;> rfl
@[simp] theorem driveLevels_cur (l : Nat → Bool) (s : State) : (driveLevels l s).cur = s.cur := by unfold driveLevels; split <;> rfl
@[simp] theorem driveLevels_schedule (l : Nat → Bool) (s : State) : (driveLevels l s).schedule = s.schedule := by unfold driveLevels; split <;> rfl
@[simp] theorem driveLevels_moves (l : Nat → Bool) (s : State) : (driveLevels l s).moves = s.moves := by unfold driveLevels; split <;> rfl

/-! ### Single fields -/

@[simp] theorem setLock_params (s : State) (l : Option AgentId) : (s.setLock l).params = s.params := rfl
@[simp] theorem setLock_launch (s : State) (l : Option AgentId) : (s.setLock l).launch = s.launch := rfl
@[simp] theorem setLock_cfg (s : State) (l : Option AgentId) : (s.setLock l).cfg = s.cfg := rfl
@[simp] theorem setLock_irq (s : State) (l : Option AgentId) : (s.setLock l).irq = s.irq := rfl
@[simp] theorem setLock_out (s : State) (l : Option AgentId) : (s.setLock l).out = s.out := rfl
@[simp] theorem setLock_level (s : State) (l : Option AgentId) : (s.setLock l).level = s.level := rfl
@[simp] theorem setLock_ctl (s : State) (l : Option AgentId) : (s.setLock l).ctl = s.ctl := rfl
@[simp] theorem setLock_lock (s : State) (l : Option AgentId) : (s.setLock l).lock = l := rfl
@[simp] theorem setLock_handleBusy (s : State) (l : Option AgentId) : (s.setLock l).handleBusy = s.handleBusy := rfl
@[simp] theorem setLock_events (s : State) (l : Option AgentId) : (s.setLock l).events = s.events := rfl
@[simp] theorem setLock_callers (s : State) (l : Option AgentId) : (s.setLock l).callers = s.callers := rfl
@[simp] theorem setLock_dispatch (s : State) (l : Option AgentId) : (s.setLock l).dispatch = s.dispatch := rfl
@[simp] theorem setLock_platform (s : State) (l : Option AgentId) : (s.setLock l).platform = s.platform := rfl
@[simp] theorem setLock_cur (s : State) (l : Option AgentId) : (s.setLock l).cur = s.cur := rfl
@[simp] theorem setLock_schedule (s : State) (l : Option AgentId) : (s.setLock l).schedule = s.schedule := rfl
@[simp] theorem setLock_moves (s : State) (l : Option AgentId) : (s.setLock l).moves = s.moves := rfl
@[simp] theorem setLock_draws (s : State) (l : Option AgentId) : (s.setLock l).draws = s.draws := rfl

@[simp] theorem setIrq_params (s : State) (w : Word) : (s.setIrq w).params = s.params := rfl
@[simp] theorem setIrq_launch (s : State) (w : Word) : (s.setIrq w).launch = s.launch := rfl
@[simp] theorem setIrq_cfg (s : State) (w : Word) : (s.setIrq w).cfg = s.cfg := rfl
@[simp] theorem setIrq_irq (s : State) (w : Word) : (s.setIrq w).irq = w := rfl
@[simp] theorem setIrq_out (s : State) (w : Word) : (s.setIrq w).out = s.out := rfl
@[simp] theorem setIrq_level (s : State) (w : Word) : (s.setIrq w).level = s.level := rfl
@[simp] theorem setIrq_ctl (s : State) (w : Word) : (s.setIrq w).ctl = s.ctl := rfl
@[simp] theorem setIrq_lock (s : State) (w : Word) : (s.setIrq w).lock = s.lock := rfl
@[simp] theorem setIrq_handleBusy (s : State) (w : Word) : (s.setIrq w).handleBusy = s.handleBusy := rfl
@[simp] theorem setIrq_events (s : State) (w : Word) : (s.setIrq w).events = s.events := rfl
@[simp] theorem setIrq_callers (s : State) (w : Word) : (s.setIrq w).callers = s.callers := rfl
@[simp] theorem setIrq_dispatch (s : State) (w : Word) : (s.setIrq w).dispatch = s.dispatch := rfl
@[simp] theorem setIrq_platform (s : State) (w : Word) : (s.setIrq w).platform = s.platform := rfl
@[simp] theorem setIrq_cur (s : State) (w : Word) : (s.setIrq w).cur = s.cur := rfl
@[simp] theorem setIrq_schedule (s : State) (w : Word) : (s.setIrq w).schedule = s.schedule := rfl
@[simp] theorem setIrq_moves (s : State) (w : Word) : (s.setIrq w).moves = s.moves := rfl
@[simp] theorem setIrq_draws (s : State) (w : Word) : (s.setIrq w).draws = s.draws := rfl

@[simp] theorem setOut_params (s : State) (w : Word) : (s.setOut w).params = s.params := rfl
@[simp] theorem setOut_launch (s : State) (w : Word) : (s.setOut w).launch = s.launch := rfl
@[simp] theorem setOut_cfg (s : State) (w : Word) : (s.setOut w).cfg = s.cfg := rfl
@[simp] theorem setOut_irq (s : State) (w : Word) : (s.setOut w).irq = s.irq := rfl
@[simp] theorem setOut_out (s : State) (w : Word) : (s.setOut w).out = w := rfl
@[simp] theorem setOut_level (s : State) (w : Word) : (s.setOut w).level = s.level := rfl
@[simp] theorem setOut_ctl (s : State) (w : Word) : (s.setOut w).ctl = s.ctl := rfl
@[simp] theorem setOut_lock (s : State) (w : Word) : (s.setOut w).lock = s.lock := rfl
@[simp] theorem setOut_handleBusy (s : State) (w : Word) : (s.setOut w).handleBusy = s.handleBusy := rfl
@[simp] theorem setOut_events (s : State) (w : Word) : (s.setOut w).events = s.events := rfl
@[simp] theorem setOut_callers (s : State) (w : Word) : (s.setOut w).callers = s.callers := rfl
@[simp] theorem setOut_dispatch (s : State) (w : Word) : (s.setOut w).dispatch = s.dispatch := rfl
@[simp] theorem setOut_platform (s : State) (w : Word) : (s.setOut w).platform = s.platform := rfl
@[simp] theorem setOut_cur (s : State) (w : Word) : (s.setOut w).cur = s.cur := rfl
@[simp] theorem setOut_schedule (s : State) (w : Word) : (s.setOut w).schedule = s.schedule := rfl
@[simp] theorem setOut_moves (s : State) (w : Word) : (s.setOut w).moves = s.moves := rfl
@[simp] theorem setOut_draws (s : State) (w : Word) : (s.setOut w).draws = s.draws := rfl

/-! ### Events, bring-up, delivery and return -/

@[simp] theorem addEvent_params (e : Event) (s : State) : (addEvent e s).params = s.params := rfl
@[simp] theorem addEvent_launch (e : Event) (s : State) : (addEvent e s).launch = s.launch := rfl
@[simp] theorem addEvent_cfg (e : Event) (s : State) : (addEvent e s).cfg = s.cfg := rfl
@[simp] theorem addEvent_irq (e : Event) (s : State) : (addEvent e s).irq = s.irq := rfl
@[simp] theorem addEvent_out (e : Event) (s : State) : (addEvent e s).out = s.out := rfl
@[simp] theorem addEvent_level (e : Event) (s : State) : (addEvent e s).level = s.level := rfl
@[simp] theorem addEvent_ctl (e : Event) (s : State) : (addEvent e s).ctl = s.ctl := rfl
@[simp] theorem addEvent_lock (e : Event) (s : State) : (addEvent e s).lock = s.lock := rfl
@[simp] theorem addEvent_handleBusy (e : Event) (s : State) : (addEvent e s).handleBusy = s.handleBusy := rfl
@[simp] theorem addEvent_callers (e : Event) (s : State) : (addEvent e s).callers = s.callers := rfl
@[simp] theorem addEvent_dispatch (e : Event) (s : State) : (addEvent e s).dispatch = s.dispatch := rfl
@[simp] theorem addEvent_platform (e : Event) (s : State) : (addEvent e s).platform = s.platform := rfl
@[simp] theorem addEvent_cur (e : Event) (s : State) : (addEvent e s).cur = s.cur := rfl
@[simp] theorem addEvent_schedule (e : Event) (s : State) : (addEvent e s).schedule = s.schedule := rfl
@[simp] theorem addEvent_moves (e : Event) (s : State) : (addEvent e s).moves = s.moves := rfl
@[simp] theorem addEvent_draws (e : Event) (s : State) : (addEvent e s).draws = s.draws := rfl

@[simp] theorem addEvent_events (e : Event) (s : State) : (addEvent e s).events = s.events ++ [e] := rfl

@[simp] theorem publish_params (k : Nat) (s : State) : (publish k s).params = s.params := rfl
@[simp] theorem publish_launch (k : Nat) (s : State) : (publish k s).launch = s.launch := rfl
@[simp] theorem publish_cfg (k : Nat) (s : State) : (publish k s).cfg = s.cfg := rfl
@[simp] theorem publish_irq (k : Nat) (s : State) : (publish k s).irq = s.irq := rfl
@[simp] theorem publish_out (k : Nat) (s : State) : (publish k s).out = s.out := rfl
@[simp] theorem publish_level (k : Nat) (s : State) : (publish k s).level = s.level := rfl
@[simp] theorem publish_events (k : Nat) (s : State) : (publish k s).events = s.events := rfl
@[simp] theorem publish_callers (k : Nat) (s : State) : (publish k s).callers = s.callers := rfl
@[simp] theorem publish_dispatch (k : Nat) (s : State) : (publish k s).dispatch = s.dispatch := rfl
@[simp] theorem publish_platform (k : Nat) (s : State) : (publish k s).platform = s.platform := rfl
@[simp] theorem publish_cur (k : Nat) (s : State) : (publish k s).cur = s.cur := rfl
@[simp] theorem publish_schedule (k : Nat) (s : State) : (publish k s).schedule = s.schedule := rfl
@[simp] theorem publish_moves (k : Nat) (s : State) : (publish k s).moves = s.moves := rfl
@[simp] theorem publish_draws (k : Nat) (s : State) : (publish k s).draws = s.draws := rfl

@[simp] theorem returnHandle_params (s : State) : (returnHandle s).params = s.params := rfl
@[simp] theorem returnHandle_launch (s : State) : (returnHandle s).launch = s.launch := rfl
@[simp] theorem returnHandle_cfg (s : State) : (returnHandle s).cfg = s.cfg := rfl
@[simp] theorem returnHandle_irq (s : State) : (returnHandle s).irq = s.irq := rfl
@[simp] theorem returnHandle_out (s : State) : (returnHandle s).out = s.out := rfl
@[simp] theorem returnHandle_level (s : State) : (returnHandle s).level = s.level := rfl
@[simp] theorem returnHandle_ctl (s : State) : (returnHandle s).ctl = s.ctl := rfl
@[simp] theorem returnHandle_lock (s : State) : (returnHandle s).lock = s.lock := rfl
@[simp] theorem returnHandle_events (s : State) : (returnHandle s).events = s.events := rfl
@[simp] theorem returnHandle_callers (s : State) : (returnHandle s).callers = s.callers := rfl
@[simp] theorem returnHandle_cur (s : State) : (returnHandle s).cur = s.cur := rfl
@[simp] theorem returnHandle_schedule (s : State) : (returnHandle s).schedule = s.schedule := rfl
@[simp] theorem returnHandle_moves (s : State) : (returnHandle s).moves = s.moves := rfl
@[simp] theorem returnHandle_draws (s : State) : (returnHandle s).draws = s.draws := rfl

@[simp] theorem deliver_params (c : Bool) (s : State) : (deliver c s).params = s.params := by unfold deliver; split <;> rfl
@[simp] theorem deliver_launch (c : Bool) (s : State) : (deliver c s).launch = s.launch := by unfold deliver; split <;> rfl
@[simp] theorem deliver_cfg (c : Bool) (s : State) : (deliver c s).cfg = s.cfg := by unfold deliver; split <;> rfl
@[simp] theorem deliver_irq (c : Bool) (s : State) : (deliver c s).irq = s.irq := by unfold deliver; split <;> rfl
@[simp] theorem deliver_out (c : Bool) (s : State) : (deliver c s).out = s.out := by unfold deliver; split <;> rfl
@[simp] theorem deliver_level (c : Bool) (s : State) : (deliver c s).level = s.level := by unfold deliver; split <;> rfl
@[simp] theorem deliver_ctl (c : Bool) (s : State) : (deliver c s).ctl = s.ctl := by unfold deliver; split <;> rfl
@[simp] theorem deliver_lock (c : Bool) (s : State) : (deliver c s).lock = s.lock := by unfold deliver; split <;> rfl
@[simp] theorem deliver_events (c : Bool) (s : State) : (deliver c s).events = s.events := by unfold deliver; split <;> rfl
@[simp] theorem deliver_callers (c : Bool) (s : State) : (deliver c s).callers = s.callers := by unfold deliver; split <;> rfl
@[simp] theorem deliver_platform (c : Bool) (s : State) : (deliver c s).platform = s.platform := by unfold deliver; split <;> rfl
@[simp] theorem deliver_cur (c : Bool) (s : State) : (deliver c s).cur = s.cur := by unfold deliver; split <;> rfl
@[simp] theorem deliver_schedule (c : Bool) (s : State) : (deliver c s).schedule = s.schedule := by unfold deliver; split <;> rfl
@[simp] theorem deliver_moves (c : Bool) (s : State) : (deliver c s).moves = s.moves := by unfold deliver; split <;> rfl
@[simp] theorem deliver_draws (c : Bool) (s : State) : (deliver c s).draws = s.draws := by unfold deliver; split <;> rfl

/-! ### The hardware agent -/

@[simp] theorem hwLatch_params (m : Word) (s : State) : (hwLatch m s).params = s.params := by unfold hwLatch; split <;> rfl
@[simp] theorem hwLatch_launch (m : Word) (s : State) : (hwLatch m s).launch = s.launch := by unfold hwLatch; split <;> rfl
@[simp] theorem hwLatch_cfg (m : Word) (s : State) : (hwLatch m s).cfg = s.cfg := by unfold hwLatch; split <;> rfl
@[simp] theorem hwLatch_out (m : Word) (s : State) : (hwLatch m s).out = s.out := by unfold hwLatch; split <;> rfl
@[simp] theorem hwLatch_level (m : Word) (s : State) : (hwLatch m s).level = s.level := by unfold hwLatch; split <;> rfl
@[simp] theorem hwLatch_ctl (m : Word) (s : State) : (hwLatch m s).ctl = s.ctl := by unfold hwLatch; split <;> rfl
@[simp] theorem hwLatch_lock (m : Word) (s : State) : (hwLatch m s).lock = s.lock := by unfold hwLatch; split <;> rfl
@[simp] theorem hwLatch_handleBusy (m : Word) (s : State) : (hwLatch m s).handleBusy = s.handleBusy := by unfold hwLatch; split <;> rfl
@[simp] theorem hwLatch_events (m : Word) (s : State) : (hwLatch m s).events = s.events := by unfold hwLatch; split <;> rfl
@[simp] theorem hwLatch_callers (m : Word) (s : State) : (hwLatch m s).callers = s.callers := by unfold hwLatch; split <;> rfl
@[simp] theorem hwLatch_dispatch (m : Word) (s : State) : (hwLatch m s).dispatch = s.dispatch := by unfold hwLatch; split <;> rfl
@[simp] theorem hwLatch_platform (m : Word) (s : State) : (hwLatch m s).platform = s.platform := by unfold hwLatch; split <;> rfl
@[simp] theorem hwLatch_cur (m : Word) (s : State) : (hwLatch m s).cur = s.cur := by unfold hwLatch; split <;> rfl
@[simp] theorem hwLatch_schedule (m : Word) (s : State) : (hwLatch m s).schedule = s.schedule := by unfold hwLatch; split <;> rfl
@[simp] theorem hwLatch_moves (m : Word) (s : State) : (hwLatch m s).moves = s.moves := by unfold hwLatch; split <;> rfl
@[simp] theorem hwLatch_draws (m : Word) (s : State) : (hwLatch m s).draws = s.draws := by unfold hwLatch; split <;> rfl

@[simp] theorem hwLatchLevel_params (i : Nat) (s : State) : (hwLatchLevel i s).params = s.params := by unfold hwLatchLevel; split <;> rfl
@[simp] theorem hwLatchLevel_launch (i : Nat) (s : State) : (hwLatchLevel i s).launch = s.launch := by unfold hwLatchLevel; split <;> rfl
@[simp] theorem hwLatchLevel_cfg (i : Nat) (s : State) : (hwLatchLevel i s).cfg = s.cfg := by unfold hwLatchLevel; split <;> rfl
@[simp] theorem hwLatchLevel_out (i : Nat) (s : State) : (hwLatchLevel i s).out = s.out := by unfold hwLatchLevel; split <;> rfl
@[simp] theorem hwLatchLevel_level (i : Nat) (s : State) : (hwLatchLevel i s).level = s.level := by unfold hwLatchLevel; split <;> rfl
@[simp] theorem hwLatchLevel_ctl (i : Nat) (s : State) : (hwLatchLevel i s).ctl = s.ctl := by unfold hwLatchLevel; split <;> rfl
@[simp] theorem hwLatchLevel_lock (i : Nat) (s : State) : (hwLatchLevel i s).lock = s.lock := by unfold hwLatchLevel; split <;> rfl
@[simp] theorem hwLatchLevel_handleBusy (i : Nat) (s : State) : (hwLatchLevel i s).handleBusy = s.handleBusy := by unfold hwLatchLevel; split <;> rfl
@[simp] theorem hwLatchLevel_events (i : Nat) (s : State) : (hwLatchLevel i s).events = s.events := by unfold hwLatchLevel; split <;> rfl
@[simp] theorem hwLatchLevel_callers (i : Nat) (s : State) : (hwLatchLevel i s).callers = s.callers := by unfold hwLatchLevel; split <;> rfl
@[simp] theorem hwLatchLevel_dispatch (i : Nat) (s : State) : (hwLatchLevel i s).dispatch = s.dispatch := by unfold hwLatchLevel; split <;> rfl
@[simp] theorem hwLatchLevel_platform (i : Nat) (s : State) : (hwLatchLevel i s).platform = s.platform := by unfold hwLatchLevel; split <;> rfl
@[simp] theorem hwLatchLevel_cur (i : Nat) (s : State) : (hwLatchLevel i s).cur = s.cur := by unfold hwLatchLevel; split <;> rfl
@[simp] theorem hwLatchLevel_schedule (i : Nat) (s : State) : (hwLatchLevel i s).schedule = s.schedule := by unfold hwLatchLevel; split <;> rfl
@[simp] theorem hwLatchLevel_moves (i : Nat) (s : State) : (hwLatchLevel i s).moves = s.moves := by unfold hwLatchLevel; split <;> rfl
@[simp] theorem hwLatchLevel_draws (i : Nat) (s : State) : (hwLatchLevel i s).draws = s.draws := by unfold hwLatchLevel; split <;> rfl

@[simp] theorem hwSetLevel_params (i : Nat) (v : Bool) (s : State) : (hwSetLevel i v s).params = s.params := by unfold hwSetLevel; split <;> rfl
@[simp] theorem hwSetLevel_launch (i : Nat) (v : Bool) (s : State) : (hwSetLevel i v s).launch = s.launch := by unfold hwSetLevel; split <;> rfl
@[simp] theorem hwSetLevel_cfg (i : Nat) (v : Bool) (s : State) : (hwSetLevel i v s).cfg = s.cfg := by unfold hwSetLevel; split <;> rfl
@[simp] theorem hwSetLevel_out (i : Nat) (v : Bool) (s : State) : (hwSetLevel i v s).out = s.out := by unfold hwSetLevel; split <;> rfl
@[simp] theorem hwSetLevel_ctl (i : Nat) (v : Bool) (s : State) : (hwSetLevel i v s).ctl = s.ctl := by unfold hwSetLevel; split <;> rfl
@[simp] theorem hwSetLevel_lock (i : Nat) (v : Bool) (s : State) : (hwSetLevel i v s).lock = s.lock := by unfold hwSetLevel; split <;> rfl
@[simp] theorem hwSetLevel_handleBusy (i : Nat) (v : Bool) (s : State) : (hwSetLevel i v s).handleBusy = s.handleBusy := by unfold hwSetLevel; split <;> rfl
@[simp] theorem hwSetLevel_events (i : Nat) (v : Bool) (s : State) : (hwSetLevel i v s).events = s.events := by unfold hwSetLevel; split <;> rfl
@[simp] theorem hwSetLevel_callers (i : Nat) (v : Bool) (s : State) : (hwSetLevel i v s).callers = s.callers := by unfold hwSetLevel; split <;> rfl
@[simp] theorem hwSetLevel_dispatch (i : Nat) (v : Bool) (s : State) : (hwSetLevel i v s).dispatch = s.dispatch := by unfold hwSetLevel; split <;> rfl
@[simp] theorem hwSetLevel_platform (i : Nat) (v : Bool) (s : State) : (hwSetLevel i v s).platform = s.platform := by unfold hwSetLevel; split <;> rfl
@[simp] theorem hwSetLevel_cur (i : Nat) (v : Bool) (s : State) : (hwSetLevel i v s).cur = s.cur := by unfold hwSetLevel; split <;> rfl
@[simp] theorem hwSetLevel_schedule (i : Nat) (v : Bool) (s : State) : (hwSetLevel i v s).schedule = s.schedule := by unfold hwSetLevel; split <;> rfl
@[simp] theorem hwSetLevel_moves (i : Nat) (v : Bool) (s : State) : (hwSetLevel i v s).moves = s.moves := by unfold hwSetLevel; split <;> rfl

/-! ### The scheduler -/

@[simp] theorem takeMove_params (s : State) : (takeMove s).2.params = s.params := by unfold takeMove; split <;> rfl
@[simp] theorem takeMove_launch (s : State) : (takeMove s).2.launch = s.launch := by unfold takeMove; split <;> rfl
@[simp] theorem takeMove_cfg (s : State) : (takeMove s).2.cfg = s.cfg := by unfold takeMove; split <;> rfl
@[simp] theorem takeMove_irq (s : State) : (takeMove s).2.irq = s.irq := by unfold takeMove; split <;> rfl
@[simp] theorem takeMove_out (s : State) : (takeMove s).2.out = s.out := by unfold takeMove; split <;> rfl
@[simp] theorem takeMove_level (s : State) : (takeMove s).2.level = s.level := by unfold takeMove; split <;> rfl
@[simp] theorem takeMove_ctl (s : State) : (takeMove s).2.ctl = s.ctl := by unfold takeMove; split <;> rfl
@[simp] theorem takeMove_lock (s : State) : (takeMove s).2.lock = s.lock := by unfold takeMove; split <;> rfl
@[simp] theorem takeMove_handleBusy (s : State) : (takeMove s).2.handleBusy = s.handleBusy := by unfold takeMove; split <;> rfl
@[simp] theorem takeMove_events (s : State) : (takeMove s).2.events = s.events := by unfold takeMove; split <;> rfl
@[simp] theorem takeMove_callers (s : State) : (takeMove s).2.callers = s.callers := by unfold takeMove; split <;> rfl
@[simp] theorem takeMove_dispatch (s : State) : (takeMove s).2.dispatch = s.dispatch := by unfold takeMove; split <;> rfl
@[simp] theorem takeMove_platform (s : State) : (takeMove s).2.platform = s.platform := by unfold takeMove; split <;> rfl
@[simp] theorem takeMove_cur (s : State) : (takeMove s).2.cur = s.cur := by unfold takeMove; split <;> rfl
@[simp] theorem takeMove_draws (s : State) : (takeMove s).2.draws = s.draws := by unfold takeMove; split <;> rfl

/-! ### Reading an agent back -/

/-- The acting agent exists: a caller that is there, or one of the two other agents. -/
theorem agent_setAgent_self {s : State} {a : AgentId} (g : Agent)
    (h : ∀ k, a = .caller k → k < s.callers.length) : (s.setAgent a g).agent a = g := by
  cases a with
  | caller k => simp [State.setAgent, State.agent, h k rfl]
  | dispatch => rfl
  | platform => rfl

/-- Replacing one agent leaves every other one. -/
theorem agent_setAgent_ne {s : State} {a b : AgentId} (g : Agent) (h : b ≠ a) :
    (s.setAgent a g).agent b = s.agent b := by
  cases a <;> cases b <;> simp_all [State.setAgent, State.agent, List.getD, eq_comm]

@[simp] theorem callers_length_setAgent (s : State) (a : AgentId) (g : Agent) :
    (s.setAgent a g).callers.length = s.callers.length := by
  cases a <;> simp [State.setAgent]

end Sys2Proof.Machine
end

