-- ==== Sys2Proof/Laws/Agents.lean ====
section
/-!
SUPPORT. The agents through the shared operations: what the acting agent holds after each, and that every other agent is as
it was.
-/

namespace Sys2Proof.Machine

/-! ### Updates that touch no agent -/

@[simp] theorem agent_setLock (s : State) (l : Option AgentId) (a : AgentId) : (s.setLock l).agent a = s.agent a := rfl
@[simp] theorem agent_setIrq (s : State) (w : Word) (a : AgentId) : (s.setIrq w).agent a = s.agent a := rfl
@[simp] theorem agent_setOut (s : State) (w : Word) (a : AgentId) : (s.setOut w).agent a = s.agent a := rfl
@[simp] theorem agent_addEvent (e : Event) (s : State) (a : AgentId) : (addEvent e s).agent a = s.agent a := rfl
@[simp] theorem agent_drew (s : State) (a : AgentId) : s.drew.agent a = s.agent a := rfl
@[simp] theorem agent_setCfg (s : State) (i : Nat) (c : PinConfig) (a : AgentId) :
    (s.setCfg i c).agent a = s.agent a := rfl
@[simp] theorem agent_publish (k : Nat) (s : State) (a : AgentId) : (publish k s).agent a = s.agent a := rfl
@[simp] theorem agent_driveLevels (l : Nat → Bool) (s : State) (a : AgentId) :
    (driveLevels l s).agent a = s.agent a := by unfold driveLevels; split <;> rfl
@[simp] theorem agent_hwLatch (m : Word) (s : State) (a : AgentId) : (hwLatch m s).agent a = s.agent a := by
  unfold hwLatch; split <;> rfl
@[simp] theorem agent_hwLatchLevel (i : Nat) (s : State) (a : AgentId) :
    (hwLatchLevel i s).agent a = s.agent a := by unfold hwLatchLevel; split <;> rfl
@[simp] theorem agent_hwSetLevel (i : Nat) (v : Bool) (s : State) (a : AgentId) :
    (hwSetLevel i v s).agent a = s.agent a := by unfold hwSetLevel; split <;> rfl
@[simp] theorem agent_takeMove (s : State) (a : AgentId) : (takeMove s).2.agent a = s.agent a := by
  unfold takeMove; split <;> rfl

/-- The acting agent is read off `cur` and the agents alone. -/
theorem me_congr {s t : State} (hc : t.cur = s.cur) (ha : ∀ a, t.agent a = s.agent a) : t.me = s.me := by
  simp [State.me, hc, ha]

@[simp] theorem me_setLock (s : State) (l : Option AgentId) : (s.setLock l).me = s.me := rfl
@[simp] theorem me_setIrq (s : State) (w : Word) : (s.setIrq w).me = s.me := rfl
@[simp] theorem me_setOut (s : State) (w : Word) : (s.setOut w).me = s.me := rfl
@[simp] theorem me_addEvent (e : Event) (s : State) : (addEvent e s).me = s.me := rfl
@[simp] theorem me_drew (s : State) : s.drew.me = s.me := rfl
@[simp] theorem me_setCfg (s : State) (i : Nat) (c : PinConfig) : (s.setCfg i c).me = s.me := rfl
@[simp] theorem me_publish (k : Nat) (s : State) : (publish k s).me = s.me := rfl
@[simp] theorem me_driveLevels (l : Nat → Bool) (s : State) : (driveLevels l s).me = s.me :=
  me_congr (by simp) (by simp)

/-! ### Is the acting agent there -/

theorem hasCur_iff (s : State) : s.hasCur = true ↔ ∀ k, s.cur = .caller k → k < s.callers.length := by
  unfold State.hasCur; cases h : s.cur <;> simp

/-- `hasCur` is read off `cur` and how many callers there are. -/
theorem hasCur_congr {s t : State} (hc : t.cur = s.cur) (hl : t.callers.length = s.callers.length) :
    t.hasCur = s.hasCur := by
  unfold State.hasCur; rw [hc, hl]

@[simp] theorem hasCur_setMe (s : State) (g : Agent) : (s.setMe g).hasCur = s.hasCur :=
  hasCur_congr (by simp) (by simp [State.setMe])
@[simp] theorem hasCur_setLock (s : State) (l : Option AgentId) : (s.setLock l).hasCur = s.hasCur := rfl
@[simp] theorem hasCur_setIrq (s : State) (w : Word) : (s.setIrq w).hasCur = s.hasCur := rfl
@[simp] theorem hasCur_setOut (s : State) (w : Word) : (s.setOut w).hasCur = s.hasCur := rfl
@[simp] theorem hasCur_addEvent (e : Event) (s : State) : (addEvent e s).hasCur = s.hasCur := rfl
@[simp] theorem hasCur_drew (s : State) : s.drew.hasCur = s.hasCur := rfl
@[simp] theorem hasCur_setCfg (s : State) (i : Nat) (c : PinConfig) : (s.setCfg i c).hasCur = s.hasCur := rfl
@[simp] theorem hasCur_publish (k : Nat) (s : State) : (publish k s).hasCur = s.hasCur := rfl
@[simp] theorem hasCur_driveLevels (l : Nat → Bool) (s : State) : (driveLevels l s).hasCur = s.hasCur :=
  hasCur_congr (by simp) (by simp)
@[simp] theorem hasCur_enter (i : Instr) (s : State) : (enter i s).hasCur = s.hasCur := by
  unfold enter; split <;> simp
@[simp] theorem hasCur_advance (w : Word) (s : State) : (advance w s).hasCur = s.hasCur := by simp [advance]
@[simp] theorem hasCur_finish (r : Result) (s : State) : (finish r s).hasCur = s.hasCur := by simp [finish]

/-! ### What the acting agent holds -/

theorem me_setMe {s : State} (g : Agent) (h : s.hasCur = true) : (s.setMe g).me = g := by
  rw [hasCur_iff] at h
  simp [State.me, State.setMe, agent_setAgent_self g h]

/-- `enter` begins an operation that has not begun. -/
theorem me_enter_fresh {s : State} (i : Instr) (h : s.hasCur = true) (hf : s.me.op = none) :
    (enter i s).me = { s.me with op := some ⟨i, 0, 0#32⟩ } := by
  simp only [enter, hf]; rw [me_setMe _ h]

/-- `enter` goes on with the operation in flight. -/
theorem enter_inFlight {s : State} {o : InFlight} (i : Instr) (h : s.me.op = some o) : enter i s = s := by
  simp [enter, h]

theorem me_advance {s : State} (w : Word) (h : s.hasCur = true) :
    (advance w s).me = { s.me with op := s.me.op.map fun o => { o with mpc := o.mpc + 1, tmp := w } } :=
  me_setMe _ h

theorem me_finish {s : State} (r : Result) (h : s.hasCur = true) :
    (finish r s).me = { s.me with op := none, results := s.me.results ++ [r] } := me_setMe _ h

theorem mpc_of_op {s : State} {o : InFlight} (h : s.me.op = some o) : s.mpc = o.mpc := by simp [State.mpc, h]
theorem tmp_of_op {s : State} {o : InFlight} (h : s.me.op = some o) : s.tmp = o.tmp := by simp [State.tmp, h]
theorem mpc_of_fresh {s : State} (h : s.me.op = none) : s.mpc = 0 := by simp [State.mpc, h]

/-! ### Every other agent -/

theorem agent_setMe_ne {s : State} {a : AgentId} (g : Agent) (h : a ≠ s.cur) : (s.setMe g).agent a = s.agent a :=
  agent_setAgent_ne g h

theorem agent_enter_ne {s : State} {a : AgentId} (i : Instr) (h : a ≠ s.cur) : (enter i s).agent a = s.agent a := by
  unfold enter; split
  · rfl
  · exact agent_setMe_ne _ h

theorem agent_advance_ne {s : State} {a : AgentId} (w : Word) (h : a ≠ s.cur) :
    (advance w s).agent a = s.agent a := agent_setMe_ne _ h

theorem agent_finish_ne {s : State} {a : AgentId} (r : Result) (h : a ≠ s.cur) :
    (finish r s).agent a = s.agent a := agent_setMe_ne _ h

/-- The return from HANDLE touches the dispatch and the platform agents alone. -/
theorem agent_returnHandle {s : State} {a : AgentId} (h1 : a ≠ .dispatch) (h2 : a ≠ .platform) :
    (returnHandle s).agent a = s.agent a := by
  cases a <;> simp_all [returnHandle, State.agent]

/-- A delivery touches the dispatch agent alone. -/
theorem agent_deliver_ne {s : State} {a : AgentId} (c : Bool) (h : a ≠ .dispatch) :
    (deliver c s).agent a = s.agent a := by
  unfold deliver; split <;> cases a <;> simp_all [State.agent]

/-! ### Reset -/

/-- Every agent is idle at reset, however many callers there are (10_state.md R42). -/
@[simp] theorem agent_reset (a : AgentId) : State.reset.agent a = Agent.idle := by
  cases a with
  | caller k =>
    change (List.replicate Config.callerCount Agent.idle).getD k Agent.idle = Agent.idle
    rw [List.getD_eq_getElem?_getD, List.getElem?_replicate]
    split <;> rfl
  | dispatch => rfl
  | platform => rfl

end Sys2Proof.Machine
end

