-- ==== Sys2Proof/Laws/Operands.lean ====
section
/-!
SUPPORT. The words of the codec bit by bit (41_pin_config_codec.md), and what a write stores of a word made from a read.
-/

namespace Sys2Proof.Machine

/-! ### The places and the codes -/

@[simp] theorem bitEO_eq : bitEO = 0 := rfl
@[simp] theorem bitEI_eq : bitEI = 1 := rfl
@[simp] theorem bitOE_eq : bitOE = 2 := rfl
@[simp] theorem bitEINT_eq : bitEINT = 3 := rfl
@[simp] theorem ttShift_eq : ttShift = 5 := rfl
@[simp] theorem codeLevelHigh_eq : codeLevelHigh = 0#3 := rfl
@[simp] theorem codeLevelLow_eq : codeLevelLow = 1#3 := rfl
@[simp] theorem codeEdgeRising_eq : codeEdgeRising = 2#3 := rfl
@[simp] theorem codeEdgeFalling_eq : codeEdgeFalling = 3#3 := rfl
@[simp] theorem codeEdgeBoth_eq : codeEdgeBoth = 4#3 := rfl
@[simp] theorem codeFallback_eq : codeFallback = 1#3 := rfl

/-- The masks as 10_state.md R23 writes them. -/
@[simp] theorem maskEO_eq : maskEO = 0x01#32 := by decide
@[simp] theorem maskEI_eq : maskEI = 0x02#32 := by decide
@[simp] theorem maskOE_eq : maskOE = 0x04#32 := by decide
@[simp] theorem maskEINT_eq : maskEINT = 0x08#32 := by decide
@[simp] theorem maskTT_eq : maskTT = 0xE0#32 := by decide

/-! ### Bits -/

theorem getLsbD_wordOfBits (f : Nat → Bool) (b : Nat) :
    (wordOfBits f).getLsbD b = (decide (b < 32) && f b) := by
  unfold wordOfBits
  rw [BitVec.getLsbD_ofFnLE]
  split <;> simp_all

@[simp] theorem getElem_wordOfBits (f : Nat → Bool) (b : Nat) (h : b < 32) : (wordOfBits f)[b] = f b := by
  rw [← BitVec.getLsbD_eq_getElem, getLsbD_wordOfBits]; simp [h]

theorem getLsbD_lineBit (i b : Nat) : (lineBit i).getLsbD b = (decide (b < 32) && decide (b = i)) := by
  unfold lineBit
  by_cases hb : b < 32 <;> by_cases hi : b = i <;> simp [hb, hi]; omega

@[simp] theorem getElem_lineBit (i b : Nat) (h : b < 32) : (lineBit i)[b] = decide (b = i) := by
  rw [← BitVec.getLsbD_eq_getElem, getLsbD_lineBit]; simp [h]

theorem getLsbD_setBit (w : Word) (i : Nat) (v : Bool) (b : Nat) :
    (setBit w i v).getLsbD b = (decide (b < 32) && (if b = i then v else w.getLsbD b)) := by
  unfold setBit
  by_cases hb : b < 32 <;> by_cases hi : b = i <;> cases v <;> simp_all

@[simp] theorem getElem_setBit (w : Word) (i : Nat) (v : Bool) (b : Nat) (h : b < 32) :
    (setBit w i v)[b] = if b = i then v else w[b] := by
  rw [← BitVec.getLsbD_eq_getElem, getLsbD_setBit]; simp [h]

theorem getLsbD_validMask (n b : Nat) : (validMask n).getLsbD b = (decide (b < 32) && decide (b < n)) := by
  unfold validMask
  rw [BitVec.getLsbD_ofNat, Nat.testBit_two_pow_sub_one]

@[simp] theorem getElem_validMask (n b : Nat) (h : b < 32) : (validMask n)[b] = decide (b < n) := by
  rw [← BitVec.getLsbD_eq_getElem, getLsbD_validMask]; simp [h]

theorem getLsbD_mergeBelow (n : Nat) (x y : Word) (b : Nat) :
    (mergeBelow n x y).getLsbD b = (decide (b < 32) && (if b < n then x.getLsbD b else y.getLsbD b)) := by
  rw [mergeBelow, getLsbD_wordOfBits]

@[simp] theorem getElem_mergeBelow (n : Nat) (x y : Word) (b : Nat) (h : b < 32) :
    (mergeBelow n x y)[b] = if b < n then x[b] else y[b] := by
  rw [← BitVec.getLsbD_eq_getElem, getLsbD_mergeBelow]; simp [h]

theorem getLsbD_clearBits (w d : Word) (b : Nat) : (clearBits w d).getLsbD b = (w.getLsbD b && !d.getLsbD b) := by
  by_cases hb : b < 32 <;> simp_all [clearBits]

@[simp] theorem getElem_clearBits (w d : Word) (b : Nat) (h : b < 32) : (clearBits w d)[b] = (w[b] && !d[b]) := by
  simp [clearBits]

/-- Two words with the same 32 bits are one word. -/
theorem word_ext {x y : Word} (h : ∀ b, b < 32 → x.getLsbD b = y.getLsbD b) : x = y :=
  BitVec.eq_of_getLsbD_eq fun b hb => h b hb

/-! ### The fields of a word -/

/-- Bit by bit: a word's fields are its defined bits. -/
theorem ofWord_eq_iff (d : Word) (c : PinConfig) :
    PinConfig.ofWord d = c ↔ d.getLsbD 0 = c.eo ∧ d.getLsbD 1 = c.ei ∧ d.getLsbD 2 = c.oe ∧ d.getLsbD 3 = c.eint ∧
      d.getLsbD 5 = c.tt.getLsbD 0 ∧ d.getLsbD 6 = c.tt.getLsbD 1 ∧ d.getLsbD 7 = c.tt.getLsbD 2 := by
  constructor
  · rintro rfl; simp [PinConfig.ofWord]
  · rcases c with ⟨eo, ei, oe, eint, tt⟩
    rintro ⟨h0, h1, h2, h3, h5, h6, h7⟩
    simp only [PinConfig.ofWord, PinConfig.mk.injEq]
    refine ⟨h0, h1, h2, h3, ?_⟩
    apply BitVec.eq_of_getLsbD_eq
    intro b hb
    obtain rfl | rfl | rfl : b = 0 ∨ b = 1 ∨ b = 2 := by omega
    all_goals simp_all

@[simp] theorem getElem_toWord (c : PinConfig) (r : Word) (b : Nat) (h : b < 32) : (c.toWord r)[b] = c.bit r b :=
  getElem_wordOfBits _ _ h

theorem getLsbD_toWord (c : PinConfig) (r : Word) (b : Nat) :
    (c.toWord r).getLsbD b = (decide (b < 32) && c.bit r b) := getLsbD_wordOfBits _ _

/-- A write stores of a word that a read yields the fields that stood there (10_state.md R24). -/
@[simp] theorem ofWord_toWord (c : PinConfig) (r : Word) : PinConfig.ofWord (c.toWord r) = c := by
  rw [ofWord_eq_iff]; simp [PinConfig.bit]

/-- The fields of `cfgInput(c)` (R153). -/
theorem ofWord_cfgInput (d : Word) :
    PinConfig.ofWord (cfgInput d) = { PinConfig.ofWord d with eo := false, ei := true, oe := false } := by
  rw [ofWord_eq_iff]; simp [cfgInput, PinConfig.ofWord]

/-- The fields of `cfgOutput()` (R154). -/
theorem ofWord_cfgOutput : PinConfig.ofWord cfgOutput = ⟨true, false, true, false, 0#3⟩ := by decide

/-- The fields of `cfgIntEnable(c)` (R158). -/
theorem ofWord_cfgIntEnable (d : Word) :
    PinConfig.ofWord (cfgIntEnable d) = { PinConfig.ofWord d with eint := true } := by
  rw [ofWord_eq_iff]; simp [cfgIntEnable, PinConfig.ofWord]

/-- The fields of `cfgIntDisable(c)` (R158). -/
theorem ofWord_cfgIntDisable (d : Word) :
    PinConfig.ofWord (cfgIntDisable d) = { PinConfig.ofWord d with eint := false } := by
  rw [ofWord_eq_iff]; simp [cfgIntDisable, PinConfig.ofWord]

/-- The fields of `cfgTrigger(c, code)` (R156). -/
theorem ofWord_cfgTrigger (m : TriggerMerge) (d : Word) (code : BitVec 3) :
    PinConfig.ofWord (cfgTrigger m d code) =
      { PinConfig.ofWord d with tt := mergedType m (PinConfig.ofWord d).tt code } := by
  rw [ofWord_eq_iff]
  cases m <;> simp [cfgTrigger, mergedType, ttBits, PinConfig.ofWord]

/-- `decodeDirection` looks at the stored EI alone: both of its other branches give Output (R155). -/
theorem decodeDirection_eq (d : Word) :
    decodeDirection d = if (PinConfig.ofWord d).ei then .input else .output := by
  simp [decodeDirection, PinConfig.ofWord]

/-! ### The lines a scan services -/

theorem mem_pendingLines {n : Nat} {w : Word} {i : Nat} : i ∈ pendingLines n w ↔ i < n ∧ w.getLsbD i = true := by
  simp [pendingLines]

/-- The snapshot's mask does not change which lines are set below `n` (44_dispatch.md R240). -/
theorem pendingLines_congr {n : Nat} {x y : Word} (h : ∀ b, b < n → x.getLsbD b = y.getLsbD b) :
    pendingLines n x = pendingLines n y := by
  unfold pendingLines
  apply List.filter_congr
  intro b hb
  rw [h b (List.mem_range.mp hb)]

end Sys2Proof.Machine
end

