-- ==== Sys2Proof/Laws/Bus.lean ====
section
/-!
SUPPORT. The bus, the lock and the return operations: for each, one lemma that says when it answers a next state and one that
says everything it can do.
-/

namespace Sys2Proof.Machine

/-! ### The register map -/

/-- The registers of the window: the CFG words are those of lines 0 to 31. -/
def regExists : Reg → Prop
  | .cfg i => i < 32
  | _ => True

/-- Under a legal map each register is found at its offset (20_memory.md R61, 00_scope.md R12). -/
theorem regAt_offOf {p : Params} (hp : p.WF) {r : Reg} (hr : regExists r) : p.regAt (p.offOf r) = .ok r := by
  obtain ⟨h0, h1, h2, h3, h4, h5, h6, h7, h8, h9, h10, h11, h12, h13⟩ := hp
  cases r with
  | cfg i =>
    have hi : i < 32 := hr
    have h : p.regAt (p.cfgBase + 4 * i) = .ok (.cfg i) := by
      unfold Params.regAt
      rw [if_neg (by omega), if_neg (by omega), if_pos (by omega)]
      congr 2; omega
    exact h
  | irq =>
    change p.regAt p.irqOff = .ok .irq
    unfold Params.regAt
    rw [if_neg (by omega), if_neg (by omega), if_neg (by omega), if_pos rfl]
  | inp =>
    change p.regAt p.inOff = .ok .inp
    unfold Params.regAt
    rw [if_neg (by omega), if_neg (by omega), if_neg (by omega), if_neg (by omega), if_pos rfl]
  | out =>
    change p.regAt p.outOff = .ok .out
    unfold Params.regAt
    rw [if_neg (by omega), if_neg (by omega), if_neg (by omega), if_neg (by omega), if_neg (by omega), if_pos rfl]

theorem resolve_offOf {p : Params} (hp : p.WF) {r : Reg} (hr : regExists r) : resolve p (p.offOf r) 4 = .ok r := by
  simp [resolve, regAt_offOf hp hr]

/-! ### Reads and writes -/

/-- A read of a register that exists yields its view. -/
theorem memRead_reg {s : State} (hp : s.params.WF) {r : Reg} (hr : regExists r) (k : Word → State → State) :
    memRead (s.params.offOf r) 4 s k = .next (k (s.view s.draw r) s.drew) := by
  simp [memRead, resolve_offOf hp hr]

/-- A write of a register that exists and is not IN stores the word. -/
theorem memWrite_reg {s : State} (hp : s.params.WF) {r : Reg} (hr : regExists r) {d : Word} {t : State}
    (ht : s.put d r = .ok t) (k : State → State) : memWrite (s.params.offOf r) 4 d s k = .next (k t) := by
  simp [memWrite, resolve_offOf hp hr, ht]

/-- Everything a read can do: it answers the view of some register, or it has no step. -/
theorem memRead_cases (off width : Nat) (s : State) (k : Word → State → State) :
    (∃ r, resolve s.params off width = .ok r ∧ memRead off width s k = .next (k (s.view s.draw r) s.drew)) ∨
    ∃ e, memRead off width s k = .refused e := by
  unfold memRead
  cases h : resolve s.params off width with
  | ok r => exact .inl ⟨r, rfl, rfl⟩
  | error e => exact .inr ⟨e, rfl⟩

/-- What a write of `d` can leave: a new CFG word, IRQ with the bits of `d` cleared, or new OUT bits below `n`. -/
theorem put_cases {s t : State} {d : Word} {r : Reg} (h : s.put d r = .ok t) :
    (∃ i, r = .cfg i ∧ t = driveLevels (fun b => b == i) (s.setCfg i (PinConfig.ofWord d))) ∨
    (r = .irq ∧ t = s.setIrq (clearBits s.irq d)) ∨
    (r = .out ∧ t = driveLevels (fun b => decide (b < s.lineCount)) (s.setOut (mergeBelow s.lineCount d s.out))) := by
  cases r with
  | cfg i => exact .inl ⟨i, rfl, by simpa [State.put] using h.symm⟩
  | irq => exact .inr (.inl ⟨rfl, by simpa [State.put] using h.symm⟩)
  | inp => simp [State.put] at h
  | out => exact .inr (.inr ⟨rfl, by simpa [State.put] using h.symm⟩)

/-- Everything a write can do: it stores into some register, or it has no step. -/
theorem memWrite_cases (off width : Nat) (d : Word) (s : State) (k : State → State) :
    (∃ r t, resolve s.params off width = .ok r ∧ s.put d r = .ok t ∧ memWrite off width d s k = .next (k t)) ∨
    ∃ e, memWrite off width d s k = .refused e := by
  unfold memWrite
  cases h : resolve s.params off width with
  | error e => exact .inr ⟨e, rfl⟩
  | ok r =>
    dsimp only
    cases h2 : s.put d r with
    | error e => exact .inr ⟨e, rfl⟩
    | ok t => exact .inl ⟨r, t, rfl, h2, rfl⟩

/-- A write leaves everything but CFG, IRQ, OUT, the levels and the draws. -/
theorem put_keeps {s t : State} {d : Word} {r : Reg} (h : s.put d r = .ok t) :
    t.params = s.params ∧ t.launch = s.launch ∧ t.ctl = s.ctl ∧ t.lock = s.lock ∧ t.handleBusy = s.handleBusy ∧
    t.events = s.events ∧ t.cur = s.cur ∧ t.schedule = s.schedule ∧ t.moves = s.moves ∧
    t.callers = s.callers ∧ t.dispatch = s.dispatch ∧ t.platform = s.platform := by
  obtain ⟨i, -, rfl⟩ | ⟨-, rfl⟩ | ⟨-, rfl⟩ := put_cases h <;> simp

/-! ### The levels of driving lines -/

/-- Without Refined loopback the levels are no state of their own and nothing follows OUT. -/
theorem driveLevels_off {s : State} (l : Nat → Bool) (h : ¬ s.levelsDriven) : driveLevels l s = s := by
  unfold driveLevels; rw [if_neg h]

/-- The level of a driving line of `l` becomes OUT's bit; every other level stays. -/
theorem driveLevels_levels {s : State} (l : Nat → Bool) (h : s.levelsDriven) (b : Nat) (hb : b < 32) :
    (driveLevels l s).level.getLsbD b =
      if l b && (s.cfgAt b).driving then s.out.getLsbD b else s.level.getLsbD b := by
  unfold driveLevels; rw [if_pos h]; simp [hb]

/-- A sticky bit is never cleared by it, and is set only by an edge of a driving line of `l`. -/
theorem driveLevels_irq {s : State} (l : Nat → Bool) (h : s.levelsDriven) (b : Nat) (hb : b < 32) :
    (driveLevels l s).irq.getLsbD b = (s.irq.getLsbD b || ((l b && (s.cfgAt b).driving) &&
      edgeLatches (s.cfgAt b) (s.level.getLsbD b) (s.out.getLsbD b) (s.draw.getLsbD b))) := by
  unfold driveLevels; rw [if_pos h]; simp [hb]

/-- No change of level, no edge (40_register_window.md R132). -/
theorem edgeLatches_same (c : PinConfig) (x may : Bool) : edgeLatches c x x may = false := by
  unfold edgeLatches edgeCondition
  split <;> cases x <;> simp

/-! ### CFG words -/

theorem cfgAt_setCfg {s : State} {i : Nat} (c : PinConfig) (h : i < 32) : (s.setCfg i c).cfgAt i = c := by
  simp [State.cfgAt, State.setCfg, h]

theorem cfgAt_setCfg_ne {s : State} {i j : Nat} (c : PinConfig) (h : j ≠ i) : (s.setCfg i c).cfgAt j = s.cfgAt j := by
  unfold State.cfgAt State.setCfg
  by_cases hj : j < 32
  · simp [hj, Ne.symm h]
  · simp [hj]

theorem cfgAt_congr {s t : State} (h : t.cfg = s.cfg) (i : Nat) : t.cfgAt i = s.cfgAt i := by
  simp [State.cfgAt, h]

theorem lineCount_congr {s t : State} (h : t.ctl = s.ctl) : t.lineCount = s.lineCount := by
  simp [State.lineCount, h]

/-! ### What is read off single fields -/

@[simp] theorem cfgAt_setMe (s : State) (g : Agent) (j : Nat) : (s.setMe g).cfgAt j = s.cfgAt j := cfgAt_congr (by simp) j
@[simp] theorem cfgAt_enter (i : Instr) (s : State) (j : Nat) : (enter i s).cfgAt j = s.cfgAt j := cfgAt_congr (by simp) j
@[simp] theorem cfgAt_advance (w : Word) (s : State) (j : Nat) : (advance w s).cfgAt j = s.cfgAt j := cfgAt_congr (by simp) j
@[simp] theorem cfgAt_finish (r : Result) (s : State) (j : Nat) : (finish r s).cfgAt j = s.cfgAt j := cfgAt_congr (by simp) j
@[simp] theorem cfgAt_drew (s : State) (j : Nat) : (s.drew).cfgAt j = s.cfgAt j := cfgAt_congr (by simp) j
@[simp] theorem cfgAt_setLock (s : State) (l : Option AgentId) (j : Nat) : (s.setLock l).cfgAt j = s.cfgAt j := cfgAt_congr (by simp) j
@[simp] theorem cfgAt_setIrq (s : State) (w : Word) (j : Nat) : (s.setIrq w).cfgAt j = s.cfgAt j := cfgAt_congr (by simp) j
@[simp] theorem cfgAt_setOut (s : State) (w : Word) (j : Nat) : (s.setOut w).cfgAt j = s.cfgAt j := cfgAt_congr (by simp) j
@[simp] theorem cfgAt_addEvent (e : Event) (s : State) (j : Nat) : (addEvent e s).cfgAt j = s.cfgAt j := cfgAt_congr (by simp) j
@[simp] theorem cfgAt_driveLevels (l : Nat → Bool) (s : State) (j : Nat) : (driveLevels l s).cfgAt j = s.cfgAt j := cfgAt_congr (by simp) j
@[simp] theorem cfgAt_returnHandle (s : State) (j : Nat) : (returnHandle s).cfgAt j = s.cfgAt j := cfgAt_congr (by simp) j
@[simp] theorem cfgAt_publish (k : Nat) (s : State) (j : Nat) : (publish k s).cfgAt j = s.cfgAt j := cfgAt_congr (by simp) j

@[simp] theorem lineCount_setMe (s : State) (g : Agent) : (s.setMe g).lineCount = s.lineCount := lineCount_congr (by simp)
@[simp] theorem lineCount_enter (i : Instr) (s : State) : (enter i s).lineCount = s.lineCount := lineCount_congr (by simp)
@[simp] theorem lineCount_advance (w : Word) (s : State) : (advance w s).lineCount = s.lineCount := lineCount_congr (by simp)
@[simp] theorem lineCount_finish (r : Result) (s : State) : (finish r s).lineCount = s.lineCount := lineCount_congr (by simp)
@[simp] theorem lineCount_drew (s : State) : (s.drew).lineCount = s.lineCount := lineCount_congr (by simp)
@[simp] theorem lineCount_setLock (s : State) (l : Option AgentId) : (s.setLock l).lineCount = s.lineCount := lineCount_congr (by simp)
@[simp] theorem lineCount_setIrq (s : State) (w : Word) : (s.setIrq w).lineCount = s.lineCount := lineCount_congr (by simp)
@[simp] theorem lineCount_setOut (s : State) (w : Word) : (s.setOut w).lineCount = s.lineCount := lineCount_congr (by simp)
@[simp] theorem lineCount_addEvent (e : Event) (s : State) : (addEvent e s).lineCount = s.lineCount := lineCount_congr (by simp)
@[simp] theorem lineCount_driveLevels (l : Nat → Bool) (s : State) : (driveLevels l s).lineCount = s.lineCount := lineCount_congr (by simp)
@[simp] theorem lineCount_returnHandle (s : State) : (returnHandle s).lineCount = s.lineCount := lineCount_congr (by simp)
@[simp] theorem lineCount_setCfg (s : State) (i : Nat) (d : PinConfig) : (s.setCfg i d).lineCount = s.lineCount := lineCount_congr (by simp)

theorem lineCount_ready {s : State} {c : Controller} (h : s.ctl = some c) : s.lineCount = c.n := by
  simp [State.lineCount, h]

/-! ### The lock -/

theorem acquire_free {s : State} (h : s.lock = none) :
    acquire s = .next (advance s.tmp (s.setLock (some s.cur))) := by simp [acquire, h]

/-- A busy lock holds the agent, its holder too (20_memory.md R70, R72). -/
theorem acquire_busy {s : State} (h : s.lock ≠ none) : acquire s = .next s := by
  unfold acquire; cases hl : s.lock with
  | none => exact absurd hl h
  | some a => rfl

theorem release_held {s : State} (k : State → State) (h : s.lock = some s.cur) :
    release s k = .next (k (s.setLock none)) := by simp [release, h]

/-- Everything `acquire` can do. -/
theorem acquire_cases (s : State) :
    (s.lock = none ∧ acquire s = .next (advance s.tmp (s.setLock (some s.cur)))) ∨
    (s.lock ≠ none ∧ acquire s = .next s) := by
  by_cases h : s.lock = none
  · exact .inl ⟨h, acquire_free h⟩
  · exact .inr ⟨h, acquire_busy h⟩

/-- Everything `release` can do. -/
theorem release_cases (s : State) (k : State → State) :
    (s.lock = some s.cur ∧ release s k = .next (k (s.setLock none))) ∨
    (s.lock ≠ some s.cur ∧ release s k = .next s) := by
  by_cases h : s.lock = some s.cur
  · exact .inl ⟨h, release_held k h⟩
  · exact .inr ⟨h, by simp [release, h]⟩

/-! ### Guards -/

/-- A per-line operation on a Ready controller with a valid index goes on to its micro-step. -/
theorem lineOp_valid {i : Instr} {index : Nat} {bad : Result} {s : State} {k : State → Out} {c : Controller}
    (hc : contextOf s.cur = .call) (hr : s.ctl = some c) (hi : index < c.n) :
    lineOp i index bad s k = k (enter i s) := by simp [lineOp, inContext, whenReady, hc, hr, hi]

/-- A per-line operation with an invalid index returns at once (60_exceptions.md R291). -/
theorem lineOp_invalid {i : Instr} {index : Nat} {bad : Result} {s : State} {k : State → Out} {c : Controller}
    (hc : contextOf s.cur = .call) (hr : s.ctl = some c) (hi : c.n ≤ index) :
    lineOp i index bad s k = .next (finish bad (enter i s)) := by
  simp [lineOp, inContext, whenReady, hc, hr, Nat.not_lt.mpr hi]

/-- Everything a per-line operation's guard can do. -/
theorem lineOp_cases (i : Instr) (index : Nat) (bad : Result) (s : State) (k : State → Out) :
    (∃ c, contextOf s.cur = .call ∧ s.ctl = some c ∧ index < c.n ∧ lineOp i index bad s k = k (enter i s)) ∨
    (∃ c, contextOf s.cur = .call ∧ s.ctl = some c ∧ c.n ≤ index ∧
      lineOp i index bad s k = .next (finish bad (enter i s))) ∨
    ∃ e, lineOp i index bad s k = .refused e := by
  by_cases hc : contextOf s.cur = .call
  · cases hr : s.ctl with
    | none => exact .inr (.inr ⟨.absent, by simp [lineOp, inContext, whenReady, hc, hr]⟩)
    | some c =>
      by_cases hi : index < c.n
      · exact .inl ⟨c, hc, rfl, hi, lineOp_valid hc hr hi⟩
      · exact .inr (.inl ⟨c, hc, rfl, Nat.not_lt.mp hi, lineOp_invalid hc hr (Nat.not_lt.mp hi)⟩)
  · exact .inr (.inr ⟨.wrongContext, by simp [lineOp, inContext, hc]⟩)

end Sys2Proof.Machine
end

