-- ==== Sys2Proof/Laws/Runs.lean ====
section
/-!
SUPPORT. What one micro-step of an operation in flight does, in the form a run is put together from: where the operation
stands after it, what it did to the registers and the lock, and that it was quiet about everything else.
-/

namespace Sys2Proof.Machine

/-! ### Quiet changes -/

/-- Only the registers, the levels, the draws, the lock and the acting agent may differ. -/
structure Quiet (s t : State) : Prop where
  params : t.params = s.params
  launch : t.launch = s.launch
  ctl : t.ctl = s.ctl
  busy : t.handleBusy = s.handleBusy
  events : t.events = s.events
  cur : t.cur = s.cur
  schedule : t.schedule = s.schedule
  moves : t.moves = s.moves
  hasCur : t.hasCur = s.hasCur
  others : ∀ a, a ≠ s.cur → t.agent a = s.agent a

theorem Quiet.rfl (s : State) : Quiet s s :=
  ⟨.refl _, .refl _, .refl _, .refl _, .refl _, .refl _, .refl _, .refl _, .refl _, fun _ _ => .refl _⟩

theorem Quiet.trans {s t u : State} (h : Quiet s t) (k : Quiet t u) : Quiet s u :=
  ⟨k.params.trans h.params, k.launch.trans h.launch, k.ctl.trans h.ctl, k.busy.trans h.busy, k.events.trans h.events,
    k.cur.trans h.cur, k.schedule.trans h.schedule, k.moves.trans h.moves, k.hasCur.trans h.hasCur,
    fun a ha => (k.others a (h.cur ▸ ha)).trans (h.others a ha)⟩

/-- A quiet change with the lock where it was keeps the instance (the frame of the statements). -/
theorem Quiet.keeps {s t : State} (h : Quiet s t) (hl : t.lock = s.lock) : KeepsInstance s t :=
  ⟨h.params, h.launch, h.ctl, hl, h.busy, h.events, h.cur, h.schedule, h.moves, h.others⟩

theorem Quiet.lineCount {s t : State} (h : Quiet s t) : t.lineCount = s.lineCount := lineCount_congr h.ctl

theorem quiet_setMe (s : State) (g : Agent) : Quiet s (s.setMe g) := by
  constructor <;> simp
  exact fun a ha => agent_setMe_ne g ha

theorem quiet_enter (i : Instr) (s : State) : Quiet s (enter i s) := by
  unfold enter; split
  · exact .rfl s
  · exact quiet_setMe _ _

theorem quiet_advance (w : Word) (s : State) : Quiet s (advance w s) := quiet_setMe _ _
theorem quiet_finish (r : Result) (s : State) : Quiet s (finish r s) := quiet_setMe _ _
theorem quiet_setLock (s : State) (l : Option AgentId) : Quiet s (s.setLock l) := by constructor <;> simp
theorem quiet_drew (s : State) : Quiet s s.drew := by constructor <;> simp

theorem quiet_put {s t : State} {d : Word} {r : Reg} (h : s.put d r = .ok t) : Quiet s t := by
  obtain ⟨h1, h2, h3, -, h5, h6, h7, h8, h9, h10, h11, h12⟩ := put_keeps h
  refine ⟨h1, h2, h3, h5, h6, h7, h8, h9, hasCur_congr h7 (by rw [h10]), fun a _ => ?_⟩
  cases a <;> simp [State.agent, h10, h11, h12]

/-- What a read of a register yields is read off the registers, the levels, the count and the parameters. -/
theorem view_congr {s t : State} (hq : Quiet s t) (hk : KeepsRegisters s t) (r : Word) (x : Reg) :
    t.view r x = s.view r x := by
  obtain ⟨h1, h2, h3, h4⟩ := hk
  have hc : ∀ j, t.cfgAt j = s.cfgAt j := cfgAt_congr h1
  cases x <;> simp only [State.view, hc, h2, h3, h4, hq.lineCount, hq.params]

theorem KeepsRegisters.trans {s t u : State} (h : KeepsRegisters s t) (k : KeepsRegisters t u) : KeepsRegisters s u :=
  ⟨k.1.trans h.1, k.2.1.trans h.2.1, k.2.2.1.trans h.2.2.1, k.2.2.2.trans h.2.2.2⟩

/-! ### Micro-steps of an operation in flight -/

section
variable {s : State} {op : Instr} {k : Nat} {w : Word}

/-- Where an operation stands after `advance`. -/
theorem advance_inFlight (hc : s.hasCur = true) (ho : s.me.op = some ⟨op, k, w⟩) (v : Word) :
    (advance v s).me = { s.me with op := some ⟨op, k + 1, v⟩ } := by
  rw [me_advance _ hc]; simp [ho]

/-- A begun operation stands at micro-step 0. -/
theorem begun (op : Instr) (hc : s.hasCur = true) (hf : s.me.op = none) :
    (enter op s).me = { s.me with op := some ⟨op, 0, 0#32⟩ } ∧ Quiet s (enter op s) ∧
      KeepsRegisters s (enter op s) ∧ (enter op s).lock = s.lock ∧ (enter op s).draws = s.draws :=
  ⟨me_enter_fresh _ hc hf, quiet_enter _ _, by simp [KeepsRegisters], by simp, by simp⟩

theorem acquire_takes (hc : s.hasCur = true) (ho : s.me.op = some ⟨op, k, w⟩) (hl : s.lock = none) :
    ∃ t, acquire s = .next t ∧ Quiet s t ∧ t.me = { s.me with op := some ⟨op, k + 1, w⟩ } ∧
      t.lock = some s.cur ∧ KeepsRegisters s t ∧ t.draws = s.draws := by
  refine ⟨_, acquire_free hl, (quiet_setLock _ _).trans (quiet_advance _ _), ?_, by simp, by simp [KeepsRegisters],
    by simp⟩
  rw [tmp_of_op ho, advance_inFlight (by simpa using hc) (by simpa using ho)]; simp

theorem readStep_reads {r : Reg} (hp : s.params.WF) (hr : regExists r) (hc : s.hasCur = true)
    (ho : s.me.op = some ⟨op, k, w⟩) :
    ∃ t, readStep (s.params.offOf r) s = .next t ∧ Quiet s t ∧
      t.me = { s.me with op := some ⟨op, k + 1, s.view s.draw r⟩ } ∧
      t.lock = s.lock ∧ KeepsRegisters s t ∧ t.draws = s.draws + 1 := by
  refine ⟨_, memRead_reg hp hr _, (quiet_drew _).trans (quiet_advance _ _), ?_, by simp, by simp [KeepsRegisters],
    by simp⟩
  rw [advance_inFlight (by simpa using hc) (by simpa using ho)]; simp

theorem writeStep_writes {r : Reg} {d : Word} {u : State} (hp : s.params.WF) (hr : regExists r)
    (hu : s.put d r = .ok u) (hc : s.hasCur = true) (ho : s.me.op = some ⟨op, k, w⟩) :
    ∃ t, writeStep (s.params.offOf r) d s = .next t ∧ Quiet s t ∧ t.me = { s.me with op := some ⟨op, k + 1, w⟩ } ∧
      t.lock = s.lock ∧ KeepsRegisters u t ∧ t.draws = u.draws := by
  have hq := quiet_put hu
  have hm : u.me = s.me := by
    obtain ⟨-, -, -, -, -, -, h7, -, -, h10, h11, h12⟩ := put_keeps hu
    refine me_congr h7 fun a => ?_
    cases a <;> simp [State.agent, h10, h11, h12]
  refine ⟨_, memWrite_reg hp hr hu _, hq.trans (quiet_advance _ _), ?_, ?_, by simp [KeepsRegisters], by simp⟩
  · rw [tmp_of_op ho, advance_inFlight (by rw [hq.hasCur]; exact hc) (by rw [hm]; exact ho), hm]
  · rw [advance_lock]; exact (put_keeps hu).2.2.2.1

theorem releaseStep_frees (hc : s.hasCur = true) (ho : s.me.op = some ⟨op, k, w⟩) (hl : s.lock = some s.cur) :
    ∃ t, releaseStep s = .next t ∧ Quiet s t ∧ t.me = { s.me with op := some ⟨op, k + 1, w⟩ } ∧
      t.lock = none ∧ KeepsRegisters s t ∧ t.draws = s.draws := by
  refine ⟨_, release_held _ hl, (quiet_setLock _ _).trans (quiet_advance _ _), ?_, by simp, by simp [KeepsRegisters],
    by simp⟩
  have ht : (s.setLock none).tmp = w := tmp_of_op (o := ⟨op, k, w⟩) (by simpa using ho)
  rw [ht, advance_inFlight (by simpa using hc) (by simpa using ho)]; simp

theorem releaseOk_returns (hc : s.hasCur = true) (hl : s.lock = some s.cur) :
    ∃ t, releaseOk s = .next t ∧ Quiet s t ∧ Returned .ok s t ∧ t.lock = none ∧ KeepsRegisters s t ∧
      t.draws = s.draws := by
  refine ⟨_, release_held _ hl, (quiet_setLock _ _).trans (quiet_finish _ _), ?_, by simp, by simp [KeepsRegisters],
    by simp⟩
  unfold Returned; rw [me_finish _ (by simpa using hc)]; simp

end

/-! ### Runs -/

/-- Micro-steps in a row, one after the other. -/
theorem execTimes_succ {i : Instr} {s t : State} (h : exec i s = .next t) (k : Nat) :
    execTimes i (k + 1) s = execTimes i k t := by simp [execTimes, h]

theorem execTimes_add {i : Instr} {s t : State} {a : Nat} (h : execTimes i a s = .next t) (b : Nat) :
    execTimes i (a + b) s = execTimes i b t := by
  induction a generalizing s with
  | zero => simp only [execTimes, Host.Outcome.next.injEq] at h; rw [h, Nat.zero_add]
  | succ a ih =>
    rw [Nat.succ_add]
    simp only [execTimes] at h ⊢
    cases he : exec i s with
    | next u => rw [he] at h; exact ih h
    | fault r => rw [he] at h; exact absurd h (by simp)
    | refused r => rw [he] at h; exact absurd h (by simp)

/-- A locked read-modify-write runs in four micro-steps (00_scope.md R18): it writes `f` of what the register reads as,
and returns `Ok` with the lock Free. -/
theorem lockedRmw_runs {s : State} {op : Instr} {r : Reg} {f : Word → Word} (hp : s.params.WF) (hr : regExists r)
    (hne : r ≠ .inp) (hc : s.hasCur = true) (hf : s.me.op = none) (hl : s.lock = none)
    (he : ∀ t, Quiet s t → exec op t = lockedRmw (t.params.offOf r) f (enter op t)) :
    ∃ m u t, Quiet s m ∧ KeepsRegisters s m ∧ m.draws = s.draws + 1 ∧ m.put (f (s.view s.draw r)) r = .ok u ∧
      execTimes op 4 s = .next t ∧ Quiet s t ∧ Returned .ok s t ∧ t.lock = none ∧ KeepsRegisters u t ∧
      t.draws = u.draws := by
  obtain ⟨mb, qb, kb, lb, db⟩ := begun op hc hf
  have cb : (enter op s).hasCur = true := by rw [qb.hasCur]; exact hc
  have ob : (enter op s).me.op = some ⟨op, 0, 0#32⟩ := by rw [mb]
  obtain ⟨s1, e1, q1, m1, l1, k1, d1⟩ := acquire_takes cb ob (lb.trans hl)
  have Q1 := qb.trans q1
  have o1 : s1.me.op = some ⟨op, 1, 0#32⟩ := by rw [m1]
  obtain ⟨s2, e2, q2, m2, l2, k2, d2⟩ := readStep_reads (by rw [Q1.params]; exact hp) hr (by rw [Q1.hasCur]; exact hc) o1
  have Q2 := Q1.trans q2
  have K1 := kb.trans k1
  have K2 := K1.trans k2
  have hv : s1.view s1.draw r = s.view s.draw r := by
    rw [view_congr Q1 K1]; unfold State.draw; rw [d1, db]
  have o2 : s2.me.op = some ⟨op, 2, s.view s.draw r⟩ := by rw [m2, hv]
  obtain ⟨u, hu⟩ : ∃ u, s2.put (f (s.view s.draw r)) r = .ok u := by
    cases r with
    | inp => exact absurd rfl hne
    | cfg i => exact ⟨_, rfl⟩
    | irq => exact ⟨_, rfl⟩
    | out => exact ⟨_, rfl⟩
  obtain ⟨s3, e3, q3, m3, l3, k3, d3⟩ :=
    writeStep_writes (by rw [Q2.params]; exact hp) hr hu (by rw [Q2.hasCur]; exact hc) o2
  have Q3 := Q2.trans q3
  have o3 : s3.me.op = some ⟨op, 3, s.view s.draw r⟩ := by rw [m3]
  have hl3 : s3.lock = some s3.cur := by rw [l3, l2, l1, Q3.cur, qb.cur]
  obtain ⟨t, e4, q4, R4, l4, k4, d4⟩ := releaseOk_returns (by rw [Q3.hasCur]; exact hc) hl3
  refine ⟨s2, u, t, Q2, K2, by rw [d2, d1, db], hu, ?_, Q3.trans q4, ?_, l4, k3.trans k4, d4.trans d3⟩
  · rw [execTimes_succ (t := s1) (by rw [he s (.rfl s)]; simp only [lockedRmw, mpc_of_op ob]; exact e1),
      execTimes_succ (t := s2) (by
        rw [he s1 Q1, enter_inFlight _ o1]; simp only [lockedRmw, mpc_of_op o1]; exact e2),
      execTimes_succ (t := s3) (by
        rw [he s2 Q2, enter_inFlight _ o2]; simp only [lockedRmw, mpc_of_op o2, tmp_of_op o2]; exact e3),
      execTimes_succ (t := t) (by
        rw [he s3 Q3, enter_inFlight _ o3]; simp only [lockedRmw, mpc_of_op o3]; exact e4)]
    rfl
  · unfold Returned at R4 ⊢
    rw [R4, m3, m2, m1, mb]

/-! ### Levels through a CFG write -/

/-- A CFG write of a line that does not drive leaves the levels and IRQ. -/
theorem driveLevels_one_still {s : State} {i : Nat}
    (h : (s.cfgAt i).driving = true → s.levelsDriven → s.level.getLsbD i = s.out.getLsbD i) :
    (driveLevels (fun b => b == i) s).level = s.level ∧ (driveLevels (fun b => b == i) s).irq = s.irq := by
  by_cases hl : s.levelsDriven
  · constructor <;> apply word_ext <;> intro b hb
    · rw [driveLevels_levels _ hl b hb]
      by_cases hbi : b = i
      · subst hbi
        by_cases hd : (s.cfgAt b).driving = true
        · simp [hd, h hd hl]
        · simp [hd]
      · simp [hbi]
    · rw [driveLevels_irq _ hl b hb]
      by_cases hbi : b = i
      · subst hbi
        by_cases hd : (s.cfgAt b).driving = true
        · rw [h hd hl, edgeLatches_same]; simp
        · simp [hd]
      · simp [hbi]
  · rw [driveLevels_off _ hl]; simp

end Sys2Proof.Machine
end

