-- ==== Sys2Proof/Laws/Step.lean ====
section
/-!
SUPPORT. What a micro-step and a step can do, said once: `exec_effect` for every instruction, `step_cases` for every move.
Frames and invariants are read off these, not off the definitions of the meanings.
-/

namespace Sys2Proof.Machine

/-- Everything a micro-step of an operation can leave, from the state `e` in which the operation has begun. -/
inductive Effect (e : State) : State → Prop where
  /-- The agent is held at an Acquire (20_memory.md R70). -/
  | held : Effect e e
  | take : e.lock = none → Effect e (advance e.tmp (e.setLock (some e.cur)))
  | read (w : Word) : Effect e (advance w e.drew)
  | write (r : Reg) (d : Word) (u : State) : e.put d r = .ok u → Effect e (advance e.tmp u)
  | free : e.lock = some e.cur → Effect e (advance e.tmp (e.setLock none))
  | freeReturn : e.lock = some e.cur → Effect e (finish .ok (e.setLock none))
  | answer (r : Result) : Effect e (finish r e)
  | readAnswer (r : Result) : Effect e (finish r e.drew)
  | writeAnswer (r : Reg) (d : Word) (u : State) : e.put d r = .ok u → Effect e (finish .ok u)
  | event (x : Event) : Effect e (advance e.tmp (addEvent x e))
  | handleEnd : e.cur = .dispatch → e.lock = some e.cur → Effect e (returnHandle (e.setLock none))
  | chainedEnd : e.cur = .dispatch → Effect e (returnHandle (addEvent .chainedExit e))
  | publish (n : Nat) : e.ctl = none → n ≤ 32 → Effect e (finish .ok (Machine.publish n e))

/-! ### The shared operations -/

theorem acquire_effect {e t : State} (h : acquire e = .next t) : Effect e t := by
  obtain ⟨hl, he⟩ | ⟨hl, he⟩ := acquire_cases e <;> rw [he] at h <;> cases h
  · exact .take hl
  · exact .held

theorem readStep_effect {e t : State} {off : Nat} (h : readStep off e = .next t) : Effect e t := by
  unfold readStep at h
  obtain ⟨r, -, he⟩ | ⟨x, he⟩ := memRead_cases off 4 e (fun w t => advance w t) <;> rw [he] at h <;> cases h
  exact .read _

theorem writeStep_effect {e t : State} {off : Nat} {d : Word} (h : writeStep off d e = .next t) : Effect e t := by
  unfold writeStep at h
  obtain ⟨r, u, -, hu, he⟩ | ⟨x, he⟩ := memWrite_cases off 4 d e (fun t => advance e.tmp t) <;>
    rw [he] at h <;> cases h
  exact .write r d u hu

theorem releaseStep_effect {e t : State} (h : releaseStep e = .next t) : Effect e t := by
  unfold releaseStep at h
  obtain ⟨hl, he⟩ | ⟨hl, he⟩ := release_cases e (fun t => advance t.tmp t) <;> rw [he] at h <;> cases h
  · exact .free hl
  · exact .held

theorem releaseOk_effect {e t : State} (h : releaseOk e = .next t) : Effect e t := by
  unfold releaseOk at h
  obtain ⟨hl, he⟩ | ⟨hl, he⟩ := release_cases e (finish .ok) <;> rw [he] at h <;> cases h
  · exact .freeReturn hl
  · exact .held

theorem lockedRmw_effect {e t : State} {off : Nat} {f : Word → Word} (h : lockedRmw off f e = .next t) :
    Effect e t := by
  unfold lockedRmw at h
  split at h
  · exact acquire_effect h
  · exact readStep_effect h
  · exact writeStep_effect h
  · exact releaseOk_effect h

theorem rawRead_effect {e t : State} {off : Nat} (h : rawRead off e = .next t) : Effect e t := by
  unfold rawRead at h
  obtain ⟨r, -, he⟩ | ⟨x, he⟩ := memRead_cases off 4 e (fun w t => finish (.okWord w) t) <;> rw [he] at h <;> cases h
  exact .readAnswer _

theorem rawWrite_effect {e t : State} {off : Nat} {d : Word} (h : rawWrite off d e = .next t) : Effect e t := by
  unfold rawWrite at h
  obtain ⟨r, u, -, hu, he⟩ | ⟨x, he⟩ := memWrite_cases off 4 d e (finish .ok) <;> rw [he] at h <;> cases h
  exact .writeAnswer r d u hu

/-- A per-line operation's micro-step is one of its body's, or the answer to an invalid index. -/
theorem lineOp_effect {i : Instr} {index : Nat} {bad : Result} {s t : State} {k : State → Out}
    (hk : ∀ e, k e = .next t → Effect e t) (h : lineOp i index bad s k = .next t) : Effect (enter i s) t := by
  obtain ⟨c, -, -, -, he⟩ | ⟨c, -, -, -, he⟩ | ⟨x, he⟩ := lineOp_cases i index bad s k <;> rw [he] at h
  · exact hk _ h
  · cases h; exact .answer _
  · cases h

/-- What a raw access asks first, when it goes on. -/
theorem rawAccess_next {i : Instr} {s t : State} {k : Controller → State → Out} (h : rawAccess i s k = .next t) :
    ∃ c, s.ctl = some c ∧ contextOf s.cur = .call ∧ s.params.rawBus = true ∧ k c (enter i s) = .next t := by
  unfold rawAccess inContext whenReady at h
  split at h
  · split at h
    · split at h
      · cases h
      · exact ⟨_, by assumption, by assumption, by assumption, h⟩
    · cases h
  · cases h

theorem belowCount_next {c : Controller} {i : Nat} {o : Out} {t : State} (h : belowCount c i o = .next t) :
    i < c.n ∧ o = .next t := by
  unfold belowCount at h
  split at h
  · exact ⟨by assumption, h⟩
  · cases h

/-- What HANDLE asks first, when it goes on. -/
theorem dispatchOp_next {i : Instr} {s t : State} {k : Controller → State → Out} (h : dispatchOp i s k = .next t) :
    ∃ c, s.ctl = some c ∧ s.cur = .dispatch ∧ s.handleBusy = true ∧ k c (enter i s) = .next t := by
  unfold dispatchOp inContext whenReady at h
  split at h
  · rename_i hc
    split at h
    · cases h
    · split at h
      · refine ⟨_, by assumption, ?_, by assumption, h⟩
        revert hc; cases s.cur <;> simp [contextOf]
      · cases h
  · cases h

theorem scanStep_effect {c : Controller} {m : Nat} {e t : State} {last : State → Out}
    (hl : last e = .next t → Effect e t) (h : scanStep c m e last = .next t) : Effect e t := by
  unfold scanStep at h
  split at h
  · exact acquire_effect h
  · obtain ⟨r, -, he⟩ | ⟨x, he⟩ := memRead_cases e.params.irqOff 4 e (fun w t => advance (w &&& validMask c.n) t) <;>
      rw [he] at h <;> cases h
    exact .read _
  · unfold serviceStep at h
    split at h
    · split at h
      · exact writeStep_effect h
      · unfold dispatchLine at h; cases h; exact .event _
    · exact hl h

theorem initStep_effect {n m : Nat} {e t : State} (hc : e.ctl = none) (hn : n ≤ 32) (h : initStep n m e = .next t) :
    Effect e t := by
  unfold initStep at h
  split at h
  · split at h
    · exact readStep_effect h
    · exact writeStep_effect h
  · cases h; exact .publish n hc hn

/-! ### Every instruction -/

/-- Everything `exec` can do when it answers a next state. -/
theorem exec_effect {i : Instr} {s t : State} (h : exec i s = .next t) : Effect (enter i s) t := by
  cases i with
  | init n =>
    simp only [exec, execInit, inContext] at h
    split at h
    · split at h
      · cases h
      · rename_i hc
        split at h
        · cases h; exact .answer _
        · split at h
          · cases h; exact .answer _
          · exact initStep_effect (by simpa using hc) (by simp_all [maxLines]) h
    · cases h
  | getdir i =>
    simp only [exec, execGetdir] at h
    refine lineOp_effect (fun e he => ?_) h
    obtain ⟨r, -, hr⟩ | ⟨x, hr⟩ := memRead_cases (e.params.cfgOff i) 4 e
      (fun w u => finish (.okDirection (decodeDirection w)) u) <;> rw [hr] at he <;> cases he
    exact .readAnswer _
  | dirin i =>
    simp only [exec, execDirin] at h
    exact lineOp_effect (fun e he => lockedRmw_effect he) h
  | dirout i v =>
    simp only [exec, execDirout] at h
    refine lineOp_effect (fun e he => ?_) h
    split at he
    · exact acquire_effect he
    · exact writeStep_effect he
    · exact readStep_effect he
    · exact writeStep_effect he
    · exact releaseOk_effect he
  | getval i =>
    simp only [exec, execGetval] at h
    refine lineOp_effect (fun e he => ?_) h
    obtain ⟨r, -, hr⟩ | ⟨x, hr⟩ := memRead_cases e.params.inOff 4 e
      (fun w u => finish (.okBit (w.getLsbD i)) u) <;> rw [hr] at he <;> cases he
    exact .readAnswer _
  | setval i v =>
    simp only [exec, execSetval] at h
    exact lineOp_effect (fun e he => lockedRmw_effect he) h
  | settype i r =>
    simp only [exec, execSettype] at h
    exact lineOp_effect (fun e he => lockedRmw_effect he) h
  | irqen i =>
    simp only [exec, execIrqen] at h
    refine lineOp_effect (fun e he => ?_) h
    split at he
    · exact acquire_effect he
    · exact readStep_effect he
    · exact writeStep_effect he
    · exact releaseStep_effect he
    · exact acquire_effect he
    · exact writeStep_effect he
    · exact releaseStep_effect he
    · exact acquire_effect he
    · exact readStep_effect he
    · exact writeStep_effect he
    · exact releaseOk_effect he
  | irqdis i =>
    simp only [exec, execIrqdis] at h
    exact lineOp_effect (fun e he => lockedRmw_effect he) h
  | irqmask i =>
    simp only [exec, execIrqmask] at h
    exact lineOp_effect (fun e he => by cases he; exact .answer _) h
  | irqunmask i =>
    simp only [exec, execIrqunmask] at h
    exact lineOp_effect (fun e he => by cases he; exact .answer _) h
  | handle =>
    simp only [exec, execHandle] at h
    obtain ⟨c, -, hd, -, hk⟩ := dispatchOp_next h
    refine scanStep_effect (fun hl => ?_) hk
    obtain ⟨h1, h2⟩ | ⟨-, h2⟩ := release_cases (enter .handle s) returnHandle <;> rw [h2] at hl <;> cases hl
    · exact .handleEnd (by simpa using hd) h1
    · exact .held
  | handlechained =>
    simp only [exec, execHandlechained] at h
    split at h
    · obtain ⟨c, -, hd, -, hk⟩ := dispatchOp_next h
      split at hk
      · cases hk; exact .event _
      · split at hk
        · exact scanStep_effect (fun hl => releaseStep_effect hl) hk
        · cases hk; exact .chainedEnd (by simpa using hd)
    · cases h
  | rdCfg i =>
    simp only [exec, execRdCfg] at h
    obtain ⟨c, -, -, -, hk⟩ := rawAccess_next h
    exact rawRead_effect (belowCount_next hk).2
  | wrCfg i d =>
    simp only [exec, execWrCfg] at h
    obtain ⟨c, -, -, -, hk⟩ := rawAccess_next h
    exact rawWrite_effect (belowCount_next hk).2
  | rdIrq =>
    simp only [exec, execRdIrq] at h
    obtain ⟨c, -, -, -, hk⟩ := rawAccess_next h; exact rawRead_effect hk
  | wrIrq d =>
    simp only [exec, execWrIrq] at h
    obtain ⟨c, -, -, -, hk⟩ := rawAccess_next h; exact rawWrite_effect hk
  | rdIn =>
    simp only [exec, execRdIn] at h
    obtain ⟨c, -, -, -, hk⟩ := rawAccess_next h; exact rawRead_effect hk
  | wrIn d => cases h
  | rdOut =>
    simp only [exec, execRdOut] at h
    obtain ⟨c, -, -, -, hk⟩ := rawAccess_next h; exact rawRead_effect hk
  | wrOut d =>
    simp only [exec, execWrOut] at h
    obtain ⟨c, -, -, -, hk⟩ := rawAccess_next h; exact rawWrite_effect hk

/-! ### Every move -/

/-- Everything a scheduled agent can do: nothing when it is idle, else a micro-step of an operation that is in flight or
that the first line of its admitted program spells. -/
theorem agentStep_cases {a : AgentId} {s t : State} (h : agentStep a s = .next t) :
    t = { s with cur := a } ∨
    (∃ o, (s.agent a).op = some o ∧ exec o.instr { s with cur := a } = .next t) ∨
    ∃ i l ls, (s.agent a).op = none ∧ (s.agent a).program = l :: ls ∧ decodeLine s.params l = .ok i ∧
      programRefusal s.params (contextOf a) (l :: ls) = none ∧
      exec i (({ s with cur := a } : State).setMe { s.agent a with program := ls }) = .next t := by
  have hm : ({ s with cur := a } : State).me = s.agent a := by cases a <;> rfl
  unfold agentStep fetch at h
  dsimp only at h
  rw [hm] at h
  cases ho : (s.agent a).op with
  | some o => rw [ho] at h; exact .inr (.inl ⟨o, rfl, h⟩)
  | none =>
    rw [ho] at h
    dsimp only at h
    cases hp : (s.agent a).program with
    | nil => rw [hp] at h; cases h; exact .inl rfl
    | cons l ls =>
      rw [hp] at h
      dsimp only at h
      cases hr : programRefusal s.params (contextOf a) (l :: ls) with
      | some x => rw [hr] at h; cases h
      | none =>
        rw [hr] at h
        dsimp only at h
        cases hd : decodeLine s.params l with
        | error x => rw [hd] at h; cases h
        | ok i =>
          rw [hd] at h
          refine .inr (.inr ⟨i, l, ls, rfl, rfl, hd, hr, ?_⟩)
          rw [← h, ← ho]

/-- Everything a step can do: the move is an agent's turn, a delivery, or a step of the hardware agent, taken in the
state without that move. -/
theorem step_cases {s t : State} (h : step s = .next t) :
    (∃ a, (takeMove s).1 = .agent a ∧ agentStep a (takeMove s).2 = .next t) ∨
    (∃ c, t = deliver c (takeMove s).2) ∨ (∃ m, t = hwLatch m (takeMove s).2) ∨
    (∃ i, t = hwLatchLevel i (takeMove s).2) ∨ ∃ i v, t = hwSetLevel i v (takeMove s).2 := by
  unfold step at h
  split at h
  · rename_i a u hm; rw [hm]; exact .inl ⟨a, rfl, h⟩
  · rename_i c u hm; cases h; rw [hm]; exact .inr (.inl ⟨c, rfl⟩)
  · rename_i m u hm; cases h; rw [hm]; exact .inr (.inr (.inl ⟨m, rfl⟩))
  · rename_i i u hm; cases h; rw [hm]; exact .inr (.inr (.inr (.inl ⟨i, rfl⟩)))
  · rename_i i v u hm; cases h; rw [hm]; exact .inr (.inr (.inr (.inr ⟨i, v, rfl⟩)))

end Sys2Proof.Machine
end

