-- ==== Sys2Proof/Laws/Admission.lean ====
section
/-!
SUPPORT. Which programs are refused as a whole (60_exceptions.md R293): one inadmissible line refuses the program, and the
reasons of a line.
-/

namespace Sys2Proof.Machine

/-- A line that spells no instruction is inadmissible (30_encoding.md R96, R97). -/
theorem lineRefusal_error {p : Params} {c : Context} {l : ProgLine} {e : DecodeError} (h : decodeLine p l = .error e) :
    lineRefusal p c l = some (.spellsNothing e) := by
  unfold lineRefusal; rw [h]

/-- A line that spells an instruction is as admissible as the instruction. -/
theorem lineRefusal_ok {p : Params} {c : Context} {l : ProgLine} {i : Instr} (h : decodeLine p l = .ok i) :
    lineRefusal p c l = inadmissible p c i := by
  unfold lineRefusal; rw [h]

/-- An instruction of another context is inadmissible (60_exceptions.md R305). -/
theorem inadmissible_context {p : Params} {c : Context} {i : Instr} (h : contextFor i ≠ c) :
    inadmissible p c i = some .wrongContext := by
  unfold inadmissible; rw [if_pos h]

/-- A raw access is inadmissible without `P_RAW_BUS` (40_register_window.md R129). -/
theorem inadmissible_raw {p : Params} {c : Context} {i : Instr} (h : contextFor i = c) (hr : isRaw i = true)
    (hp : p.rawBus = false) : inadmissible p c i = some .rawNotAdmitted := by
  unfold inadmissible; rw [if_neg (not_not_intro h), if_pos ⟨hr, hp⟩]

/-- One inadmissible line refuses its program. -/
theorem programRefusal_of_mem {p : Params} {c : Context} {l : ProgLine} {e : Refusal} (he : lineRefusal p c l = some e) :
    ∀ {ls : List ProgLine}, l ∈ ls → ∃ r, programRefusal p c ls = some r
  | [], h => by cases h
  | x :: xs, h => by
    unfold programRefusal
    cases hx : lineRefusal p c x with
    | some r => exact ⟨r, rfl⟩
    | none =>
      obtain rfl | h := List.mem_cons.mp h
      · rw [he] at hx; cases hx
      · exact programRefusal_of_mem he h

/-- A scheduled agent between operations whose program is refused stops the step. -/
theorem agentStep_refused {a : AgentId} {s : State} {r : Refusal} (ho : (s.agent a).op = none)
    (hp : programRefusal s.params (contextOf a) (s.agent a).program = some r) : agentStep a s = .refused r := by
  have hm : ({ s with cur := a } : State).me = s.agent a := by cases a <;> rfl
  unfold agentStep fetch
  dsimp only
  rw [hm, ho]
  cases hl : (s.agent a).program with
  | nil => rw [hl] at hp; cases hp
  | cons l ls => rw [hl] at hp; dsimp only; rw [hp]

end Sys2Proof.Machine
end

