-- ==== Sys2Proof/Laws/Exec.lean ====
section
/-!
SUPPORT. `exec` of each instruction once its checks have passed: one equation an instruction, from which a micro-step is
read off without unfolding a meaning.
-/

namespace Sys2Proof.Machine

/-! ### The line and interrupt-chip operations on a valid index -/

section
variable {s : State} {c : Controller} {i : Nat} (hc : contextOf s.cur = .call) (hr : s.ctl = some c) (hi : i < c.n)
include hc hr hi

theorem exec_getdir : exec (.getdir i) s = memRead (s.params.cfgOff i) 4 (enter (.getdir i) s)
    (fun w u => finish (.okDirection (decodeDirection w)) u) := by
  simp only [exec, execGetdir, lineOp_valid hc hr hi, enter_params]

theorem exec_dirin : exec (.dirin i) s = lockedRmw (s.params.cfgOff i) cfgInput (enter (.dirin i) s) := by
  simp only [exec, execDirin, lineOp_valid hc hr hi, enter_params]

theorem exec_dirout (v : Bool) : exec (.dirout i v) s =
    match (enter (.dirout i v) s).mpc with
    | 0 => acquire (enter (.dirout i v) s)
    | 1 => writeStep (s.params.cfgOff i) cfgOutput (enter (.dirout i v) s)
    | 2 => readStep s.params.outOff (enter (.dirout i v) s)
    | 3 => writeStep s.params.outOff (setBit (enter (.dirout i v) s).tmp i v) (enter (.dirout i v) s)
    | _ => releaseOk (enter (.dirout i v) s) := by
  simp only [exec, execDirout, lineOp_valid hc hr hi, enter_params] <;> rfl

theorem exec_getval : exec (.getval i) s = memRead s.params.inOff 4 (enter (.getval i) s)
    (fun w u => finish (.okBit (w.getLsbD i)) u) := by
  simp only [exec, execGetval, lineOp_valid hc hr hi, enter_params]

theorem exec_setval (v : Bool) : exec (.setval i v) s =
    lockedRmw s.params.outOff (fun o => setBit o i v) (enter (.setval i v) s) := by
  simp only [exec, execSetval, lineOp_valid hc hr hi, enter_params]

theorem exec_settype (r : TriggerRequest) : exec (.settype i r) s =
    lockedRmw (s.params.cfgOff i) (fun w => cfgTrigger s.params.merge w (encodeTrigger r)) (enter (.settype i r) s) := by
  simp only [exec, execSettype, lineOp_valid hc hr hi, enter_params]

theorem exec_irqen : exec (.irqen i) s =
    match (enter (.irqen i) s).mpc with
    | 0 => acquire (enter (.irqen i) s)
    | 1 => readStep (s.params.cfgOff i) (enter (.irqen i) s)
    | 2 => writeStep (s.params.cfgOff i) (cfgInput (enter (.irqen i) s).tmp) (enter (.irqen i) s)
    | 3 => releaseStep (enter (.irqen i) s)
    | 4 => acquire (enter (.irqen i) s)
    | 5 => writeStep s.params.irqOff (lineBit i) (enter (.irqen i) s)
    | 6 => releaseStep (enter (.irqen i) s)
    | 7 => acquire (enter (.irqen i) s)
    | 8 => readStep (s.params.cfgOff i) (enter (.irqen i) s)
    | 9 => writeStep (s.params.cfgOff i) (cfgIntEnable (enter (.irqen i) s).tmp) (enter (.irqen i) s)
    | _ => releaseOk (enter (.irqen i) s) := by
  simp only [exec, execIrqen, lineOp_valid hc hr hi, enter_params] <;> rfl

theorem exec_irqdis : exec (.irqdis i) s = lockedRmw (s.params.cfgOff i) cfgIntDisable (enter (.irqdis i) s) := by
  simp only [exec, execIrqdis, lineOp_valid hc hr hi, enter_params]

theorem exec_irqmask : exec (.irqmask i) s = .next (finish .ok (enter (.irqmask i) s)) := by
  simp only [exec, execIrqmask, lineOp_valid hc hr hi]

theorem exec_irqunmask : exec (.irqunmask i) s = .next (finish .ok (enter (.irqunmask i) s)) := by
  simp only [exec, execIrqunmask, lineOp_valid hc hr hi]

end

/-! ### The dispatch operations after a delivery -/

theorem dispatchOp_ready {s : State} {c : Controller} (i : Instr) (k : Controller → State → Out) (hc : s.cur = .dispatch)
    (hr : s.ctl = some c) (hb : s.handleBusy = true) : dispatchOp i s k = k c (enter i s) := by
  simp only [dispatchOp, inContext, whenReady, hc, hr, hb, contextOf, if_true]

theorem exec_handle {s : State} {c : Controller} (hc : s.cur = .dispatch) (hr : s.ctl = some c)
    (hb : s.handleBusy = true) : exec .handle s =
      scanStep c (enter .handle s).mpc (enter .handle s) (fun u => release u returnHandle) := by
  simp only [exec, execHandle, dispatchOp_ready _ _ hc hr hb]

theorem exec_handlechained {s : State} {c : Controller} (hc : s.cur = .dispatch) (hr : s.ctl = some c)
    (hb : s.handleBusy = true) (hp : s.params.chainedEntry = true) : exec .handlechained s =
      match (enter .handlechained s).mpc with
      | 0 => .next (advance (enter .handlechained s).tmp (addEvent .chainedEnter (enter .handlechained s)))
      | m + 1 =>
        if m ≤ scanLength c.n (enter .handlechained s).tmp then
          scanStep c m (enter .handlechained s) releaseStep
        else .next (returnHandle (addEvent .chainedExit (enter .handlechained s))) := by
  simp only [exec, execHandlechained, dispatchOp_ready _ _ hc hr hb, hp, if_true]
  rfl

/-! ### The raw accesses where they are admitted -/

section
variable {s : State} {c : Controller} (hc : contextOf s.cur = .call) (hr : s.ctl = some c) (hb : s.params.rawBus = true)
include hc hr hb

theorem rawAccess_ready (i : Instr) (k : Controller → State → Out) : rawAccess i s k = k c (enter i s) := by
  simp only [rawAccess, inContext, whenReady, hc, hr, hb, if_true]

theorem exec_rdCfg {i : Nat} (hi : i < c.n) : exec (.rdCfg i) s = rawRead (s.params.cfgOff i) (enter (.rdCfg i) s) := by
  simp only [exec, execRdCfg, rawAccess_ready hc hr hb, belowCount, hi, if_true, enter_params]

theorem exec_wrCfg {i : Nat} (hi : i < c.n) (d : Word) :
    exec (.wrCfg i d) s = rawWrite (s.params.cfgOff i) d (enter (.wrCfg i d) s) := by
  simp only [exec, execWrCfg, rawAccess_ready hc hr hb, belowCount, hi, if_true, enter_params]

theorem exec_rdIrq : exec .rdIrq s = rawRead s.params.irqOff (enter .rdIrq s) := by
  simp only [exec, execRdIrq, rawAccess_ready hc hr hb, enter_params]

theorem exec_wrIrq (d : Word) : exec (.wrIrq d) s = rawWrite s.params.irqOff d (enter (.wrIrq d) s) := by
  simp only [exec, execWrIrq, rawAccess_ready hc hr hb, enter_params]

theorem exec_rdIn : exec .rdIn s = rawRead s.params.inOff (enter .rdIn s) := by
  simp only [exec, execRdIn, rawAccess_ready hc hr hb, enter_params]

theorem exec_rdOut : exec .rdOut s = rawRead s.params.outOff (enter .rdOut s) := by
  simp only [exec, execRdOut, rawAccess_ready hc hr hb, enter_params]

theorem exec_wrOut (d : Word) : exec (.wrOut d) s = rawWrite s.params.outOff d (enter (.wrOut d) s) := by
  simp only [exec, execWrOut, rawAccess_ready hc hr hb, enter_params]

end

/-! ### Bring-up with the window there and a count of at most 32 -/

theorem exec_init {s : State} {n : Nat} (hc : s.cur = .platform) (hr : s.ctl = none) (hw : s.launch.windowPresent = true)
    (hn : n ≤ 32) : exec (.init n) s = initStep n (enter (.init n) s).mpc (enter (.init n) s) := by
  have h : ¬ maxLines < n := Nat.not_lt.mpr hn
  simp only [exec, execInit, inContext, hc, hr, contextOf, if_true, enter_launch, hw, Bool.true_eq_false, if_false, h]

end Sys2Proof.Machine
end

