-- ==== Sys2Proof/Laws/PerInstr.lean ====
section
/-!
SUPPORT. The per-instruction family `TableRow`: the word that spells a well-formed instruction matches its row of
spec/opcode_table.json (30_encoding.md R92, R100: `w & mask = match`), a bus descriptor under the default layout.
-/

namespace Sys2Proof.Laws.TableRow

/-- A row of the opcode table: is it a BUS row, its match and its mask. -/
structure Row where
  bus : Bool
  pattern : Word
  mask : Word
deriving DecidableEq, Repr

/-- The row of an instruction's mnemonic. -/
def rowOf : Instr → Row
  | .init _ => ⟨false, 0x00000000#32, 0x0000FFFF#32⟩
  | .getdir _ => ⟨false, 0x00000001#32, 0x0000FFFF#32⟩
  | .dirin _ => ⟨false, 0x00000002#32, 0x0000FFFF#32⟩
  | .dirout _ _ => ⟨false, 0x00000003#32, 0x0000FEFF#32⟩
  | .getval _ => ⟨false, 0x00000004#32, 0x0000FFFF#32⟩
  | .setval _ _ => ⟨false, 0x00000005#32, 0x0000FEFF#32⟩
  | .settype _ _ => ⟨false, 0x00000006#32, 0x0000FF0F#32⟩
  | .irqen _ => ⟨false, 0x00000007#32, 0x0000FFFF#32⟩
  | .irqdis _ => ⟨false, 0x00000008#32, 0x0000FFFF#32⟩
  | .irqmask _ => ⟨false, 0x00000009#32, 0x0000FFFF#32⟩
  | .irqunmask _ => ⟨false, 0x0000000A#32, 0x0000FFFF#32⟩
  | .handle => ⟨false, 0x0000000B#32, 0xFFFFFFFF#32⟩
  | .handlechained => ⟨false, 0x0000000C#32, 0xFFFFFFFF#32⟩
  | .rdCfg _ => ⟨true, 0x00000000#32, 0xFFFFFF83#32⟩
  | .wrCfg _ _ => ⟨true, 0x80000000#32, 0xFFFFFF83#32⟩
  | .rdIrq => ⟨true, 0x00000080#32, 0xFFFFFFFF#32⟩
  | .wrIrq _ => ⟨true, 0x80000080#32, 0xFFFFFFFF#32⟩
  | .rdIn => ⟨true, 0x00000084#32, 0xFFFFFFFF#32⟩
  | .wrIn _ => ⟨true, 0x80000084#32, 0xFFFFFFFF#32⟩
  | .rdOut => ⟨true, 0x00000088#32, 0xFFFFFFFF#32⟩
  | .wrOut _ => ⟨true, 0x80000088#32, 0xFFFFFFFF#32⟩

/-- Does a program line match a row? -/
def Row.matches (r : Row) : ProgLine → Prop
  | .cmd w => r.bus = false ∧ w &&& r.mask = r.pattern
  | .bus w _ => r.bus = true ∧ w &&& r.mask = r.pattern

/-- The line that spells a well-formed instruction matches its row. -/
def Statement (i : Instr) : Prop := i.wellFormed = true → (rowOf i).matches (encode Params.default i)

/-- A mask of the low 16 bits does not see the index field. -/
theorem and_low (lo idx : Nat) (m : Word) (hlo : lo < 65536) (hm : m.toNat < 65536) :
    BitVec.ofNat 32 (lo + 65536 * idx) &&& m = BitVec.ofNat 32 lo &&& m := by
  apply BitVec.eq_of_getLsbD_eq
  intro b hb
  have hbit : (lo + 65536 * idx).testBit b = if b < 16 then lo.testBit b else idx.testBit (b - 16) := by
    rw [Nat.add_comm, show 65536 = 2 ^ 16 from rfl]
    exact Nat.testBit_two_pow_mul_add idx (by simpa using hlo) b
  simp only [BitVec.getLsbD_and, BitVec.getLsbD_ofNat, hbit]
  by_cases h : b < 16
  · simp [h]
  · have : m.getLsbD b = false := by
      rw [← BitVec.testBit_toNat]
      exact Nat.testBit_lt_two_pow (Nat.lt_of_lt_of_le hm (Nat.pow_le_pow_right (n := 2) (by omega) (by omega : 16 ≤ b)))
    simp [this]

theorem init (n : Nat) : Statement (.init n) := fun _ => ⟨rfl, and_low 0 n 0xFFFF#32 (by decide) (by decide)⟩
theorem getdir (i : Nat) : Statement (.getdir i) := fun _ => ⟨rfl, and_low 1 i 0xFFFF#32 (by decide) (by decide)⟩
theorem dirin (i : Nat) : Statement (.dirin i) := fun _ => ⟨rfl, and_low 2 i 0xFFFF#32 (by decide) (by decide)⟩
theorem dirout (i : Nat) (v : Bool) : Statement (.dirout i v) := by
  intro _
  cases v
  · exact ⟨rfl, and_low 3 i 0xFEFF#32 (by decide) (by decide)⟩
  · exact ⟨rfl, and_low 259 i 0xFEFF#32 (by decide) (by decide)⟩
theorem getval (i : Nat) : Statement (.getval i) := fun _ => ⟨rfl, and_low 4 i 0xFFFF#32 (by decide) (by decide)⟩
theorem setval (i : Nat) (v : Bool) : Statement (.setval i v) := by
  intro _
  cases v
  · exact ⟨rfl, and_low 5 i 0xFEFF#32 (by decide) (by decide)⟩
  · exact ⟨rfl, and_low 261 i 0xFEFF#32 (by decide) (by decide)⟩
theorem settype (i : Nat) (r : TriggerRequest) : Statement (.settype i r) := by
  intro h
  have hk : trqOf r < 16 := by
    cases r <;> simp_all [trqOf, Instr.wellFormed, TriggerRequest.wellFormed]
    omega
  have all : ∀ k, k < 16 → BitVec.ofNat 32 (6 + 16 * k) &&& 0xFF0F#32 = 6#32 := by decide
  exact ⟨rfl, (and_low (6 + 16 * trqOf r) i 0xFF0F#32 (by omega) (by decide)).trans (all _ hk)⟩
theorem irqen (i : Nat) : Statement (.irqen i) := fun _ => ⟨rfl, and_low 7 i 0xFFFF#32 (by decide) (by decide)⟩
theorem irqdis (i : Nat) : Statement (.irqdis i) := fun _ => ⟨rfl, and_low 8 i 0xFFFF#32 (by decide) (by decide)⟩
theorem irqmask (i : Nat) : Statement (.irqmask i) := fun _ => ⟨rfl, and_low 9 i 0xFFFF#32 (by decide) (by decide)⟩
theorem irqunmask (i : Nat) : Statement (.irqunmask i) := fun _ => ⟨rfl, and_low 10 i 0xFFFF#32 (by decide) (by decide)⟩
theorem handle : Statement .handle := fun _ => ⟨rfl, by decide⟩
theorem handlechained : Statement .handlechained := fun _ => ⟨rfl, by decide⟩
theorem rdCfg (i : Nat) : Statement (.rdCfg i) := by
  intro h
  have hi : i < 32 := by simpa [Instr.wellFormed, lineFits] using h
  have all : ∀ j, j < 32 → BitVec.ofNat 32 (0 + 4 * j + 2 ^ 31 * 0) &&& 0xFFFFFF83#32 = 0#32 := by decide
  exact ⟨rfl, all i hi⟩
theorem wrCfg (i : Nat) (d : Word) : Statement (.wrCfg i d) := by
  intro h
  have hi : i < 32 := by simpa [Instr.wellFormed, lineFits] using h
  have all : ∀ j, j < 32 → BitVec.ofNat 32 (0 + 4 * j + 2 ^ 31 * 1) &&& 0xFFFFFF83#32 = 0x80000000#32 := by decide
  exact ⟨rfl, all i hi⟩
theorem rdIrq : Statement .rdIrq := fun _ => ⟨rfl, by decide⟩
theorem wrIrq (d : Word) : Statement (.wrIrq d) :=
  fun _ => ⟨rfl, (by decide : 0x80000080#32 &&& 0xFFFFFFFF#32 = 0x80000080#32)⟩
theorem rdIn : Statement .rdIn := fun _ => ⟨rfl, by decide⟩
theorem wrIn (d : Word) : Statement (.wrIn d) :=
  fun _ => ⟨rfl, (by decide : 0x80000084#32 &&& 0xFFFFFFFF#32 = 0x80000084#32)⟩
theorem rdOut : Statement .rdOut := fun _ => ⟨rfl, by decide⟩
theorem wrOut (d : Word) : Statement (.wrOut d) :=
  fun _ => ⟨rfl, (by decide : 0x80000088#32 &&& 0xFFFFFFFF#32 = 0x80000088#32)⟩

end Sys2Proof.Laws.TableRow
end

