-- ==== Sys2Proof/Tests/Slice0.lean ====
section
/-!
SUPPORT. The model's own tests. Words and expected results are those of spec/95_test_vectors.md and of the encoding tables
of 30_encoding.md, by section; a test is one step. Then one witness for the hypotheses of each statement that has some.
-/

set_option maxRecDepth 8000

namespace Sys2Proof.Tests

open Sys2Proof.Machine

/-! ### Well-formed instructions: an ill-formed term for each check -/

theorem test_wf_index_too_wide : (Instr.getdir 65536).wellFormed = false := by decide
theorem test_wf_index_widest : (Instr.getdir 65535).wellFormed = true := by decide
theorem test_wf_count_too_wide : (Instr.init 65536).wellFormed = false := by decide
theorem test_wf_request_low : (Instr.settype 0 (.other 4)).wellFormed = false := by decide
theorem test_wf_request_high : (Instr.settype 0 (.other 16)).wellFormed = false := by decide
theorem test_wf_settype_index : (Instr.settype 65536 .edgeBoth).wellFormed = false := by decide
theorem test_wf_cfg_line : (Instr.rdCfg 32).wellFormed = false ∧ (Instr.wrCfg 32 0).wellFormed = false := by decide

/-! ### Decoding: a word for every constructor (95_test_vectors.md parts 1, 2.1, 2.2 and 3) -/

theorem test_dec_init : decodeCmd 0x00080000#32 = .ok (.init 8) := by decide
theorem test_dec_getdir : decodeCmd 0x00020001#32 = .ok (.getdir 2) := by decide
theorem test_dec_dirin : decodeCmd 0x00020002#32 = .ok (.dirin 2) := by decide
theorem test_dec_dirout : decodeCmd 0x00020103#32 = .ok (.dirout 2 true) := by decide
theorem test_dec_getval : decodeCmd 0x00080004#32 = .ok (.getval 8) := by decide
theorem test_dec_setval : decodeCmd 0x00080105#32 = .ok (.setval 8 true) := by decide
theorem test_dec_settype : decodeCmd 0x00030026#32 = .ok (.settype 3 .edgeRising) := by decide
theorem test_dec_settype_other : decodeCmd 0x00020096#32 = .ok (.settype 2 (.other 9)) := by decide
theorem test_dec_irqen : decodeCmd 0x00030007#32 = .ok (.irqen 3) := by decide
theorem test_dec_irqdis : decodeCmd 0x00030008#32 = .ok (.irqdis 3) := by decide
theorem test_dec_irqmask : decodeCmd 0x00080009#32 = .ok (.irqmask 8) := by decide
theorem test_dec_irqunmask : decodeCmd 0x0008000A#32 = .ok (.irqunmask 8) := by decide
theorem test_dec_handle : decodeCmd 0x0000000B#32 = .ok .handle := by decide
theorem test_dec_handlechained : decodeCmd 0x0000000C#32 = .ok .handlechained := by decide
theorem test_dec_reserved : decodeCmd 0x0000000D#32 = .error .reservedOp ∧ decodeCmd 0x0000000F#32 = .error .reservedOp := by
  decide
theorem test_dec_unused : decodeCmd 0x00000010#32 = .error .unusedField ∧ decodeCmd 0x00000106#32 = .error .unusedField ∧
    decodeCmd 0x00000201#32 = .error .unusedField ∧ decodeCmd 0x0001000B#32 = .error .unusedField ∧
    decodeCmd 0x00000113#32 = .error .unusedField := by decide
theorem test_dec_rdcfg : decodeBus Params.default 0x0000007C#32 0#32 = .ok (.rdCfg 31) := by decide
theorem test_dec_wrcfg : decodeBus Params.default 0x8000000C#32 5#32 = .ok (.wrCfg 3 5#32) := by decide
theorem test_dec_rdirq : decodeBus Params.default 0x00000080#32 0#32 = .ok .rdIrq := by decide
theorem test_dec_wrirq : decodeBus Params.default 0x80000080#32 4#32 = .ok (.wrIrq 4#32) := by decide
theorem test_dec_rdin : decodeBus Params.default 0x00000084#32 0#32 = .ok .rdIn := by decide
theorem test_dec_wrin : decodeBus Params.default 0x80000084#32 1#32 = .ok (.wrIn 1#32) := by decide
theorem test_dec_rdout : decodeBus Params.default 0x00000088#32 0#32 = .ok .rdOut := by decide
theorem test_dec_wrout : decodeBus Params.default 0x80000088#32 7#32 = .ok (.wrOut 7#32) := by decide
theorem test_dec_bus_bad : decodeBus Params.default 0x00000002#32 0#32 = .error .misaligned ∧
    decodeBus Params.default 0x0000008C#32 0#32 = .error .unmapped ∧
    decodeBus Params.default 0x00000100#32 0#32 = .error .unmapped := by decide

/-! ### Encoding (30_encoding.md R102) -/

theorem test_enc_settype : encode Params.default (.settype 1 .levelLow) = .cmd 0x00010016#32 := by decide
theorem test_enc_dirout : encode Params.default (.dirout 1 false) = .cmd 0x00010003#32 := by decide
theorem test_enc_wrcfg : encode Params.default (.wrCfg 3 9#32) = .bus 0x8000000C#32 9#32 := by decide

/-! ### The words of the opcode table as the host asks for them -/

theorem test_table_settype : decodeTableWord 32 0x00030026 = some (.settype 3 .edgeRising) := by decide
theorem test_table_wrcfg : decodeTableWord 32 0x80000000 = some (.wrCfg 0 0#32) := by decide
theorem test_table_reserved : decodeTableWord 32 0x0000000D = none := by decide

/-! ### Small states -/

/-- Default parameters without loopback and with raw accesses admitted. -/
def params : Params := { Params.default with inLoopback := false, rawBus := true }

/-- Refined latching with loopback. -/
def driven : Params := { params with latch := .refined, inLoopback := true }

/-- Handle `hi` for line `i`. -/
def handles : Vector Handle 32 := Vector.ofFn fun i => ⟨i⟩

/-- One idle caller on a Ready controller of `n` lines, with every CFG word the same. -/
def ready (n : Nat) (cfg irq out : Word) : State where
  params := params
  launch := ⟨true, handles⟩
  cfg := Vector.replicate 32 (PinConfig.ofWord cfg)
  irq := irq
  out := out
  level := 0#32
  ctl := some ⟨n, handles⟩
  lock := none
  handleBusy := false
  events := []
  callers := [Agent.idle]
  dispatch := Agent.idle
  platform := Agent.idle
  cur := .caller 0
  schedule := []
  moves := 0
  draws := 0

/-- The caller in the middle of an operation, holding the lock. -/
def mid (i : Instr) (k : Nat) (w : Word) (s : State) : State :=
  { s with callers := [⟨[], some ⟨i, k, w⟩, []⟩], lock := some (.caller 0) }

/-- The dispatch agent after a delivery, at micro-step `k` of `i` with snapshot `w` and the lock; `k = 0` is before it. -/
def isr (i : Instr) (k : Nat) (w : Word) (s : State) : State :=
  { s with
    cur := .dispatch, handleBusy := true
    dispatch := ⟨[], if k = 0 then none else some ⟨i, k, w⟩, []⟩
    lock := if k = 0 then none else some .dispatch }

/-- The platform agent before bring-up, or at micro-step `k` of INIT. -/
def boot (n k : Nat) (w : Word) (s : State) : State :=
  { s with
    cur := .platform, ctl := none
    platform := ⟨[], if k = 0 then none else some ⟨.init n, k, w⟩, []⟩ }

/-- What a next state shows. -/
def look {α : Type} (f : State → α) : Out → Option α
  | .next t => some (f t)
  | _ => none

/-- The result the acting agent got last. -/
def answer (o : Out) : Option Result := (look (fun t => t.me.results.getLast?) o).join

/-- The name of a refusal. -/
def refusal : Out → Option Refusal
  | .refused r => some r
  | _ => none

/-- The CFG word of line `i` a next state holds. -/
def cfgAfter (i : Nat) (o : Out) : Option PinConfig := look (fun t => t.cfgAt i) o

/-! ### Register accesses (95_test_vectors.md 2.3) -/

theorem test_rdirq : answer (exec .rdIrq (ready 32 0 0x224 0)) = some (.okWord 0x224#32) := by decide
theorem test_rdout : answer (exec .rdOut (ready 32 0 0 0xF)) = some (.okWord 0xF#32) := by decide
theorem test_rdin_level : answer (exec .rdIn { ready 32 2 0 0 with level := 1#32, params := driven }) =
    some (.okWord 1#32) := by decide
theorem test_rdin_loopback : answer (exec .rdIn { ready 32 5 0 1 with params := driven }) = some (.okWord 1#32) := by
  decide
theorem test_rdcfg : (answer (exec (.rdCfg 3) (ready 8 0xEF 0 0))).map (fun r => match r with
    | .okWord w => some (PinConfig.ofWord w)
    | _ => none) = some (some ⟨true, true, true, true, 7#3⟩) := by
  change some (some (PinConfig.ofWord (PinConfig.toWord _ (Config.draw 0)))) = _
  rw [ofWord_toWord]
  decide
theorem test_wrcfg : cfgAfter 3 (exec (.wrCfg 3 0xFFFFFFFF#32) (ready 8 0 0 0)) = some (PinConfig.ofWord 0xEF#32) := by
  decide
theorem test_wrcfg_fields : cfgAfter 0 (exec (.wrCfg 0 5#32) (ready 8 0xFF 0 0)) =
    some ⟨true, false, true, false, 0#3⟩ := by decide
theorem test_wrirq : look State.irq (exec (.wrIrq 4#32) (ready 10 0 0x224 0)) = some 0x220#32 := by decide
theorem test_wrout : look State.out (exec (.wrOut 7#32) (ready 4 0 0 0xF)) = some 7#32 := by decide
theorem test_wrin : refusal (exec (.wrIn 1#32) (ready 4 0 0 0)) = some .writeToIn := by decide
theorem test_raw_line : refusal (exec (.rdCfg 4) (ready 4 0 0 0)) = some .rawLineOutOfRange := by decide
theorem test_raw_off : refusal (exec .rdIrq { ready 4 0 0 0 with params := { params with rawBus := false } }) =
    some .rawNotAdmitted := by decide

/-! ### Line control (2.6) -/

theorem test_getdir : answer (exec (.getdir 2) (ready 4 2 0 0)) = some (.okDirection .input) := by
  change some (Result.okDirection (decodeDirection (PinConfig.toWord _ (Config.draw 0)))) = _
  rw [decodeDirection_eq, ofWord_toWord]
  decide
theorem test_getdir_invalid : answer (exec (.getdir 8) (ready 8 0 0 0)) = some (.err .invalidLine) := by decide
theorem test_dirin : cfgAfter 0 (exec (.dirin 0) (mid (.dirin 0) 2 0x4D#32 (ready 4 0x4D 0 0))) =
    some (PinConfig.ofWord 0x4A#32) := by decide
theorem test_dirin_returns : answer (exec (.dirin 0) (mid (.dirin 0) 3 0x4D#32 (ready 4 0x4A 0 0))) = some .ok := by decide
theorem test_dirout_config : cfgAfter 2 (exec (.dirout 2 true) (mid (.dirout 2 true) 1 0#32 (ready 4 0x4A 0 0))) =
    some (PinConfig.ofWord 0x05#32) := by decide
theorem test_dirout_output :
    look State.out (exec (.dirout 1 false) (mid (.dirout 1 false) 3 0xF#32 (ready 4 5 0 0xF))) = some 0xD#32 := by decide
theorem test_getval_loopback : answer (exec (.getval 2) { ready 32 5 0 0 with params := driven }) = some (.okBit false) := by
  decide
theorem test_getval_level : answer (exec (.getval 2) { ready 32 2 0 0 with level := 4#32, params := driven }) =
    some (.okBit true) := by decide
theorem test_setval : look State.out (exec (.setval 0 false) (mid (.setval 0 false) 2 0xFF#32 (ready 8 0 0 0xFF))) =
    some 0xFE#32 := by decide
theorem test_setval_invalid : look (fun t => (t.me.results, t.out, t.lock)) (exec (.setval 8 true) (ready 8 0 0 0)) =
    some ([.ok], 0#32, none) := by decide

/-! ### Interrupt-chip operations (2.7) -/

theorem test_settype : cfgAfter 3 (exec (.settype 3 .edgeFalling) (mid (.settype 3 .edgeFalling) 2 0x42#32
    (ready 8 0x42 0 0))) = some (PinConfig.ofWord 0x62#32) := by decide
theorem test_settype_other : cfgAfter 3 (exec (.settype 3 (.other 9)) (mid (.settype 3 (.other 9)) 2 0x02#32
    (ready 8 2 0 0))) = some (PinConfig.ofWord 0x22#32) := by decide
theorem test_irqen_clears : look State.irq (exec (.irqen 3) (mid (.irqen 3) 5 0#32 (ready 8 0x42 0x0C 0))) =
    some 0x04#32 := by decide
theorem test_irqen_enables : cfgAfter 3 (exec (.irqen 3) (mid (.irqen 3) 9 0x42#32 (ready 8 0x42 0 0))) =
    some (PinConfig.ofWord 0x4A#32) := by decide
theorem test_irqdis : cfgAfter 3 (exec (.irqdis 3) (mid (.irqdis 3) 2 0x4A#32 (ready 8 0x4A 8 0))) =
    some (PinConfig.ofWord 0x42#32) := by decide
theorem test_irqdis_keeps_pending : look State.irq (exec (.irqdis 3) (mid (.irqdis 3) 2 0x4A#32 (ready 8 0x4A 8 0))) =
    some 8#32 := by decide
theorem test_irqmask : answer (exec (.irqmask 3) (ready 8 0 0 0)) = some .ok := by decide
theorem test_irqmask_invalid : answer (exec (.irqmask 8) (ready 8 0 0 0)) = some (.err .invalidLine) := by decide
theorem test_irqunmask : answer (exec (.irqunmask 3) (ready 8 0 0 0)) = some .ok := by decide
theorem test_irqunmask_invalid : answer (exec (.irqunmask 8) (ready 8 0 0 0)) = some (.err .invalidLine) := by decide

/-! ### Dispatch (2.8) -/

theorem test_handle_clears : look State.irq (exec .handle (isr .handle 4 0x224#32 (ready 10 0 0x22C 0))) =
    some 0x20C#32 := by decide
theorem test_handle_dispatches : look State.events (exec .handle (isr .handle 5 0x224#32 (ready 10 0 0x208 0))) =
    some [.irq 5 ⟨5⟩] := by decide
theorem test_chained_enter : look State.events (exec .handlechained (isr .handlechained 0 0#32
    { ready 8 0 8 0 with params := { params with chainedEntry := true } })) = some [.chainedEnter] := by decide
theorem test_chained_off : refusal (exec .handlechained (isr .handlechained 0 0#32 (ready 8 0 8 0))) =
    some .chainedNotAdmitted := by decide

/-! ### Bring-up (2.9) -/

theorem test_init_too_many : answer (exec (.init 33) (boot 33 0 0#32 (ready 0 0 0 0))) = some (.err .tooManyLines) := by
  decide
theorem test_init_clears : cfgAfter 2 (exec (.init 8) (boot 8 5 0x0A#32 (ready 0 0x0A 0 0))) =
    some (PinConfig.ofWord 0x02#32) := by decide

/-! ### The hardware agent (2.4), delivery and admission (2.10) -/

theorem test_latch : look State.irq (step { ready 8 0 0 0 with schedule := [.latch 8#32] }) = some 8#32 := by decide
theorem test_edge_latches : look (fun t => (t.level, t.irq)) (step { ready 8 0x4A 0 0 with
    params := driven, schedule := [.setLevel 3 true] }) = some (8#32, 8#32) := by decide
theorem test_edge_other_way : look (fun t => (t.level, t.irq)) (step { ready 8 0x4A 0 0 with
    params := driven, level := 8#32, schedule := [.setLevel 3 false] }) = some (0#32, 0#32) := by decide
theorem test_level_latches : look State.irq (step { ready 8 0x2A 0 0 with
    params := driven, schedule := [.latchLevel 5] }) = some 0x20#32 := by decide
theorem test_deliver : look (fun t => (t.handleBusy, t.dispatch.program)) (step { ready 8 0 0 0 with
    schedule := [.deliver false] }) = some (true, [.cmd 0x0000000B#32]) := by decide
theorem test_program_refused : refusal (step { ready 8 0 0 0 with
    callers := [{ Agent.idle with program := [.cmd 0x00000001#32, .cmd 0x0000000F#32] }],
    schedule := [.agent (.caller 0)] }) = some (.spellsNothing .reservedOp) := by decide

/-! ### Codec (2.5) -/

theorem test_codec_input : cfgInput 0x4D#32 = 0x4A#32 ∧ cfgInput 0xFFFFFFFF#32 = 0xFFFFFFFA#32 := by decide
theorem test_codec_direction : decodeDirection 0#32 = .output ∧ decodeDirection 7#32 = .input := by decide
theorem test_codec_trigger : cfgTrigger .accumulate 0x82#32 1#3 = 0xA2#32 ∧ cfgTrigger .replace 0xE2#32 0#3 = 0x02#32 := by
  decide
theorem test_codec_enable : cfgIntEnable 0x05#32 = 0x0D#32 ∧ cfgIntDisable 0xFFFFFFFF#32 = 0xFFFFFFF7#32 := by decide
theorem test_codec_masks : validMask 0 = 0#32 ∧ validMask 31 = 0x7FFFFFFF#32 ∧ validMask 32 = 0xFFFFFFFF#32 := by decide
theorem test_codec_names : decodeTrigger 0x62#32 = .edgeFalling ∧ decodeTrigger 0xA2#32 = .reserved 5#3 := by decide
theorem test_result_numbers : resultNumber (.err .invalidLine) = 1 ∧ resultNumber (.err .tooManyLines) = 2 ∧
    resultNumber (.err .hardwareUnavailable) = 3 ∧ resultNumber .ok = 0 ∧ directionNumber .input = 1 := by decide
theorem test_codec_setbit : setBit 0xFF#32 0 false = 0xFE#32 ∧ setBit 0#32 31 true = 0x80000000#32 := by decide

/-! ### Witnesses: a state and operands that meet all the hypotheses of a statement together

A statement with several clauses has a witness for each, at a boundary of its range. -/

/-- The controller of the small states. -/
def ctl (n : Nat) : Controller := ⟨n, handles⟩

/-- A caller is scheduled next with this program. -/
def scheduled (p : List ProgLine) (s : State) : State :=
  { s with callers := [{ Agent.idle with program := p }], schedule := [.agent (.caller 0)] }

/-- DIRIN on line 3 at its write, with the lock; the caller is scheduled next. -/
def writing : State :=
  { mid (.dirin 3) 2 0x4D#32 (ready 8 0x4D 0x8 0) with
    params := { params with rawBus := false }, schedule := [.agent (.caller 0)] }

/-- HANDLE at its Release, with the lock; the dispatch agent is scheduled next. -/
def returning : State := { isr .handle 2 0#32 (ready 8 0x4A 0 0) with schedule := [.agent .dispatch] }

theorem test_witness_DecodeOfEncodeIsInstr : Params.default.WF ∧ Params.default.windowSize ≤ 2 ^ 31 ∧
    (Instr.settype 65535 (.other 15)).wellFormed = true ∧ (Instr.wrCfg 31 0).wellFormed = true := by decide

theorem test_witness_EncodeOfDecodedLineIsLine :
    decodeLine Params.default (.cmd 0xFFFF0001#32) = .ok (.getdir 65535) ∧
    decodeLine Params.default (.bus 0x8000007C#32 5#32) = .ok (.wrCfg 31 5#32) ∧
    decodeLine Params.default (.bus 0x00000080#32 5#32) = .ok .rdIrq := by decide

theorem test_witness_UnusedCommandFieldsMustBeZero : cmdOp 0x0001000C#32 ≤ 12 ∧ cmdIdx 0x0001000C#32 ≠ 0 ∧
    decodeCmd 0x0001000C#32 = .error .unusedField ∧ cmdOp 0x00000006#32 ≤ 12 := by decide

theorem test_witness_ProgramWithInvalidWordIsRefused : 13 ≤ cmdOp 0x0000000D#32 ∧
    (let s := scheduled [.cmd 0x00000001#32, .cmd 0x0000000D#32] (ready 8 0 0 0)
     s.schedule = [.agent (.caller 0)] ∧ (s.agent (.caller 0)).op = none ∧
       ProgLine.cmd 0x0000000D#32 ∈ (s.agent (.caller 0)).program ∧
       decodeLine s.params (.cmd 0x0000000D#32) = .error .reservedOp) := by decide

theorem test_witness_StepRunsDecodedInstruction :
    (let s := scheduled [.cmd 0x00020002#32, .cmd 0x00020001#32] (ready 8 0 0 0)
     let t := { s with schedule := [], cur := AgentId.caller 0 }
     s.schedule = [.agent (.caller 0)] ∧ t.me.op = none ∧
       t.me.program = [.cmd 0x00020002#32, .cmd 0x00020001#32] ∧
       programRefusal s.params (contextOf (.caller 0)) t.me.program = none ∧
       decodeLine s.params (.cmd 0x00020002#32) = .ok (.dirin 2)) ∧
    (writing.schedule = [.agent (.caller 0)] ∧ writing.me.op = some ⟨.dirin 3, 2, 0x4D#32⟩) := by decide

/-- The hypotheses of the raw-access statements, and those of RD_CFG and WR_CFG at the last line, at rest and on a line
that is made driving under Refined loopback. -/
theorem test_witness_RdCfgYieldsFieldsAndDraw : RawReady (ready 8 0x4A 0 0) (ctl 8) ∧ 7 < (ctl 8).n := by decide
theorem test_witness_RdIrqYieldsStatusBelowCount : RawReady (ready 32 0 0x224 0) (ctl 32) := by decide
theorem test_witness_RdInYieldsPinView : RawReady { ready 1 5 0 1 with params := driven } (ctl 1) := by decide
theorem test_witness_RdOutYieldsOutputBelowCount : RawReady (ready 0 0 0 0xF) (ctl 0) := by decide
theorem test_witness_WrCfgStoresFields : RawReady (ready 8 0 0 0) (ctl 8) ∧ 7 < (ctl 8).n ∧
    (let s := { ready 8 2 0 0x80 with params := driven }
     RawReady s (ctl 8) ∧ 7 < (ctl 8).n ∧ s.levelsDriven ∧
       (5#32 : Word).getLsbD 0 = true ∧ (5#32 : Word).getLsbD 2 = true ∧ (5#32 : Word).getLsbD 1 = false) := by decide
theorem test_witness_WrIrqClearsTheOnes : RawReady (ready 10 0 0x224 0) (ctl 10) := by decide
theorem test_witness_WrOutStoresBelowCount : RawReady (ready 4 0 0 0xF) (ctl 4) ∧
    (let s := { ready 4 5 0 0 with params := driven }
     RawReady s (ctl 4) ∧ s.levelsDriven ∧ 3 < (ctl 4).n ∧ (s.cfgAt 3).driving = true) := by decide

theorem test_witness_WrInHasNoStep :
    let s := scheduled [.cmd 0x00000001#32, .bus 0x80000084#32 1#32] (ready 8 0 0 0)
    s.schedule = [.agent (.caller 0)] ∧ (s.agent (.caller 0)).op = none ∧
      ProgLine.bus 0x80000084#32 1#32 ∈ (s.agent (.caller 0)).program ∧
      decodeLine s.params (.bus 0x80000084#32 1#32) = .ok (.wrIn 1#32) ∧
      s.params.WF ∧ s.params.windowSize ≤ 2 ^ 31 ∧ CountBounded s ∧ exec (.wrIn 1#32) s = .refused .writeToIn := by
  refine ⟨by decide, by decide, by decide, by decide, by decide, by decide, fun c h => ?_, rfl⟩
  cases h; decide

theorem test_witness_RawAccessNeedsParameterReadyAndLine : isRaw .rdIrq = true ∧
    { params with rawBus := false }.rawBus = false ∧ { ready 8 0 0 0 with ctl := none }.ctl = none ∧
    (let s := scheduled [.bus 0x00000080#32 0#32] { ready 8 0 0 0 with params := { params with rawBus := false } }
     s.schedule = [.agent (.caller 0)] ∧ (s.agent (.caller 0)).op = none ∧
       ProgLine.bus 0x00000080#32 0#32 ∈ (s.agent (.caller 0)).program ∧
       decodeLine s.params (.bus 0x00000080#32 0#32) = .ok .rdIrq ∧ s.params.rawBus = false) ∧
    (RawReady (ready 8 0 0 0) (ctl 8) ∧ (ctl 8).n ≤ 8) := by decide

/-- A width of 2, the offset 2, the end of the default window, and a hole inside a wider window. -/
theorem test_witness_BadAccessesHaveNoStep : (2 ≠ 4) ∧ (2 % 4 ≠ 0) ∧ 0x8C % 4 = 0 ∧ params.windowSize ≤ 0x8C ∧
    (let p := { params with windowSize := 0x100 }
     p.WF ∧ 0x8C % 4 = 0 ∧ (∀ i, i < 32 → 0x8C ≠ p.cfgBase + 4 * i) ∧
       0x8C ≠ p.irqOff ∧ 0x8C ≠ p.inOff ∧ 0x8C ≠ p.outOff) := by decide

theorem levelsFollowOut_of_check {s : State}
    (h : ∀ b, b < 32 → (s.cfgAt b).driving = true → s.level.getLsbD b = s.out.getLsbD b) : LevelsFollowOut s :=
  fun _ => h

/-- A Refined loopback state whose driven levels follow OUT. -/
def wired : State := { ready 8 5 0 0x81 with params := driven, level := 0x81#32 }

theorem test_witness_GetdirReportsDirection : CallerReady wired (ctl 8) ∧ wired.fresh ∧ 7 < (ctl 8).n := by decide
theorem test_witness_DirinMakesLineInput : CallerReady wired (ctl 8) ∧ wired.fresh ∧ wired.lock = none ∧ 0 < (ctl 8).n := by
  decide
theorem test_witness_DiroutOverwritesAndDrives : CallerReady wired (ctl 8) ∧ wired.fresh ∧ wired.lock = none ∧
    7 < (ctl 8).n ∧ LevelsFollowOut wired :=
  ⟨by decide, by decide, by decide, by decide, levelsFollowOut_of_check (by decide)⟩
theorem test_witness_GetvalReadsPinView : CallerReady wired (ctl 8) ∧ wired.fresh ∧ 7 < (ctl 8).n := by decide
theorem test_witness_SetvalDrivesOneBit : CallerReady wired (ctl 8) ∧ wired.fresh ∧ wired.lock = none ∧ 7 < (ctl 8).n ∧
    LevelsFollowOut wired := ⟨by decide, by decide, by decide, by decide, levelsFollowOut_of_check (by decide)⟩
theorem test_witness_DirectionAndValueReadBack : CallerReady wired (ctl 8) ∧ wired.fresh ∧ wired.lock = none ∧
    7 < (ctl 8).n ∧ wired.params.inLoopback = true := by decide
theorem test_witness_SettypeMergesTrigger : CallerReady wired (ctl 8) ∧ wired.fresh ∧ wired.lock = none ∧ 7 < (ctl 8).n ∧
    LevelsFollowOut wired := ⟨by decide, by decide, by decide, by decide, levelsFollowOut_of_check (by decide)⟩
theorem test_witness_IrqenClearsThenEnables :
    CallerReady wired (ctl 8) ∧ wired.fresh ∧ wired.lock = none ∧ 7 < (ctl 8).n := by decide
theorem test_witness_IrqdisClearsEnableOnly : CallerReady wired (ctl 8) ∧ wired.fresh ∧ wired.lock = none ∧ 7 < (ctl 8).n ∧
    LevelsFollowOut wired := ⟨by decide, by decide, by decide, by decide, levelsFollowOut_of_check (by decide)⟩
theorem test_witness_MaskAndUnmaskAreNoOps : CallerReady wired (ctl 8) ∧ wired.fresh ∧ 7 < (ctl 8).n := by decide

theorem test_witness_DirinMicroSteps : ∀ k, k = 1 ∨ k = 2 ∨ k = 3 →
    let s := mid (.dirin 7) k 0x4D#32 (ready 8 0x4D 0 0)
    CallerReady s (ctl 8) ∧ 7 < (ctl 8).n ∧ s.inOp (.dirin 7) k 0x4D#32 ∧ s.lock = some s.cur := by
  rintro k (rfl | rfl | rfl) <;> decide

theorem test_witness_DiroutWritesConfigThenOutput : ∀ k, k = 1 ∨ k = 3 →
    let s := mid (.dirout 7 true) k 0xF#32 (ready 8 0x4A 0 0)
    CallerReady s (ctl 8) ∧ 7 < (ctl 8).n ∧ s.inOp (.dirout 7 true) k 0xF#32 := by
  rintro k (rfl | rfl) <;> decide

theorem test_witness_IrqenClearPrecedesEnable : ∀ k, k = 5 ∨ k = 9 →
    let s := mid (.irqen 7) k 0x42#32 (ready 8 0x42 0x8C 0)
    CallerReady s (ctl 8) ∧ 7 < (ctl 8).n ∧ s.inOp (.irqen 7) k 0x42#32 := by
  rintro k (rfl | rfl) <;> decide

/-- Index `n` itself is the first invalid one. -/
theorem test_witness_InvalidIndexChangesNothing :
    let s := ready 8 0 0 0
    contextOf s.cur = .call ∧ s.hasCur = true ∧ s.ctl = some (ctl 8) ∧ s.fresh ∧ (ctl 8).n ≤ 8 ∧
      indexOf (.setval 8 true) = some 8 ∧ isRaw (.setval 8 true) = false := by decide

theorem test_witness_AcquireTakesFreeLockOrHolds :
    (∀ l, l = none ∨ l = some AgentId.dispatch →
      let s := { ready 8 0 0 0 with lock := l }
      CallerReady s (ctl 8) ∧ s.fresh ∧ 7 < (ctl 8).n ∧
        Instr.irqen 7 ∈ [.dirin 7, .dirout 7 true, .setval 7 true, .settype 7 .edgeBoth, .irqen 7, .irqdis 7]) ∧
    ∀ k l, k = 0 ∨ k = 4 ∨ k = 7 → l = none ∨ l = some AgentId.dispatch →
      let s := { mid (.irqen 7) k 0#32 (ready 8 0 0 0) with lock := l }
      CallerReady s (ctl 8) ∧ 7 < (ctl 8).n ∧ s.inOp (.irqen 7) k 0#32 := by
  constructor
  · rintro l (rfl | rfl) <;> decide
  · rintro k l (rfl | rfl | rfl) (rfl | rfl) <;> decide

/-- The Acquires of the scans: HANDLE not begun and begun, and HANDLECHAINED after its enter marker. -/
theorem test_witness_AcquireTakesFreeLockOrHolds_scan : ∀ l, l = none ∨ l = some (AgentId.caller 0) →
    (let s := { isr .handle 0 0#32 (ready 8 0 8 0) with lock := l }
     s.cur = .dispatch ∧ s.ctl = some (ctl 8) ∧ s.handleBusy = true ∧ s.fresh) ∧
    (let s := { isr .handle 1 0#32 (ready 8 0 8 0) with
      dispatch := ⟨[], some ⟨.handle, 0, 0#32⟩, []⟩, lock := l }
     s.cur = .dispatch ∧ s.ctl = some (ctl 8) ∧ s.handleBusy = true ∧ s.inOp .handle 0 0#32) ∧
    (let s := { isr .handlechained 1 0#32 (ready 8 0 8 0) with
      params := { params with chainedEntry := true }, lock := l }
     s.cur = .dispatch ∧ s.ctl = some (ctl 8) ∧ s.handleBusy = true ∧ s.inOp .handlechained 1 0#32 ∧
       s.params.chainedEntry = true) := by
  rintro l (rfl | rfl) <;> decide

/-! The lock discipline at two states: a caller inside DIRIN, and the dispatch agent inside HANDLE. -/

theorem writing_op {a : AgentId} {o : InFlight} (h : (writing.agent a).op = some o) :
    a = .caller 0 ∧ o = ⟨.dirin 3, 2, 0x4D#32⟩ := by
  cases a with
  | caller k => cases k <;> simp_all [writing, mid, ready, State.agent, Agent.idle]
  | dispatch => simp [writing, mid, ready, State.agent, Agent.idle] at h
  | platform => simp [writing, mid, ready, State.agent, Agent.idle] at h

theorem writing_discipline : LockDiscipline writing where
  critical_holds a o h _ := by obtain ⟨rfl, rfl⟩ := writing_op h; rfl
  holder_critical a h := by cases h; exact ⟨_, rfl, by decide⟩
  in_context a o h := by obtain ⟨rfl, rfl⟩ := writing_op h; rfl
  checked a o i h hi := by obtain ⟨rfl, rfl⟩ := writing_op h; cases hi; decide
  absent_init h := by cases h
  init_absent a o n h hi := by obtain ⟨rfl, rfl⟩ := writing_op h; cases hi
  idle_dispatch _ := rfl
  chained_admitted o h _ := by cases h

theorem returning_op {a : AgentId} {o : InFlight} (h : (returning.agent a).op = some o) :
    a = .dispatch ∧ o = ⟨.handle, 2, 0#32⟩ := by
  cases a with
  | caller k => cases k <;> simp_all [returning, isr, ready, State.agent, Agent.idle]
  | dispatch => simp_all [returning, isr, ready, State.agent, Agent.idle]
  | platform => simp [returning, isr, ready, State.agent, Agent.idle] at h

theorem returning_discipline : LockDiscipline returning where
  critical_holds a o h _ := by obtain ⟨rfl, rfl⟩ := returning_op h; rfl
  holder_critical a h := by cases h; exact ⟨_, rfl, by decide⟩
  in_context a o h := by obtain ⟨rfl, rfl⟩ := returning_op h; rfl
  checked a o i h hi := by obtain ⟨rfl, rfl⟩ := returning_op h; cases hi
  absent_init h := by cases h
  init_absent a o n h hi := by obtain ⟨rfl, rfl⟩ := returning_op h; cases hi
  idle_dispatch h := by cases h
  chained_admitted o h hi := by cases h; cases hi

theorem test_witness_WritesAreUnderTheLock : ∃ t, LockDiscipline writing ∧ isRaw (.dirin 3) = false ∧
    (∀ n, Instr.dirin 3 ≠ .init n) ∧ (∃ o, writing.me.op = some o ∧ o.instr = .dirin 3) ∧
    exec (.dirin 3) writing = .next t ∧ t.cfg ≠ writing.cfg :=
  ⟨_, writing_discipline, rfl, (fun _ h => nomatch h), ⟨_, rfl, rfl⟩, rfl, by decide⟩

theorem test_witness_StepKeepsLockDiscipline :
    (∃ t, LockDiscipline writing ∧ step writing = .next t) ∧ ∃ t, LockDiscipline returning ∧ step returning = .next t :=
  ⟨⟨_, writing_discipline, rfl⟩, ⟨_, returning_discipline, rfl⟩⟩

theorem test_witness_LockHolderReleasesSoon :
    (LockDiscipline writing ∧ writing.params.WF ∧ writing.ctl = some (ctl 8) ∧ (ctl 8).n ≤ 32 ∧
      writing.lock = some writing.cur) ∧
    (LockDiscipline returning ∧ returning.params.WF ∧ returning.ctl = some (ctl 8) ∧ (ctl 8).n ≤ 32 ∧
      returning.lock = some returning.cur) :=
  ⟨⟨writing_discipline, by decide, by decide, by decide, by decide⟩,
    ⟨returning_discipline, by decide, by decide, by decide, by decide⟩⟩

theorem test_witness_StepKeepsNoLostUpdate : ∃ t, NoLostUpdate writing ∧ step writing = .next t := by
  refine ⟨_, ⟨writing_discipline, by decide, ?_, by decide, fun a o h => ?_⟩, rfl⟩
  · intro c h; cases h; decide
  · obtain ⟨rfl, rfl⟩ := writing_op h
    intro _; decide

/-- A delivered HANDLE on no lines, and on 32 lines that are all pending. -/
theorem test_witness_HandleServicesPendingLines :
    (let s := isr .handle 0 0#32 (ready 0 0 5 0); DispatchReady s (ctl 0) ∧ s.fresh ∧ s.lock = none) ∧
    (let s := isr .handle 0 0#32 (ready 32 0 0xFFFFFFFF 0)
     DispatchReady s (ctl 32) ∧ s.fresh ∧ s.lock = none) := by decide

theorem test_witness_HandlechainedFramesTheScan :
    let s := isr .handlechained 0 0#32 { ready 32 0 8 0 with params := { params with chainedEntry := true } }
    DispatchReady s (ctl 32) ∧ s.params.chainedEntry = true ∧ s.fresh ∧ s.lock = none := by decide

theorem test_witness_HandleClearsOneBitAtATime : ∃ t,
    (isr .handle 2 0x224#32 (ready 10 0 0x22C 0)).params.WF ∧
      exec .handle (isr .handle 2 0x224#32 (ready 10 0 0x22C 0)) = .next t ∧
      t.irq ≠ (isr .handle 2 0x224#32 (ready 10 0 0x22C 0)).irq := ⟨_, by decide, rfl, by decide⟩

theorem test_witness_ChainedEntryNeedsParameter :
    let s := { ready 8 0 0 0 with
      dispatch := { Agent.idle with program := [.cmd 0x0000000C#32] }, schedule := [.agent .dispatch] }
    s.schedule = [.agent .dispatch] ∧ (s.agent .dispatch).op = none ∧
      ProgLine.cmd 0x0000000C#32 ∈ (s.agent .dispatch).program ∧
      decodeLine s.params (.cmd 0x0000000C#32) = .ok .handlechained ∧ s.params.chainedEntry = false := by decide

/-- Enabled by either entry, and disabled for each reason. -/
theorem test_witness_DeliverStartsHandle :
    (let s := { ready 8 0 0 0 with
      params := { params with chainedEntry := true }, schedule := [.deliver true] }
     s.schedule = [.deliver true] ∧ s.ctl ≠ none ∧ s.handleBusy = false ∧ s.params.chainedEntry = true) ∧
    { ready 8 0 0 0 with ctl := none }.ctl = none ∧ { ready 8 0 0 0 with handleBusy := true }.handleBusy = true ∧
    (ready 8 0 0 0).params.chainedEntry = false := by decide

theorem test_witness_InitBuildsController : ∀ n, n = 0 ∨ n = 32 →
    let s := boot 0 0 0#32 (ready 0 0xFF 0x10 0)
    s.cur = .platform ∧ s.fresh ∧ s.ctl = none ∧ s.launch.windowPresent = true ∧ n ≤ 32 ∧ s.params.WF ∧
      LevelsFollowOut s := by
  rintro n (rfl | rfl) <;>
    exact ⟨by decide, by decide, by decide, by decide, by decide, by decide, levelsFollowOut_of_check (by decide)⟩

/-- One line too many, and no window (also with too many lines). -/
theorem test_witness_InitErrorsLeaveAbsent :
    (let s := boot 0 0 0#32 (ready 0 0 0 0); s.cur = .platform ∧ s.fresh ∧ s.ctl = none ∧ 32 < 33) ∧
    (let s := { boot 0 0 0#32 (ready 0 0 0 0) with launch := ⟨false, handles⟩ }
     s.cur = .platform ∧ s.fresh ∧ s.ctl = none ∧ s.launch.windowPresent = false) := by decide

theorem test_witness_InitHasNoStepWhileReady :
    { ready 8 0 0 0 with cur := .platform }.cur = .platform ∧
      { ready 8 0 0 0 with cur := .platform }.ctl = some (ctl 8) ∧ (ready 8 0 0 0).ctl = some (ctl 8) := by decide

theorem test_witness_OnlyInitStepsWhileAbsent :
    { ready 8 0 0 0 with ctl := none }.ctl = none ∧ ∀ n, Instr.dirin 0 ≠ .init n :=
  ⟨rfl, fun _ h => nomatch h⟩

theorem test_witness_LooseLatchSetsBits :
    (let s := { ready 8 0 8 0 with schedule := [.latch 8#32] }
     s.schedule = [.latch 8#32] ∧ s.params.latch = .loose) ∧
    (let s := { ready 8 0 8 0 with params := driven, schedule := [.latch 8#32] }
     s.schedule = [.latch 8#32] ∧ s.params.latch = .refined) := by decide

/-- The last line, and the first one past the count, under both latch models. -/
theorem test_witness_LevelLatchFollowsTrigger : ∀ i, i = 7 ∨ i = 8 →
    (let s := { ready 8 0x2A 0 0 with params := driven, schedule := [.latchLevel i] }
     s.schedule = [.latchLevel i] ∧ s.params.latch = .refined ∧ HardwareLines s 8) ∧
    (let s := { ready 8 0x2A 0 0 with schedule := [.latchLevel i] }
     s.schedule = [.latchLevel i] ∧ s.params.latch = .loose ∧ HardwareLines s 8) := by
  rintro i (rfl | rfl) <;>
    exact ⟨⟨rfl, rfl, .inr ⟨ctl 8, rfl, rfl, by decide⟩⟩, rfl, rfl, .inr ⟨ctl 8, rfl, rfl, by decide⟩⟩

/-- While Absent the last line, and the first one past the 32. -/
theorem test_witness_LevelLatchFollowsTrigger_absent : ∀ i, i = 31 ∨ i = 32 →
    let s := { ready 8 0x2A 0 0 with params := driven, ctl := none, schedule := [.latchLevel i] }
    s.schedule = [.latchLevel i] ∧ s.params.latch = .refined ∧ HardwareLines s 32 := by
  rintro i (rfl | rfl) <;> exact ⟨rfl, rfl, .inl ⟨rfl, rfl⟩⟩

/-- Enabled with a matching edge, enabled without one, and disabled (past the count, driving, Loose); while Absent. -/
theorem test_witness_LevelChangeLatchesEdges : ∀ i, i = 7 ∨ i = 8 → ∀ c, c = (0x4A#32 : Word) ∨ c = 0x6A#32 ∨ c = 5#32 →
    ∀ p, p = driven ∨ p = params →
    let s := { ready 8 c 0 0 with params := p, schedule := [.setLevel i true] }
    s.schedule = [.setLevel i true] ∧ HardwareLines s 8 ∧ HardwareLines { s with ctl := none } 32 :=
  fun _ _ _ _ _ _ => ⟨rfl, .inr ⟨ctl 8, rfl, rfl, by decide⟩, .inl ⟨rfl, rfl⟩⟩

theorem test_witness_HardwareNeverClearsNorConfigures : (∃ w, Move.latch 8#32 = .latch w) ∧
    { ready 8 0 1 0 with schedule := [.latch 8#32] }.schedule = [.latch 8#32] := ⟨⟨_, rfl⟩, rfl⟩

theorem test_witness_SoftwareNeverSetsStatusBits : ∃ t, ¬ writing.levelsDriven ∧ exec (.dirin 3) writing = .next t ∧
    t.irq.getLsbD 3 = true := ⟨_, by decide, rfl, by decide⟩

theorem test_witness_StepKeepsControllerAndParameters : ∃ t, step writing = .next t ∧ writing.ctl = some (ctl 8) ∧
    CountBounded writing := by
  refine ⟨_, rfl, rfl, fun c h => ?_⟩
  cases h; decide

theorem test_witness_StepKeepsLevelsFollowOut : ∃ t, LevelsFollowOut wired ∧ wired.levelsDriven ∧
    step { wired with schedule := [.setLevel 8 true] } = .next t :=
  ⟨_, levelsFollowOut_of_check (by decide), by decide, rfl⟩

theorem test_witness_EventsOnlyGrow : ∃ t, step writing = .next t := ⟨_, rfl⟩

theorem test_witness_CfgBeyondCountNeverChanges : ∃ t, writing.ctl = some (ctl 8) ∧ (ctl 8).n ≤ 32 ∧ writing.params.WF ∧
    step writing = .next t ∧ (ctl 8).n ≤ 8 := ⟨_, by decide, by decide, by decide, rfl, by decide⟩

/-- Another agent than the acting one, and the platform at HANDLE's return. -/
theorem test_witness_OperationsTouchNoOtherAgent : (∃ t, exec (.dirin 3) writing = .next t ∧ AgentId.dispatch ≠ writing.cur) ∧
    ∃ t, exec .handle returning = .next t ∧ AgentId.platform ≠ returning.cur :=
  ⟨⟨_, rfl, by decide⟩, ⟨_, rfl, by decide⟩⟩

theorem test_witness_LineBitsAndMasks : (31 < 32) ∧ (32 ≤ 32) := by decide
theorem test_witness_ConfigUpdatesBitByBit : 31 < 32 := by decide
theorem test_witness_TriggerEncodingAndMerge : 7 < 32 := by decide

end Sys2Proof.Tests
end

section
/-!
PROOFS. When the step refuses a whole program (30_encoding.md R97, 60_exceptions.md R293; log entry 14), and HANDLECHAINED
without `P_CHAINED_ENTRY` (00_scope.md R8, 44_dispatch.md R247).
-/

namespace Sys2Proof.Machine

/-- A scheduled agent takes its turn in the state without that move. -/
theorem step_of_schedule_agent {s : State} {a : AgentId} {rest : List Move} (h : s.schedule = .agent a :: rest) :
    step s = agentStep a { s with schedule := rest } := by
  unfold step takeMove; rw [h]

/-- One inadmissible line in the program of a scheduled agent between operations stops the step. -/
theorem step_refused_of_mem {s : State} {a : AgentId} {rest : List Move} {l : ProgLine} {e : Refusal}
    (hs : s.schedule = .agent a :: rest) (ho : (s.agent a).op = none) (hl : l ∈ (s.agent a).program)
    (he : lineRefusal s.params (contextOf a) l = some e) : ∃ r, step s = .refused r := by
  obtain ⟨r, hr⟩ := programRefusal_of_mem he hl
  have hag : ({ s with schedule := rest } : State).agent a = s.agent a := by cases a <;> rfl
  refine ⟨r, (step_of_schedule_agent hs).trans (agentStep_refused ?_ ?_)⟩
  · rw [hag]; exact ho
  · rw [hag]; exact hr

/-- Without `P_CHAINED_ENTRY` no context's program may hold HANDLECHAINED: it is the wrong context's, or it is the chained
entry that is not admitted. -/
theorem inadmissible_handlechained {p : Params} (c : Context) (hp : p.chainedEntry = false) :
    ∃ e, inadmissible p c .handlechained = some e := by
  by_cases hc : contextFor .handlechained = c
  · have hraw : isRaw .handlechained = false := rfl
    exact ⟨.chainedNotAdmitted, by unfold inadmissible; simp [hc, hraw, hp]⟩
  · exact ⟨.wrongContext, inadmissible_context hc⟩

/-- Without `P_CHAINED_ENTRY` HANDLECHAINED has no micro-step. -/
theorem exec_handlechained_refused {s : State} (hp : s.params.chainedEntry = false) :
    exec .handlechained s = .refused .chainedNotAdmitted := by
  simp [exec, execHandlechained, hp]

/-- Settles O40: the meaning refuses the operation, and its line refuses the program it stands in. -/
theorem chainedEntryNeedsParameter : Obligations.ChainedEntryNeedsParameter := by
  unfold Obligations.ChainedEntryNeedsParameter
  refine ⟨fun s hp => exec_handlechained_refused hp, fun s a rest l hs ho hl hd hp => ?_⟩
  obtain ⟨e, he⟩ := inadmissible_handlechained (contextOf a) hp
  exact step_refused_of_mem hs ho hl ((lineRefusal_ok hd).trans he)

end Sys2Proof.Machine
end

section
/-!
PROOFS. The rules of the state (10_state.md): what every micro-step and every step keeps of the parameters, the
controller, the events and the sticky bits, which operation a step runs, what is refused while Absent, and the state at reset.
-/

namespace Sys2Proof.Machine

/-! ### A step as one effect on the block -/

/-- The block and its configuration are the same: only the agents and the scheduling data may differ. -/
structure SameBlock (s e : State) : Prop where
  params : e.params = s.params
  launch : e.launch = s.launch
  cfg : e.cfg = s.cfg
  irq : e.irq = s.irq
  out : e.out = s.out
  level : e.level = s.level
  ctl : e.ctl = s.ctl
  lock : e.lock = s.lock
  busy : e.handleBusy = s.handleBusy
  events : e.events = s.events

theorem SameBlock.trans {s e f : State} (h : SameBlock s e) (k : SameBlock e f) : SameBlock s f :=
  ⟨k.params.trans h.params, k.launch.trans h.launch, k.cfg.trans h.cfg, k.irq.trans h.irq, k.out.trans h.out,
    k.level.trans h.level, k.ctl.trans h.ctl, k.lock.trans h.lock, k.busy.trans h.busy, k.events.trans h.events⟩

theorem sameBlock_enter (i : Instr) (s : State) : SameBlock s (enter i s) := by constructor <;> simp
theorem sameBlock_setMe (s : State) (g : Agent) : SameBlock s (s.setMe g) := by constructor <;> simp
theorem sameBlock_takeMove (s : State) : SameBlock s (takeMove s).2 := by constructor <;> simp
theorem sameBlock_setCur (s : State) (a : AgentId) : SameBlock s { s with cur := a } := by constructor <;> rfl

/-- Everything a step can leave, from the state `e` in which its move is taken and its operation has begun. -/
inductive StepEffect (e : State) : State → Prop where
  | micro {t : State} : Effect e t → StepEffect e t
  | deliver (chained : Bool) : StepEffect e (Machine.deliver chained e)
  | latch (m : Word) : StepEffect e (hwLatch m e)
  | latchLevel (i : Nat) : StepEffect e (hwLatchLevel i e)
  | setLevel (i : Nat) (v : Bool) : StepEffect e (hwSetLevel i v e)

/-- A scheduled agent's turn is one effect of a micro-step; the turn of an idle agent is that of a held one. -/
theorem agentStep_effect {a : AgentId} {s t : State} (h : agentStep a s = .next t) :
    ∃ e, SameBlock s e ∧ Effect e t := by
  obtain rfl | ⟨o, -, he⟩ | ⟨i, l, ls, -, -, -, -, he⟩ := agentStep_cases h
  · exact ⟨_, sameBlock_setCur s a, .held⟩
  · exact ⟨_, (sameBlock_setCur s a).trans (sameBlock_enter _ _), exec_effect he⟩
  · exact ⟨_, ((sameBlock_setCur s a).trans (sameBlock_setMe _ _)).trans (sameBlock_enter _ _), exec_effect he⟩

/-- Every step is one effect, from a state with the same block. -/
theorem step_effect {s t : State} (h : step s = .next t) : ∃ e, SameBlock s e ∧ StepEffect e t := by
  obtain ⟨a, -, ha⟩ | ⟨c, rfl⟩ | ⟨m, rfl⟩ | ⟨i, rfl⟩ | ⟨i, v, rfl⟩ := step_cases h
  · obtain ⟨e, hs, he⟩ := agentStep_effect ha
    exact ⟨e, (sameBlock_takeMove s).trans hs, .micro he⟩
  · exact ⟨_, sameBlock_takeMove s, .deliver c⟩
  · exact ⟨_, sameBlock_takeMove s, .latch m⟩
  · exact ⟨_, sameBlock_takeMove s, .latchLevel i⟩
  · exact ⟨_, sameBlock_takeMove s, .setLevel i v⟩

/-! ### Sticky bits -/

/-- Without Refined loopback a write sets no sticky bit: a CFG or OUT write leaves IRQ, an IRQ write clears. -/
theorem put_irq_clears {s t : State} {d : Word} {r : Reg} (hl : ¬ s.levelsDriven) (h : s.put d r = .ok t) {b : Nat}
    (hb : t.irq.getLsbD b = true) : s.irq.getLsbD b = true := by
  obtain ⟨i, -, rfl⟩ | ⟨-, rfl⟩ | ⟨-, rfl⟩ := put_cases h
  · rw [driveLevels_off (s := s.setCfg i (PinConfig.ofWord d)) _ hl] at hb
    simpa using hb
  · rw [setIrq_irq, getLsbD_clearBits, Bool.and_eq_true] at hb
    exact hb.1
  · rw [driveLevels_off (s := s.setOut (mergeBelow s.lineCount d s.out)) _ hl] at hb
    simpa using hb

/-- Without Refined loopback no micro-step sets a sticky bit: only a write touches IRQ. -/
theorem Effect.irq_clears {e t : State} (h : Effect e t) (hl : ¬ e.levelsDriven) {b : Nat}
    (hb : t.irq.getLsbD b = true) : e.irq.getLsbD b = true := by
  cases h with
  | write r d u hu | writeAnswer r d u hu => exact put_irq_clears hl hu (by simpa using hb)
  | _ => simpa using hb

/-- Settles O50: beginning an operation leaves the block, and no effect of a micro-step sets a sticky bit. -/
theorem softwareNeverSetsStatusBits : Obligations.SoftwareNeverSetsStatusBits := by
  unfold Obligations.SoftwareNeverSetsStatusBits
  intro s t i hl h b hb
  have hirq := (exec_effect h).irq_clears (by simpa [State.levelsDriven] using hl) hb
  simpa using hirq

/-! ### The controller and the parameters -/

/-- The parameters stay, and so does the controller unless a bring-up within the line maximum publishes it (10_state.md
R34 to R36). -/
structure KeepsController (s t : State) : Prop where
  params : t.params = s.params
  launch : t.launch = s.launch
  ctl : t.ctl = s.ctl ∨ s.ctl = none ∧ ∃ c, t.ctl = some c ∧ c.n ≤ 32

theorem Effect.keepsController {e t : State} (h : Effect e t) : KeepsController e t := by
  cases h with
  | write r d u hu | writeAnswer r d u hu =>
    have hq := quiet_put hu
    exact ⟨by simp [hq.params], by simp [hq.launch], .inl (by simp [hq.ctl])⟩
  | publish n hc hn => exact ⟨by simp, by simp, .inr ⟨hc, ⟨n, e.launch.map⟩, finish_ctl _ _, hn⟩⟩
  | _ => exact ⟨by simp, by simp, .inl (by simp)⟩

theorem StepEffect.keepsController {e t : State} (h : StepEffect e t) : KeepsController e t := by
  cases h with
  | micro he => exact he.keepsController
  | _ => exact ⟨by simp, by simp, .inl (by simp)⟩

theorem step_keepsController {s t : State} (h : step s = .next t) : KeepsController s t := by
  obtain ⟨e, hs, he⟩ := step_effect h
  obtain ⟨hp, hl, hc⟩ := he.keepsController
  rw [hs.params] at hp; rw [hs.launch] at hl; rw [hs.ctl] at hc
  exact ⟨hp, hl, hc⟩

theorem KeepsController.ready {s t : State} (h : KeepsController s t) {c : Controller} (hc : s.ctl = some c) :
    t.ctl = some c := by
  obtain hk | ⟨hn, -⟩ := h.ctl
  · exact hk.trans hc
  · rw [hn] at hc; cases hc

theorem KeepsController.countBounded {s t : State} (h : KeepsController s t) (hb : CountBounded s) :
    CountBounded t := by
  intro c hc
  obtain hk | ⟨-, d, hd, hn⟩ := h.ctl
  · exact hb c (hk.symm.trans hc)
  · rw [hd] at hc; cases hc; exact hn

/-- Settles O51: the one effect that touches it is the publish of an Absent controller. -/
theorem stepKeepsControllerAndParameters : Obligations.StepKeepsControllerAndParameters := by
  unfold Obligations.StepKeepsControllerAndParameters
  intro s t h
  have hk := step_keepsController h
  exact ⟨hk.params, hk.launch, fun _ => hk.ready, hk.countBounded⟩

/-! ### Events -/

/-- `events` is as it was, or has one entry more at its end (10_state.md R39). -/
def AppendsEvent (s t : State) : Prop := t.events = s.events ∨ ∃ x, t.events = s.events ++ [x]

theorem Effect.appendsEvent {e t : State} (h : Effect e t) : AppendsEvent e t := by
  cases h with
  | write r d u hu | writeAnswer r d u hu => exact .inl (by simp [(quiet_put hu).events])
  | event x => exact .inr ⟨x, by simp⟩
  | chainedEnd => exact .inr ⟨.chainedExit, by simp⟩
  | _ => exact .inl (by simp)

theorem StepEffect.appendsEvent {e t : State} (h : StepEffect e t) : AppendsEvent e t := by
  cases h with
  | micro he => exact he.appendsEvent
  | _ => exact .inl (by simp)

/-- Settles O53: a Dispatch or a marker appends its one event, and nothing else touches the events. -/
theorem eventsOnlyGrow : Obligations.EventsOnlyGrow := by
  unfold Obligations.EventsOnlyGrow
  intro s t h
  obtain ⟨e, hs, he⟩ := step_effect h
  obtain hk | ⟨x, hx⟩ := he.appendsEvent
  · exact ⟨[], by rw [hk, hs.events, List.append_nil], Nat.zero_le _⟩
  · exact ⟨[x], by rw [hx, hs.events], Nat.le_refl _⟩

/-! ### Which operation a step runs -/

section
variable {a : AgentId} {s t : State} (ht : t = { s with cur := a })
include ht

/-- An agent in the middle of an operation goes on with it (10_state.md R43). -/
theorem agentStep_inFlight {o : InFlight} (ho : t.me.op = some o) : agentStep a s = exec o.instr t := by
  subst ht
  unfold agentStep fetch; simp only [ho]

/-- An agent between operations runs the first line of its admitted program (R43). -/
theorem agentStep_program {l : ProgLine} {ls : List ProgLine} {i : Instr} (ho : t.me.op = none)
    (hp : t.me.program = l :: ls) (hr : programRefusal s.params (contextOf a) (l :: ls) = none)
    (hd : decodeLine s.params l = .ok i) : agentStep a s = exec i (t.setMe { t.me with program := ls }) := by
  subst ht
  unfold agentStep fetch; simp only [ho, hp, hr, hd]

end

/-- Settles O6: the scheduled agent's turn, between operations and in the middle of one. -/
theorem stepRunsDecodedInstruction : Obligations.StepRunsDecodedInstruction := by
  unfold Obligations.StepRunsDecodedInstruction
  intro s a rest hs
  refine ⟨fun l ls i ho hp hr hd => ?_, fun o ho => ?_⟩
  · exact (step_of_schedule_agent hs).trans (agentStep_program rfl ho hp hr hd)
  · exact (step_of_schedule_agent hs).trans (agentStep_inFlight rfl ho)

/-! ### While Absent -/

section
variable {s : State} (ha : s.ctl = none)
include ha

theorem lineOp_absent (i : Instr) (index : Nat) (bad : Result) (k : State → Out) :
    ∃ r, lineOp i index bad s k = .refused r := by
  obtain ⟨c, -, hc, -⟩ | ⟨c, -, hc, -⟩ | hr := lineOp_cases i index bad s k
  · rw [ha] at hc; cases hc
  · rw [ha] at hc; cases hc
  · exact hr

theorem dispatchOp_absent (i : Instr) (k : Controller → State → Out) : ∃ r, dispatchOp i s k = .refused r := by
  simp only [dispatchOp, inContext, whenReady, ha]
  split <;> exact ⟨_, rfl⟩

theorem rawAccess_absent (i : Instr) (k : Controller → State → Out) : ∃ r, rawAccess i s k = .refused r := by
  simp only [rawAccess, inContext, whenReady, ha]
  split
  · split <;> exact ⟨_, rfl⟩
  · exact ⟨_, rfl⟩

theorem exec_handlechained_absent : ∃ r, exec .handlechained s = .refused r := by
  cases hp : s.params.chainedEntry with
  | false => exact ⟨_, exec_handlechained_refused hp⟩
  | true =>
    simp only [exec, execHandlechained, hp, if_true]
    exact dispatchOp_absent ha _ _

end

/-- Settles O45: each operation but INIT asks for a Ready controller before its first micro-step. -/
theorem onlyInitStepsWhileAbsent : Obligations.OnlyInitStepsWhileAbsent := by
  unfold Obligations.OnlyInitStepsWhileAbsent
  intro s i ha hi
  cases i with
  | init n => exact absurd rfl (hi n)
  | handle => simp only [exec, execHandle]; exact dispatchOp_absent ha _ _
  | handlechained => exact exec_handlechained_absent ha
  | wrIn d => exact ⟨_, rfl⟩
  | rdCfg | wrCfg | rdIrq | wrIrq | rdIn | rdOut | wrOut =>
    simp only [exec, execRdCfg, execWrCfg, execRdIrq, execWrIrq, execRdIn, execRdOut, execWrOut]
    exact rawAccess_absent ha _ _
  | getdir | dirin | dirout | getval | setval | settype | irqen | irqdis | irqmask | irqunmask =>
    simp only [exec, execGetdir, execDirin, execDirout, execGetval, execSetval, execSettype, execIrqen, execIrqdis,
      execIrqmask, execIrqunmask]
    exact lineOp_absent ha _ _ _ _

/-! ### Reset -/

/-- Settles O56: the fields as reset sets them, and every agent idle. -/
theorem resetIsAbsentAndIdle : Obligations.ResetIsAbsentAndIdle := by
  unfold Obligations.ResetIsAbsentAndIdle
  exact ⟨rfl, rfl, rfl, rfl, agent_reset⟩

/-- Nothing is in flight at reset. -/
theorem reset_op {a : AgentId} {o : InFlight} : (State.reset.agent a).op ≠ some o := by
  rw [agent_reset]; exact nofun

theorem reset_countBounded : CountBounded State.reset := fun _ hc => nomatch hc

theorem reset_lockDiscipline : LockDiscipline State.reset where
  critical_holds _ _ ho := absurd ho reset_op
  holder_critical _ hl := nomatch hl
  in_context _ _ ho := absurd ho reset_op
  checked _ _ _ ho := absurd ho reset_op
  absent_init _ _ _ ho := absurd ho reset_op
  init_absent _ _ _ ho := absurd ho reset_op
  idle_dispatch _ := rfl
  chained_admitted _ ho := nomatch ho

theorem reset_noLostUpdate : NoLostUpdate State.reset where
  discipline := reset_lockDiscipline
  legal_map := by decide
  bounded := reset_countBounded
  raw_off := rfl
  current _ _ ho := absurd ho reset_op

/-- The power-on level of a line that drives under loopback is OUT's bit (10_state.md R41). -/
theorem getLsbD_resetLevel {loopback : Bool} {cfg : Vector PinConfig 32} (out r : Word) {b : Nat} (hb : b < 32)
    (hl : loopback = true) (hd : cfg[b].driving = true) :
    (resetLevel loopback cfg out r).getLsbD b = out.getLsbD b := by
  have hdrive : (loopback && cfg[b].eo && cfg[b].oe && !cfg[b].ei) = true := by
    simpa [hl, PinConfig.driving, Bool.and_assoc] using hd
  rw [resetLevel, BitVec.getLsbD_ofFnLE, dif_pos hb]
  exact if_pos hdrive

/-- Settles O57: nothing is in flight, the default parameters are legal, and the levels are those of `resetLevel`. -/
theorem resetMeetsInvariants : Obligations.ResetMeetsInvariants := by
  unfold Obligations.ResetMeetsInvariants
  refine ⟨reset_countBounded, reset_lockDiscipline, reset_noLostUpdate, fun b hb hl hd => ?_⟩
  have hcfg : State.reset.cfgAt b = resetCfg[b] := dif_pos hb
  exact getLsbD_resetLevel _ _ hb hl (hcfg ▸ hd)

end Sys2Proof.Machine
end

section
/-!
PROOFS. The operations as tables of micro-steps (00_scope.md R15, 10_state.md R43): which checks an operation has passed
when it goes on, which micro-step stands at each `mpc`, and that `exec` runs that micro-step. What holds at every `mpc` of
an operation (20_memory.md R70 to R75, R80) is then a fact about the table.
-/

namespace Sys2Proof.Machine

/-! ### The checks -/

/-- Operation `i` of agent `a` has passed its checks: the context (60_exceptions.md R305), the index (R291), Ready for
every operation but INIT (10_state.md R34, 45_controller.md R273), the delivery and the chained entry (44_dispatch.md
R240, R247). -/
structure State.Checked (s : State) (a : AgentId) (i : Instr) : Prop where
  context : contextFor i = contextOf a
  index : ∀ j, indexOf i = some j → j < s.lineCount
  absent_iff : s.ctl = none ↔ ∃ n, i = .init n
  delivered : a = .dispatch → s.handleBusy = true
  chained : i = .handlechained → s.params.chainedEntry = true

/-- A raw access is admitted, and none is a write to IN (40_register_window.md R125, R129). -/
def RawAdmitted (p : Params) (i : Instr) : Prop := isRaw i = true → p.rawBus = true ∧ ∀ d, i ≠ .wrIn d

/-- Operation `i` goes on to its micro-step for the acting agent. -/
structure Admitted (s : State) (i : Instr) : Prop where
  checked : s.Checked s.cur i
  raw : RawAdmitted s.params i

/-- The operation returned at once because of its index, with no access and no lock (60_exceptions.md R291). -/
def RejectedIndex (s : State) (i : Instr) (t : State) : Prop :=
  (∃ j, indexOf i = some j ∧ s.lineCount ≤ j) ∧ ∃ r, t = finish r (enter i s)

theorem rawAdmitted_of_not_raw {p : Params} {i : Instr} (h : isRaw i = false) : RawAdmitted p i :=
  fun hr => absurd (h.symm.trans hr) Bool.false_ne_true

theorem ne_dispatch_of_call {a : AgentId} (h : contextOf a = .call) : a ≠ .dispatch := by
  rintro rfl; cases h

/-- What a caller's operation on a Ready controller has passed. -/
theorem checked_of_call {s : State} {c : Controller} {a : AgentId} {i : Instr} (hc : contextOf a = .call)
    (hr : s.ctl = some c) (hi : contextFor i = .call) (hx : ∀ j, indexOf i = some j → j < c.n) : s.Checked a i where
  context := hi.trans hc.symm
  index := by rw [lineCount_ready hr]; exact hx
  absent_iff := by
    constructor
    · intro h; rw [hr] at h; cases h
    · rintro ⟨n, rfl⟩; cases hi
  delivered h := absurd h (ne_dispatch_of_call hc)
  chained h := by subst h; cases hi

/-- What HANDLE and HANDLECHAINED have passed. -/
theorem checked_of_delivered {s : State} {c : Controller} {i : Instr} (hr : s.ctl = some c) (hb : s.handleBusy = true)
    (hi : i = .handle ∨ i = .handlechained ∧ s.params.chainedEntry = true) : s.Checked .dispatch i := by
  have hctl : s.ctl ≠ none := by rw [hr]; exact nofun
  obtain rfl | ⟨rfl, hp⟩ := hi
  · exact ⟨rfl, nofun, ⟨fun h => absurd h hctl, nofun⟩, fun _ => hb, nofun⟩
  · exact ⟨rfl, nofun, ⟨fun h => absurd h hctl, nofun⟩, fun _ => hb, fun _ => hp⟩

theorem lineOp_admitted {i : Instr} {index : Nat} {bad : Result} {s t : State} {k : State → Out}
    (hi : contextFor i = .call) (hx : indexOf i = some index) (hw : isRaw i = false)
    (h : lineOp i index bad s k = .next t) : Admitted s i ∨ RejectedIndex s i t := by
  obtain ⟨c, hc, hr, hn, -⟩ | ⟨c, -, hr, hn, he⟩ | ⟨x, he⟩ := lineOp_cases i index bad s k
  · refine .inl ⟨checked_of_call hc hr hi fun j hj => ?_, rawAdmitted_of_not_raw hw⟩
    rw [hx] at hj; cases hj; exact hn
  · rw [he] at h; cases h
    exact .inr ⟨⟨index, hx, by rw [lineCount_ready hr]; exact hn⟩, bad, rfl⟩
  · rw [he] at h; cases h

theorem rawAccess_admitted {i : Instr} {s t : State} {k : Controller → State → Out} (hi : contextFor i = .call)
    (hw : ∀ d, i ≠ .wrIn d) (hx : ∀ c j, indexOf i = some j → k c (enter i s) = .next t → j < c.n)
    (h : rawAccess i s k = .next t) : Admitted s i := by
  obtain ⟨c, hr, hc, hb, hk⟩ := rawAccess_next h
  exact ⟨checked_of_call hc hr hi fun j hj => hx c j hj hk, fun _ => ⟨hb, hw⟩⟩

/-- An operation that answers a next state has passed its checks, or was rejected for its index alone. -/
theorem exec_admitted {i : Instr} {s t : State} (h : exec i s = .next t) : Admitted s i ∨ RejectedIndex s i t := by
  cases i with
  | init n =>
    simp only [exec, execInit, inContext] at h
    split at h
    case isFalse => cases h
    case isTrue hc =>
      cases hr : s.ctl with
      | some c => rw [hr] at h; cases h
      | none =>
        have hd : s.cur ≠ .dispatch := by intro hd; rw [hd] at hc; cases hc
        exact .inl ⟨⟨hc.symm, nofun, ⟨fun _ => ⟨n, rfl⟩, fun _ => hr⟩, fun hx => absurd hx hd, nofun⟩, nofun⟩
  | getdir | dirin | dirout | getval | setval | settype | irqen | irqdis | irqmask | irqunmask =>
    simp only [exec, execGetdir, execDirin, execDirout, execGetval, execSetval, execSettype, execIrqen, execIrqdis,
      execIrqmask, execIrqunmask] at h
    exact lineOp_admitted rfl rfl rfl h
  | handle =>
    simp only [exec, execHandle] at h
    obtain ⟨c, hr, hc, hb, -⟩ := dispatchOp_next h
    exact .inl ⟨hc ▸ checked_of_delivered hr hb (.inl rfl), nofun⟩
  | handlechained =>
    simp only [exec, execHandlechained] at h
    split at h
    case isFalse => cases h
    case isTrue hp =>
      obtain ⟨c, hr, hc, hb, -⟩ := dispatchOp_next h
      exact .inl ⟨hc ▸ checked_of_delivered hr hb (.inr ⟨rfl, hp⟩), nofun⟩
  | wrIn d => cases h
  | rdCfg j =>
    simp only [exec, execRdCfg] at h
    refine .inl (rawAccess_admitted rfl nofun (fun c j hj hk => ?_) h)
    cases hj; exact (belowCount_next hk).1
  | wrCfg j d =>
    simp only [exec, execWrCfg] at h
    refine .inl (rawAccess_admitted rfl nofun (fun c j hj hk => ?_) h)
    cases hj; exact (belowCount_next hk).1
  | rdIrq | wrIrq | rdIn | rdOut | wrOut =>
    simp only [exec, execRdIrq, execWrIrq, execRdIn, execRdOut, execWrOut] at h
    exact .inl (rawAccess_admitted rfl nofun nofun h)

/-! ### The micro-steps -/

/-- The operation after its micro-step, with the local `w`. -/
def InFlight.next (o : InFlight) (w : Word) : InFlight := { o with mpc := o.mpc + 1, tmp := w }

/-- One micro-step, as the operations are made of them (R15): `done`, `handleDone`, `chainedDone`, the three answers and
`publish` end the operation. -/
inductive Micro where
  | acquire
  | read (r : Reg) (f : Word → Word)
  | write (r : Reg) (d : Word)
  | event (x : Event)
  | release
  | done
  | handleDone
  | chainedDone
  | answer (r : Result)
  | readAnswer (r : Reg) (f : Word → Result)
  | writeAnswer (r : Reg) (d : Word)
  | publish (n : Nat)

/-- What a micro-step does, in the state in which its operation has begun. -/
def Micro.run (e : State) : Micro → Out
  | .acquire => Machine.acquire e
  | .read r f => memRead (e.params.offOf r) 4 e fun w t => advance (f w) t
  | .write r d => writeStep (e.params.offOf r) d e
  | .event x => .next (advance e.tmp (addEvent x e))
  | .release => releaseStep e
  | .done => releaseOk e
  | .handleDone => Machine.release e returnHandle
  | .chainedDone => .next (returnHandle (addEvent .chainedExit e))
  | .answer r => .next (finish r e)
  | .readAnswer r f => memRead (e.params.offOf r) 4 e fun w t => finish (f w) t
  | .writeAnswer r d => memWrite (e.params.offOf r) 4 d e (finish .ok)
  | .publish n => .next (finish .ok (Machine.publish n e))

/-- The micro-steps of a locked read-modify-write (00_scope.md R18) that writes `d` back. -/
def rmwMicro (r : Reg) (d : Word) : Nat → Micro
  | 0 => .acquire
  | 1 => .read r id
  | 2 => .write r d
  | _ => .done

/-- The micro-steps of INIT once its arguments are checked (45_controller.md R270), with the local `w`. -/
def initMicro (n : Nat) (w : Word) (k : Nat) : Micro :=
  if k < 2 * n then if k % 2 = 0 then .read (.cfg (k / 2)) id else .write (.cfg (k / 2)) (cfgIntDisable w)
  else .publish n

/-- The handle of line `i` (10_state.md R36). -/
def State.handleOf (s : State) (i : Nat) : Handle :=
  match s.ctl with
  | none => default
  | some c => c.handleOf i

/-- The micro-steps of a scan with snapshot `w` (44_dispatch.md R240), ended by `last`. -/
def scanMicro (s : State) (w : Word) (last : Micro) : Nat → Micro
  | 0 => .acquire
  | 1 => .read .irq (· &&& validMask s.lineCount)
  | k + 2 =>
    match (pendingLines s.lineCount w)[k / 2]? with
    | some i => if k % 2 = 0 then .write .irq (lineBit i) else .event (.irq i (s.handleOf i))
    | none => last

/-- The micro-step at which an operation in flight stands. -/
def microOf (s : State) (o : InFlight) : Micro :=
  match o.instr with
  | .init n =>
    if s.launch.windowPresent = false then .answer (.err .hardwareUnavailable)
    else if maxLines < n then .answer (.err .tooManyLines)
    else initMicro n o.tmp o.mpc
  | .getdir i => .readAnswer (.cfg i) fun w => .okDirection (decodeDirection w)
  | .dirin i => rmwMicro (.cfg i) (cfgInput o.tmp) o.mpc
  | .dirout i v =>
    match o.mpc with
    | 0 => .acquire
    | 1 => .write (.cfg i) cfgOutput
    | 2 => .read .out id
    | 3 => .write .out (setBit o.tmp i v)
    | _ => .done
  | .getval i => .readAnswer .inp fun w => .okBit (w.getLsbD i)
  | .setval i v => rmwMicro .out (setBit o.tmp i v) o.mpc
  | .settype i r => rmwMicro (.cfg i) (cfgTrigger s.params.merge o.tmp (encodeTrigger r)) o.mpc
  | .irqen i =>
    match o.mpc with
    | 0 => .acquire
    | 1 => .read (.cfg i) id
    | 2 => .write (.cfg i) (cfgInput o.tmp)
    | 3 => .release
    | 4 => .acquire
    | 5 => .write .irq (lineBit i)
    | 6 => .release
    | 7 => .acquire
    | 8 => .read (.cfg i) id
    | 9 => .write (.cfg i) (cfgIntEnable o.tmp)
    | _ => .done
  | .irqdis i => rmwMicro (.cfg i) (cfgIntDisable o.tmp) o.mpc
  | .irqmask _ => .answer .ok
  | .irqunmask _ => .answer .ok
  | .handle => scanMicro s o.tmp .handleDone o.mpc
  | .handlechained =>
    match o.mpc with
    | 0 => .event .chainedEnter
    | m + 1 => if m ≤ scanLength s.lineCount o.tmp then scanMicro s o.tmp .release m else .chainedDone
  | .rdCfg i => .readAnswer (.cfg i) .okWord
  | .wrCfg i d => .writeAnswer (.cfg i) d
  | .rdIrq => .readAnswer .irq .okWord
  | .wrIrq d => .writeAnswer .irq d
  | .rdIn => .readAnswer .inp .okWord
  | .wrIn d => .writeAnswer .inp d
  | .rdOut => .readAnswer .out .okWord
  | .wrOut d => .writeAnswer .out d

/-! ### `exec` runs the micro-step of the table -/

theorem readStep_eq_run (r : Reg) (e : State) : readStep (e.params.offOf r) e = (Micro.read r id).run e := rfl

theorem lockedRmw_eq_run {p : Params} {e : State} (hp : e.params = p) (r : Reg) (f : Word → Word) :
    lockedRmw (p.offOf r) f e = (rmwMicro r (f e.tmp) e.mpc).run e := by
  subst hp
  unfold lockedRmw
  split <;> simp_all [rmwMicro, Micro.run, readStep_eq_run]

theorem scanStep_eq_run {c : Controller} {e : State} {last : Micro} {k : State → Out} (hr : e.ctl = some c)
    (hk : k e = last.run e) (m : Nat) : scanStep c m e k = (scanMicro e e.tmp last m).run e := by
  have hn : e.lineCount = c.n := lineCount_ready hr
  have hh : ∀ i, e.handleOf i = c.handleOf i := fun i => by simp [State.handleOf, hr]
  match m with
  | 0 => rfl
  | 1 => simp [scanStep, scanMicro, Micro.run, hn]; rfl
  | j + 2 =>
    simp only [scanStep, serviceStep, scanMicro, hn]
    cases (pendingLines c.n e.tmp)[j / 2]? with
    | none => exact hk
    | some i =>
      simp only [hh]
      split <;> rfl

@[simp] theorem handleOf_enter (i : Instr) (s : State) (j : Nat) : (enter i s).handleOf j = s.handleOf j := by
  simp [State.handleOf]

/-- The table reads the launch parameters, the parameters and the controller alone. -/
theorem microOf_enter (i : Instr) (s : State) (o : InFlight) : microOf (enter i s) o = microOf s o := by
  simp only [microOf, scanMicro, enter_launch, enter_params, lineCount_enter, handleOf_enter]

/-- The operation as it stands at its next micro-step: begun, or in the middle. -/
def State.standing (s : State) (i : Instr) : InFlight := ⟨i, (enter i s).mpc, (enter i s).tmp⟩

theorem initStep_eq_run (n k : Nat) (e : State) : initStep n k e = (initMicro n e.tmp k).run e := by
  unfold initStep initMicro
  split
  · split <;> rfl
  · rfl

/-- Past its checks, an operation's turn is the micro-step at which it stands. -/
theorem exec_eq_run {i : Instr} {s : State} (h : Admitted s i) :
    exec i s = (microOf s (s.standing i)).run (enter i s) := by
  obtain ⟨⟨hctx, hidx, habs, hbusy, hch⟩, hraw⟩ := h
  cases hr : s.ctl with
  | none =>
    obtain ⟨n, rfl⟩ := habs.mp hr
    have hc : contextOf s.cur = .platform := hctx.symm
    simp only [exec, execInit, inContext, hc, if_true, hr, enter_launch, initStep_eq_run, microOf, State.standing,
      apply_ite (Micro.run (enter (.init n) s))]
    rfl
  | some c =>
    have hn : ∀ n, i ≠ .init n := fun n hi => by rw [habs.mpr ⟨n, hi⟩] at hr; cases hr
    rw [lineCount_ready hr] at hidx
    cases i with
    | init n => exact absurd rfl (hn n)
    | getdir i => rw [exec_getdir hctx.symm hr (hidx _ rfl), ← enter_params (.getdir i)]; rfl
    | dirin i => exact (exec_dirin hctx.symm hr (hidx _ rfl)).trans (lockedRmw_eq_run (enter_params _ _) (.cfg i) _)
    | dirout i v =>
      rw [exec_dirout hctx.symm hr (hidx _ rfl), ← enter_params (.dirout i v)]
      simp only [microOf, State.standing]
      generalize (enter (.dirout i v) s).mpc = k
      rcases k with _ | _ | _ | _ | k <;> rfl
    | getval i => rw [exec_getval hctx.symm hr (hidx _ rfl), ← enter_params (.getval i)]; rfl
    | setval i v => exact (exec_setval hctx.symm hr (hidx _ rfl) v).trans (lockedRmw_eq_run (enter_params _ _) .out _)
    | settype i r =>
      exact (exec_settype hctx.symm hr (hidx _ rfl) r).trans (lockedRmw_eq_run (enter_params _ _) (.cfg i) _)
    | irqen i =>
      rw [exec_irqen hctx.symm hr (hidx _ rfl), ← enter_params (.irqen i)]
      simp only [microOf, State.standing]
      generalize (enter (.irqen i) s).mpc = k
      rcases k with _ | _ | _ | _ | _ | _ | _ | _ | _ | _ | k <;> rfl
    | irqdis i => exact (exec_irqdis hctx.symm hr (hidx _ rfl)).trans (lockedRmw_eq_run (enter_params _ _) (.cfg i) _)
    | irqmask i => exact exec_irqmask hctx.symm hr (hidx _ rfl)
    | irqunmask i => exact exec_irqunmask hctx.symm hr (hidx _ rfl)
    | handle =>
      have hd : s.cur = .dispatch := by revert hctx; cases s.cur <;> simp [contextFor, contextOf]
      rw [exec_handle hd hr (hbusy hd), ← microOf_enter .handle]
      exact scanStep_eq_run (last := .handleDone) ((enter_ctl _ _).trans hr) rfl _
    | handlechained =>
      have hd : s.cur = .dispatch := by revert hctx; cases s.cur <;> simp [contextFor, contextOf]
      rw [exec_handlechained hd hr (hbusy hd) (hch rfl), ← microOf_enter .handlechained]
      simp only [microOf, State.standing, lineCount_enter, lineCount_ready hr]
      cases (enter .handlechained s).mpc with
      | zero => rfl
      | succ m =>
        simp only [apply_ite (Micro.run (enter .handlechained s))]
        split
        · exact scanStep_eq_run (last := .release) ((enter_ctl _ _).trans hr) rfl _
        · rfl
    | wrIn d => exact absurd rfl ((hraw rfl).2 d)
    | rdCfg i =>
      rw [exec_rdCfg hctx.symm hr (hraw rfl).1 (hidx _ rfl), ← enter_params (.rdCfg i)]; rfl
    | wrCfg i d =>
      rw [exec_wrCfg hctx.symm hr (hraw rfl).1 (hidx _ rfl), ← enter_params (.wrCfg i d)]; rfl
    | rdIrq => rw [exec_rdIrq hctx.symm hr (hraw rfl).1, ← enter_params .rdIrq]; rfl
    | wrIrq d => rw [exec_wrIrq hctx.symm hr (hraw rfl).1, ← enter_params (.wrIrq d)]; rfl
    | rdIn => rw [exec_rdIn hctx.symm hr (hraw rfl).1, ← enter_params .rdIn]; rfl
    | rdOut => rw [exec_rdOut hctx.symm hr (hraw rfl).1, ← enter_params .rdOut]; rfl
    | wrOut d => rw [exec_wrOut hctx.symm hr (hraw rfl).1, ← enter_params (.wrOut d)]; rfl

/-! ### What a micro-step can leave -/

/-- Everything a micro-step can leave; one that is not enabled leaves its agent where it stands (20_memory.md R70,
R71). -/
inductive Micro.Leaves (e : State) : Micro → State → Prop where
  | held (m : Micro) : Leaves e m e
  | acquire : e.lock = none → Leaves e .acquire (advance e.tmp (e.setLock (some e.cur)))
  | read {r x : Reg} (f : Word → Word) : resolve e.params (e.params.offOf r) 4 = .ok x →
      Leaves e (.read r f) (advance (f (e.view e.draw x)) e.drew)
  | write (r : Reg) {x : Reg} {d : Word} {u : State} : e.put d x = .ok u → Leaves e (.write r d) (advance e.tmp u)
  | event (x : Event) : Leaves e (.event x) (advance e.tmp (addEvent x e))
  | release : e.lock = some e.cur → Leaves e .release (advance e.tmp (e.setLock none))
  | done : e.lock = some e.cur → Leaves e .done (finish .ok (e.setLock none))
  | handleDone : e.lock = some e.cur → Leaves e .handleDone (returnHandle (e.setLock none))
  | chainedDone : Leaves e .chainedDone (returnHandle (addEvent .chainedExit e))
  | answer (r : Result) : Leaves e (.answer r) (finish r e)
  | readAnswer (r x : Reg) (f : Word → Result) : Leaves e (.readAnswer r f) (finish (f (e.view e.draw x)) e.drew)
  | writeAnswer (r : Reg) {x : Reg} {d : Word} {u : State} : e.put d x = .ok u →
      Leaves e (.writeAnswer r d) (finish .ok u)
  | publish (n : Nat) : Leaves e (.publish n) (finish .ok (Machine.publish n e))

theorem Micro.leaves_of_run {m : Micro} {e t : State} (h : m.run e = .next t) : m.Leaves e t := by
  cases m <;> simp only [Micro.run] at h
  case acquire =>
    obtain ⟨hl, he⟩ | ⟨-, he⟩ := acquire_cases e <;> rw [he] at h <;> cases h
    · exact .acquire hl
    · exact .held _
  case read r f =>
    obtain ⟨x, hx, he⟩ | ⟨x, he⟩ := memRead_cases (e.params.offOf r) 4 e (fun w t => advance (f w) t) <;>
      rw [he] at h <;> cases h
    exact .read f hx
  case write r d =>
    unfold writeStep at h
    obtain ⟨x, u, -, hu, he⟩ | ⟨x, he⟩ := memWrite_cases (e.params.offOf r) 4 d e (advance e.tmp) <;>
      rw [he] at h <;> cases h
    exact .write r hu
  case release =>
    unfold releaseStep at h
    obtain ⟨hl, he⟩ | ⟨-, he⟩ := release_cases e (fun t => advance t.tmp t) <;> rw [he] at h <;> cases h
    · exact .release hl
    · exact .held _
  case done =>
    unfold releaseOk at h
    obtain ⟨hl, he⟩ | ⟨-, he⟩ := release_cases e (finish .ok) <;> rw [he] at h <;> cases h
    · exact .done hl
    · exact .held _
  case handleDone =>
    obtain ⟨hl, he⟩ | ⟨-, he⟩ := release_cases e returnHandle <;> rw [he] at h <;> cases h
    · exact .handleDone hl
    · exact .held _
  case readAnswer r f =>
    obtain ⟨x, -, he⟩ | ⟨x, he⟩ := memRead_cases (e.params.offOf r) 4 e (fun w t => finish (f w) t) <;>
      rw [he] at h <;> cases h
    exact .readAnswer r x f
  case writeAnswer r d =>
    obtain ⟨x, u, -, hu, he⟩ | ⟨x, he⟩ := memWrite_cases (e.params.offOf r) 4 d e (finish .ok) <;>
      rw [he] at h <;> cases h
    exact .writeAnswer r hu
  case event x => cases h; exact .event x
  case chainedDone => cases h; exact .chainedDone
  case answer r => cases h; exact .answer r
  case publish n => cases h; exact .publish n

end Sys2Proof.Machine
end

section
/-!
PROOFS. What the tables say at every `mpc`: how each micro-step fits the critical sections of its operation and how far
the Release is, which register it accesses, and what the operation has read when it goes on.
-/

namespace Sys2Proof.Machine

/-! ### Critical sections and the way to the Release -/

theorem inCritical_irqen (n i k : Nat) (w : Word) :
    inCritical n ⟨.irqen i, k, w⟩ = decide (1 ≤ k ∧ k ≤ 3 ∨ 5 ≤ k ∧ k ≤ 6 ∨ 8 ≤ k) := rfl

theorem inCritical_dirout (n i k : Nat) (v : Bool) (w : Word) :
    inCritical n ⟨.dirout i v, k, w⟩ = decide (1 ≤ k) := rfl

theorem inCritical_handle (n k : Nat) (w : Word) : inCritical n ⟨.handle, k, w⟩ = decide (1 ≤ k) := rfl

theorem inCritical_handlechained (n k : Nat) (w : Word) :
    inCritical n ⟨.handlechained, k, w⟩ = decide (2 ≤ k ∧ k ≤ scanLength n w + 1) := rfl

/-- The micro-steps a critical section has yet before its Release, at most (20_memory.md R75). -/
def stepsLeft (n : Nat) (o : InFlight) : Nat :=
  match o.instr with
  | .dirin _ | .setval _ _ | .settype _ _ | .irqdis _ => 3 - o.mpc
  | .dirout _ _ => 4 - o.mpc
  | .irqen _ => if o.mpc ≤ 3 then 3 - o.mpc else if o.mpc ≤ 6 then 6 - o.mpc else 10 - o.mpc
  | .handle => 2 * n + 2 - o.mpc
  | .handlechained => 2 * n + 3 - o.mpc
  | _ => 0

/-- The operation stays inside its critical section or outside, and inside it comes nearer to the Release. -/
def StaysInside (n : Nat) (o p : InFlight) : Prop :=
  inCritical n p = inCritical n o ∧ (inCritical n o = true → stepsLeft n p < stepsLeft n o)

/-- How a micro-step fits the critical sections of the operation that stands at it (20_memory.md R70 to R73): an Acquire
goes in, a Release goes out, a write is made inside or by INIT, an answer is given outside. -/
def Micro.Fits (n : Nat) (o : InFlight) : Micro → Prop
  | .acquire => inCritical n o = false ∧ inCritical n (o.next o.tmp) = true
  | .read _ f => ∀ w, StaysInside n o (o.next (f w))
  | .write _ _ => StaysInside n o (o.next o.tmp) ∧ (inCritical n o = true ∨ ∃ m, o.instr = .init m)
  | .event _ => StaysInside n o (o.next o.tmp)
  | .release => inCritical n (o.next o.tmp) = false
  | .done => True
  | .handleDone => contextFor o.instr = .interrupt
  | .chainedDone => inCritical n o = false ∧ contextFor o.instr = .interrupt
  | .answer _ | .readAnswer _ _ => inCritical n o = false
  | .writeAnswer _ _ => inCritical n o = false ∧ isRaw o.instr = true
  | .publish m => inCritical n o = false ∧ o.instr = .init m

/-- The operations that are critical from their Acquire to their return. -/
theorem rmwMicro_fits {n : Nat} {i : Instr} (hc : ∀ k w, inCritical n ⟨i, k, w⟩ = decide (1 ≤ k))
    (hl : ∀ k w, stepsLeft n ⟨i, k, w⟩ = 3 - k) (r : Reg) (d : Word) (k : Nat) (w : Word) :
    (rmwMicro r d k).Fits n ⟨i, k, w⟩ := by
  rcases k with _ | _ | _ | k <;> simp [rmwMicro, Micro.Fits, StaysInside, InFlight.next, hc, hl]

/-- A scan has an Acquire and a read, and services at most the `n` lines. -/
theorem scanLength_bounds (n : Nat) (w : Word) : 2 ≤ scanLength n w ∧ scanLength n w ≤ 2 * n + 2 := by
  have h : (pendingLines n w).length ≤ n := (List.length_filter_le _ _).trans (by simp)
  unfold scanLength; omega

/-- Everything a scan can stand at. -/
theorem scanMicro_cases (s : State) (w : Word) (last : Micro) (k : Nat) :
    k = 0 ∧ scanMicro s w last k = .acquire ∨
    k = 1 ∧ scanMicro s w last k = .read .irq (· &&& validMask s.lineCount) ∨
    (2 ≤ k ∧ k < scanLength s.lineCount w ∧
      ((∃ i, scanMicro s w last k = .write .irq (lineBit i)) ∨ ∃ x, scanMicro s w last k = .event x)) ∨
    scanLength s.lineCount w ≤ k ∧ scanMicro s w last k = last := by
  rcases k with _ | _ | k
  · exact .inl ⟨rfl, rfl⟩
  · exact .inr (.inl ⟨rfl, rfl⟩)
  · simp only [scanMicro, scanLength]
    cases hx : (pendingLines s.lineCount w)[k / 2]? with
    | none => rw [List.getElem?_eq_none_iff] at hx; exact .inr (.inr (.inr ⟨by omega, rfl⟩))
    | some i =>
      have hlt := (List.getElem?_eq_some_iff.mp hx).1
      refine .inr (.inr (.inl ⟨by omega, by omega, ?_⟩))
      dsimp only
      split
      · exact .inl ⟨i, rfl⟩
      · exact .inr ⟨_, rfl⟩

theorem handle_fits (s : State) (k : Nat) (w : Word) :
    (scanMicro s w .handleDone k).Fits s.lineCount ⟨.handle, k, w⟩ := by
  have hb := scanLength_bounds s.lineCount w
  obtain ⟨rfl, h⟩ | ⟨rfl, h⟩ | ⟨h2, hk, ⟨i, h⟩ | ⟨x, h⟩⟩ | ⟨-, h⟩ := scanMicro_cases s w .handleDone k <;> rw [h] <;>
    simp only [Micro.Fits, StaysInside, InFlight.next, inCritical_handle, stepsLeft, contextFor, decide_eq_true_eq,
      decide_eq_false_iff_not, decide_eq_decide]
  · omega
  · omega
  · omega
  · omega

theorem handlechained_fits (s : State) (k : Nat) (w : Word) (hk : k ≤ scanLength s.lineCount w) :
    (scanMicro s w .release k).Fits s.lineCount ⟨.handlechained, k + 1, w⟩ := by
  have hb := scanLength_bounds s.lineCount w
  obtain ⟨rfl, h⟩ | ⟨rfl, h⟩ | ⟨h2, hk, ⟨i, h⟩ | ⟨x, h⟩⟩ | ⟨hl, h⟩ := scanMicro_cases s w .release k <;> rw [h] <;>
    simp only [Micro.Fits, StaysInside, InFlight.next, inCritical_handlechained, stepsLeft, decide_eq_true_eq,
      decide_eq_false_iff_not, decide_eq_decide]
  · omega
  · intro v
    have hv := scanLength_bounds s.lineCount (v &&& validMask s.lineCount)
    omega
  · omega
  · omega
  · omega

theorem irqen_fits (s : State) (i k : Nat) (w : Word) :
    (microOf s ⟨.irqen i, k, w⟩).Fits s.lineCount ⟨.irqen i, k, w⟩ := by
  rcases k with _ | _ | _ | _ | _ | _ | _ | _ | _ | _ | k <;>
    simp only [microOf, Micro.Fits, StaysInside, InFlight.next, inCritical_irqen, stepsLeft] <;> simp

/-- Every micro-step of the tables fits its operation's critical sections. -/
theorem microOf_fits (s : State) (o : InFlight) : (microOf s o).Fits s.lineCount o := by
  obtain ⟨i, k, w⟩ := o
  cases i with
  | init m =>
    simp only [microOf, initMicro]
    split_ifs <;> simp [Micro.Fits, StaysInside, inCritical, InFlight.next]
  | dirin | setval | settype | irqdis => exact rmwMicro_fits (fun _ _ => rfl) (fun _ _ => rfl) _ _ _ _
  | dirout =>
    rcases k with _ | _ | _ | _ | k <;>
      simp [microOf, Micro.Fits, StaysInside, InFlight.next, inCritical_dirout, stepsLeft]
  | irqen i => exact irqen_fits s i k w
  | handle => exact handle_fits s k w
  | handlechained =>
    cases k with
    | zero => simp [microOf, Micro.Fits, StaysInside, InFlight.next, inCritical_handlechained]
    | succ k =>
      simp only [microOf]
      split
      · exact handlechained_fits s k w ‹_›
      · simp [Micro.Fits, inCritical_handlechained, contextFor]; omega
  | getdir | getval | irqmask | irqunmask | rdCfg | rdIrq | rdIn | rdOut => simp only [microOf, Micro.Fits]; rfl
  | wrCfg | wrIrq | wrIn | wrOut => simp only [microOf, Micro.Fits]; exact ⟨rfl, rfl⟩

/-! ### The registers a locked operation accesses -/

/-- A micro-step that reads or writes does so at a register of the window that is not IN (20_memory.md R61). -/
def Micro.OnRegister : Micro → Prop
  | .read r _ | .write r _ => regExists r ∧ r ≠ .inp
  | _ => True

theorem rmwMicro_onRegister {r : Reg} (hr : regExists r ∧ r ≠ .inp) (d : Word) (k : Nat) :
    (rmwMicro r d k).OnRegister := by
  rcases k with _ | _ | _ | k
  exacts [trivial, hr, hr, trivial]

theorem scanMicro_onRegister (s : State) (w : Word) {last : Micro} (hl : last.OnRegister) (k : Nat) :
    (scanMicro s w last k).OnRegister := by
  have hirq : regExists .irq ∧ Reg.irq ≠ .inp := ⟨trivial, nofun⟩
  obtain ⟨-, h⟩ | ⟨-, h⟩ | ⟨-, -, ⟨i, h⟩ | ⟨x, h⟩⟩ | ⟨-, h⟩ := scanMicro_cases s w last k <;> rw [h]
  exacts [trivial, hirq, hirq, trivial, hl]

/-- Every access of the tables is at a register of the window when the line index is one of the window's. -/
theorem microOf_onRegister (s : State) {o : InFlight} (hx : ∀ j, indexOf o.instr = some j → j < 32) :
    (microOf s o).OnRegister := by
  obtain ⟨i, k, w⟩ := o
  have hcfg : ∀ j, indexOf i = some j → regExists (.cfg j) ∧ Reg.cfg j ≠ .inp := fun j hj => ⟨hx j hj, nofun⟩
  have hirq : regExists .irq ∧ Reg.irq ≠ .inp := ⟨trivial, nofun⟩
  have hout : regExists .out ∧ Reg.out ≠ .inp := ⟨trivial, nofun⟩
  cases i with
  | init m =>
    simp only [microOf, initMicro]
    split_ifs with hw hm hk he
    · trivial
    · trivial
    · exact ⟨by simp only [regExists, maxLines] at hm ⊢; omega, nofun⟩
    · exact ⟨by simp only [regExists, maxLines] at hm ⊢; omega, nofun⟩
    · trivial
  | dirin i | settype i | irqdis i => exact rmwMicro_onRegister (hcfg i rfl) _ _
  | setval => exact rmwMicro_onRegister hout _ _
  | dirout i =>
    rcases k with _ | _ | _ | _ | k
    exacts [trivial, hcfg i rfl, hout, hout, trivial]
  | irqen i =>
    rcases k with _ | _ | _ | _ | _ | _ | _ | _ | _ | _ | k
    exacts [trivial, hcfg i rfl, hcfg i rfl, trivial, trivial, hirq, trivial, trivial, hcfg i rfl, hcfg i rfl, trivial]
  | handle => exact scanMicro_onRegister s w (last := .handleDone) trivial k
  | handlechained =>
    cases k with
    | zero => trivial
    | succ k =>
      simp only [microOf]
      split
      · exact scanMicro_onRegister s w (last := .release) trivial k
      · trivial
  | getdir | getval | irqmask | irqunmask | rdCfg | wrCfg | rdIrq | wrIrq | rdIn | wrIn | rdOut | wrOut => trivial

/-! ### What an operation has read -/

/-- The operation holds what the register holds when it goes on after its read, and holds nothing it is about to write
back after every other micro-step (20_memory.md R80). -/
def Micro.LeavesCurrent (s : State) (o : InFlight) : Micro → Prop
  | .read r f => SnapshotCurrent s (o.next (f (s.view s.draw r)))
  | .acquire | .write _ _ | .event _ | .release => ∀ t, SnapshotCurrent t (o.next o.tmp)
  | _ => True

theorem ofWord_view_cfg (s : State) (r : Word) (i : Nat) : PinConfig.ofWord (s.view r (.cfg i)) = s.cfgAt i :=
  ofWord_toWord _ _

theorem getLsbD_view_out (s : State) (r : Word) {b : Nat} (hb : b < s.lineCount) :
    (s.view r .out).getLsbD b = s.out.getLsbD b := by
  simp only [State.view, getLsbD_mergeBelow, if_pos hb, Bool.and_eq_right_iff_imp, decide_eq_true_eq]
  exact fun h => BitVec.lt_of_getLsbD h

/-- A read-modify-write that is about to write at micro-step 2 alone. -/
theorem rmwMicro_leavesCurrent {s : State} {i : Instr} {r : Reg} {w : Word}
    (hs : ∀ k t, k ≠ 2 → SnapshotCurrent t ⟨i, k, w⟩) (hr : SnapshotCurrent s ⟨i, 2, s.view s.draw r⟩) (d : Word)
    (k : Nat) : (rmwMicro r d k).LeavesCurrent s ⟨i, k, w⟩ := by
  rcases k with _ | _ | _ | k
  exacts [(hs 1 · (by decide)), hr, (hs 3 · (by decide)), trivial]

theorem scanMicro_leavesCurrent {s : State} {i : Instr} (hi : i = .handle ∨ i = .handlechained) {last : Micro}
    (hl : last = .handleDone ∨ last = .release) (w : Word) (m k : Nat) :
    (scanMicro s w last m).LeavesCurrent s ⟨i, k, w⟩ := by
  have hs : ∀ t v, SnapshotCurrent t ⟨i, k + 1, v⟩ := by obtain rfl | rfl := hi <;> exact fun _ _ => trivial
  obtain ⟨-, h⟩ | ⟨-, h⟩ | ⟨-, -, ⟨j, h⟩ | ⟨x, h⟩⟩ | ⟨-, h⟩ := scanMicro_cases s w last m <;> rw [h]
  · exact fun t => hs t w
  · exact hs s _
  · exact fun t => hs t w
  · exact fun t => hs t w
  · obtain rfl | rfl := hl
    · trivial
    · exact fun t => hs t w

/-- Whatever an operation reads to write it back, it reads in the micro-step before the write. -/
theorem microOf_leavesCurrent (s : State) (o : InFlight) : (microOf s o).LeavesCurrent s o := by
  obtain ⟨i, k, w⟩ := o
  have hcfg : ∀ j, s.cfgAt j = PinConfig.ofWord (s.view s.draw (.cfg j)) := fun j => (ofWord_view_cfg s _ j).symm
  have hout : ∀ b, b < s.lineCount → s.out.getLsbD b = (s.view s.draw .out).getLsbD b :=
    fun b hb => (getLsbD_view_out s _ hb).symm
  cases i with
  | init m =>
    simp only [microOf, initMicro]
    split_ifs with hw hm hk he
    · trivial
    · trivial
    · intro _ _
      have hdiv : (k + 1) / 2 = k / 2 := by omega
      simpa [InFlight.next, hdiv] using hcfg (k / 2)
    · exact fun t _ (ho : (k + 1) % 2 = 1) => by omega
    · trivial
  | dirin i | settype i | irqdis i =>
    refine rmwMicro_leavesCurrent ?_ ?_ _ _
    · exact fun k t hk h => absurd h hk
    · exact fun _ => hcfg i
  | setval =>
    refine rmwMicro_leavesCurrent ?_ ?_ _ _
    · exact fun k t hk h => absurd h hk
    · exact fun _ => hout
  | dirout i v =>
    have hs : ∀ k t, k ≠ 3 → SnapshotCurrent t ⟨.dirout i v, k, w⟩ := fun k t hk h => absurd h hk
    rcases k with _ | _ | _ | _ | k
    exacts [(hs 1 · (by decide)), (hs 2 · (by decide)), fun _ => hout, (hs 4 · (by decide)), trivial]
  | irqen i =>
    have hs : ∀ k t, k ≠ 2 ∧ k ≠ 9 → SnapshotCurrent t ⟨.irqen i, k, w⟩ :=
      fun k t hk h => absurd h (not_or.mpr hk)
    rcases k with _ | _ | _ | _ | _ | _ | _ | _ | _ | _ | k
    exacts [(hs 1 · (by decide)), fun _ => hcfg i, (hs 3 · (by decide)), (hs 4 · (by decide)), (hs 5 · (by decide)),
      (hs 6 · (by decide)), (hs 7 · (by decide)), (hs 8 · (by decide)), fun _ => hcfg i, (hs 10 · (by decide)), trivial]
  | handle => exact scanMicro_leavesCurrent (.inl rfl) (.inl rfl) w k k
  | handlechained =>
    cases k with
    | zero => exact fun _ => trivial
    | succ k =>
      simp only [microOf]
      split
      · exact scanMicro_leavesCurrent (.inr rfl) (.inr rfl) w k (k + 1)
      · trivial
  | getdir | getval | irqmask | irqunmask | rdCfg | wrCfg | rdIrq | wrIrq | rdIn | wrIn | rdOut | wrOut => trivial

end Sys2Proof.Machine
end

section
/-!
PROOFS. The lock discipline (20_memory.md R70 to R74): one induction principle for the invariants that carry it, and that
every step keeps it.
-/

namespace Sys2Proof.Machine

/-! ### The discipline as one fact of each agent and one of the lock -/

/-- Agent `a` is inside a critical section. -/
def State.inside (s : State) (a : AgentId) : Bool := (s.agent a).op.any (inCritical s.lineCount)

theorem inside_of_op {s : State} {a : AgentId} {o : InFlight} (h : (s.agent a).op = some o) :
    s.inside a = inCritical s.lineCount o := by simp [State.inside, h]

theorem inside_of_none {s : State} {a : AgentId} (h : (s.agent a).op = none) : s.inside a = false := by
  simp [State.inside, h]

theorem inside_congr {s t : State} {a : AgentId} (hc : t.ctl = s.ctl) (ho : (t.agent a).op = (s.agent a).op) :
    t.inside a = s.inside a := by simp [State.inside, lineCount_congr hc, ho]

theorem inside_iff {s : State} {a : AgentId} :
    s.inside a = true ↔ ∃ o, (s.agent a).op = some o ∧ inCritical s.lineCount o = true :=
  Option.any_eq_true _ _

theorem eq_dispatch_of_interrupt {a : AgentId} (h : contextOf a = .interrupt) : a = .dispatch := by
  cases a
  exacts [(nomatch h), rfl, (nomatch h)]

theorem eq_platform_of_platform {a : AgentId} (h : contextOf a = .platform) : a = .platform := by
  cases a
  exacts [(nomatch h), (nomatch h), rfl]

/-- The discipline: every operation in flight has passed its checks, and the holder of the lock is the agent inside a
critical section. -/
theorem lockDiscipline_iff {s : State} : LockDiscipline s ↔
    (∀ a o, (s.agent a).op = some o → s.Checked a o.instr) ∧ ∀ a, s.lock = some a ↔ s.inside a = true := by
  constructor
  · intro h
    refine ⟨fun a o ho => ⟨h.in_context a o ho, fun j => h.checked a o j ho,
      ⟨fun hn => h.absent_init hn a o ho, fun ⟨n, hn⟩ => h.init_absent a o n ho hn⟩, ?_, fun hi => ?_⟩, fun a => ?_⟩
    · rintro rfl
      by_contra hb
      exact Option.some_ne_none o (ho.symm.trans (h.idle_dispatch (Bool.eq_false_iff.mpr hb)))
    · have ha := eq_dispatch_of_interrupt ((h.in_context a o ho).symm.trans (by rw [hi]; rfl))
      subst ha
      exact h.chained_admitted o ho hi
    · rw [inside_iff]
      exact ⟨h.holder_critical a, fun ⟨o, ho, hc⟩ => h.critical_holds a o ho hc⟩
  · rintro ⟨hop, hl⟩
    exact
      { critical_holds := fun a o ho hc => (hl a).mpr (inside_iff.mpr ⟨o, ho, hc⟩)
        holder_critical := fun a ha => inside_iff.mp ((hl a).mp ha)
        in_context := fun a o ho => (hop a o ho).context
        checked := fun a o j ho => (hop a o ho).index j
        absent_init := fun hn a o ho => (hop a o ho).absent_iff.mp hn
        init_absent := fun a o n ho hi => (hop a o ho).absent_iff.mpr ⟨n, hi⟩
        idle_dispatch := fun hb => Option.eq_none_iff_forall_ne_some.mpr fun o ho =>
          absurd ((hop .dispatch o ho).delivered rfl) (by rw [hb]; exact Bool.false_ne_true)
        chained_admitted := fun o ho => (hop .dispatch o ho).chained }

theorem LockDiscipline.op_checked {s : State} (h : LockDiscipline s) {a : AgentId} {o : InFlight}
    (ho : (s.agent a).op = some o) : s.Checked a o.instr := (lockDiscipline_iff.mp h).1 a o ho

theorem LockDiscipline.lock_iff {s : State} (h : LockDiscipline s) (a : AgentId) :
    s.lock = some a ↔ s.inside a = true := (lockDiscipline_iff.mp h).2 a

/-- With no operation in flight and a Free lock there is nothing to keep. -/
theorem lockDiscipline_of_no_ops {s : State} (ho : ∀ a, (s.agent a).op = none) (hl : s.lock = none) :
    LockDiscipline s := by
  refine lockDiscipline_iff.mpr ⟨fun a o h => ?_, fun a => ?_⟩
  · rw [ho a] at h; cases h
  · simp [hl, inside_of_none (ho a)]

/-- An INIT in flight is the only operation in flight (45_controller.md R272). -/
theorem LockDiscipline.alone_of_init {s : State} (h : LockDiscipline s) (hn : s.ctl = none) {a b : AgentId}
    {o p : InFlight} (ha : (s.agent a).op = some o) (hb : (s.agent b).op = some p) : a = b := by
  have platform : ∀ a o, (s.agent a).op = some o → a = .platform := fun a o ho => by
    obtain ⟨n, hi⟩ := h.absent_init hn a o ho
    exact eq_platform_of_platform ((h.in_context a o ho).symm.trans (by rw [hi]; rfl))
  exact (platform a o ha).trans (platform b p hb).symm

theorem State.Checked.congr {s t : State} {a : AgentId} {i : Instr} (h : s.Checked a i) (hp : t.params = s.params)
    (hc : t.ctl = s.ctl) (hb : a = .dispatch → s.handleBusy = true → t.handleBusy = true) : t.Checked a i :=
  ⟨h.context, by rw [lineCount_congr hc]; exact h.index, by rw [hc]; exact h.absent_iff,
    fun ha => hb ha (h.delivered ha), by rw [hp]; exact h.chained⟩

/-! ### An induction principle -/

/-- Nothing an invariant of the lock speaks of changed, but that a delivery may have come. -/
structure Calm (s t : State) : Prop where
  params : t.params = s.params
  ctl : t.ctl = s.ctl
  lock : t.lock = s.lock
  cfg : t.cfg = s.cfg
  out : t.out = s.out
  ops : ∀ a, (t.agent a).op = (s.agent a).op
  busy : s.handleBusy = true → t.handleBusy = true

theorem Calm.lineCount {s t : State} (h : Calm s t) : t.lineCount = s.lineCount := lineCount_congr h.ctl

theorem Calm.trans {s t u : State} (h : Calm s t) (k : Calm t u) : Calm s u :=
  ⟨k.params.trans h.params, k.ctl.trans h.ctl, k.lock.trans h.lock, k.cfg.trans h.cfg, k.out.trans h.out,
    fun a => (k.ops a).trans (h.ops a), fun hb => k.busy (h.busy hb)⟩

theorem LockDiscipline.calm {s t : State} (h : LockDiscipline s) (k : Calm s t) : LockDiscipline t := by
  refine lockDiscipline_iff.mpr ⟨fun a o ho => ?_, fun a => ?_⟩
  · exact (h.op_checked ((k.ops a).symm.trans ho)).congr k.params k.ctl fun _ => k.busy
  · rw [k.lock, inside_congr k.ctl (k.ops a)]; exact h.lock_iff a

theorem calm_takeMove (s : State) : Calm s (takeMove s).2 := by constructor <;> simp
theorem calm_hwLatch (m : Word) (s : State) : Calm s (hwLatch m s) := by constructor <;> simp
theorem calm_hwLatchLevel (i : Nat) (s : State) : Calm s (hwLatchLevel i s) := by constructor <;> simp
theorem calm_hwSetLevel (i : Nat) (v : Bool) (s : State) : Calm s (hwSetLevel i v s) := by constructor <;> simp

theorem agent_setCur (s : State) (b a : AgentId) : ({ s with cur := b } : State).agent a = s.agent a := by
  cases a <;> rfl

theorem calm_setCur (s : State) (b : AgentId) : Calm s { s with cur := b } :=
  ⟨rfl, rfl, rfl, rfl, rfl, fun a => by rw [agent_setCur], id⟩

/-- A delivery finds the dispatch agent with nothing in flight (60_exceptions.md R300). -/
theorem calm_deliver {s : State} (h : LockDiscipline s) (c : Bool) : Calm s (deliver c s) := by
  have hidle : deliverEnabled c s = true → s.dispatch.op = none := fun he => by
    simp only [deliverEnabled, Bool.and_eq_true, Bool.not_eq_true'] at he
    exact h.idle_dispatch he.1.2
  refine ⟨by simp, by simp, by simp, by simp, by simp, fun a => ?_, fun hb => ?_⟩
  · by_cases ha : a = .dispatch
    · subst ha
      by_cases he : deliverEnabled c s = true
      · simp [deliver, he, State.agent, hidle he]
      · simp [deliver, he]
    · rw [agent_deliver_ne c ha]
  · unfold deliver; split
    · rfl
    · exact hb

/-- An agent with something to do is there. -/
theorem hasCur_of_me {s : State} (h : s.me ≠ Agent.idle) : s.hasCur = true := by
  rw [hasCur_iff]
  intro k hk
  by_contra hlt
  exact h (by simp [State.me, State.agent, hk, Nat.not_lt.mp hlt])

theorem hasCur_of_op {s : State} {o : InFlight} (h : s.me.op = some o) : s.hasCur = true :=
  hasCur_of_me fun hi => by rw [hi] at h; cases h

/-- Replacing the acting agent's program or results leaves it where it is in its operation. -/
theorem ops_setMe {s : State} (g : Agent) (hc : s.hasCur = true) (hg : g.op = s.me.op) (a : AgentId) :
    ((s.setMe g).agent a).op = (s.agent a).op := by
  by_cases ha : a = s.cur
  · subst ha
    exact (congrArg Agent.op (by simpa [State.me] using me_setMe g hc)).trans hg
  · rw [agent_setMe_ne g ha]

theorem calm_setMe {s : State} (g : Agent) (hc : s.hasCur = true) (hg : g.op = s.me.op) : Calm s (s.setMe g) :=
  ⟨by simp, by simp, by simp, by simp, by simp, ops_setMe g hc hg, by simp⟩

/-- An operation rejected for its index had not begun, and leaves its agent between operations. -/
theorem RejectedIndex.calm {s t : State} {i : Instr} (h : LockDiscipline s) (hc : s.hasCur = true)
    (hi : ∀ o, s.me.op = some o → o.instr = i) (hr : RejectedIndex s i t) : Calm s t := by
  obtain ⟨⟨j, hj, hn⟩, r, rfl⟩ := hr
  have hfresh : s.me.op = none := by
    refine Option.eq_none_iff_forall_ne_some.mpr fun o ho => ?_
    exact absurd (h.checked s.cur o j ho (by rw [hi o ho]; exact hj)) (Nat.not_lt.mpr hn)
  refine ⟨by simp, by simp, by simp, by simp, by simp, fun a => ?_, by simp⟩
  by_cases ha : a = s.cur
  · subst ha
    have hf := me_finish r ((hasCur_enter i s).trans hc)
    simp only [State.me, finish_cur, enter_cur] at hf
    exact (congrArg Agent.op hf).trans hfresh.symm
  · rw [agent_finish_ne r (by simpa using ha), agent_enter_ne i ha]

theorem standing_inFlight {e : State} {o : InFlight} (ho : e.me.op = some o) : e.standing o.instr = o := by
  simp only [State.standing, enter_inFlight _ ho, mpc_of_op ho, tmp_of_op ho]

/-- An operation that has begun runs the micro-step at which it stands. -/
theorem exec_inFlight {e : State} {o : InFlight} (ho : e.me.op = some o) (ha : Admitted e o.instr) :
    exec o.instr e = (microOf e o).run e := by
  rw [exec_eq_run ha, standing_inFlight ho, enter_inFlight _ ho]

/-- Beginning an operation takes no turn of its own. -/
theorem exec_enter {s : State} {i : Instr} (hf : s.me.op = none) (hc : s.hasCur = true) (ha : Admitted s i) :
    (enter i s).me.op = some ⟨i, 0, 0#32⟩ ∧ Admitted (enter i s) i ∧ exec i (enter i s) = exec i s := by
  have ho : (enter i s).me.op = some ⟨i, 0, 0#32⟩ := by rw [me_enter_fresh i hc hf]
  have hae : Admitted (enter i s) i :=
    ⟨enter_cur i s ▸ ha.checked.congr (by simp) (by simp) (by simp), by rw [enter_params]; exact ha.raw⟩
  refine ⟨ho, hae, ?_⟩
  rw [exec_inFlight ho hae, exec_eq_run ha, microOf_enter]
  simp only [State.standing, mpc_of_op ho, tmp_of_op ho]

/-- A scheduled agent's turn is calm, or is a micro-step of an operation from a state that is calm so far. -/
theorem agentStep_turn {a : AgentId} {s t : State} (h : agentStep a s = .next t) :
    Calm s t ∨ ∃ u i, Calm s u ∧ u.hasCur = true ∧ (∀ o, u.me.op = some o → o.instr = i) ∧ exec i u = .next t := by
  have hcalm := calm_setCur s a
  have hme : ({ s with cur := a } : State).me = s.agent a := agent_setCur s a a
  obtain rfl | ⟨o, ho, he⟩ | ⟨i, l, ls, hn, hp, -, -, he⟩ := agentStep_cases h
  · exact .inl hcalm
  · rw [← hme] at ho
    refine .inr ⟨_, o.instr, hcalm, hasCur_of_op ho, fun p hp => ?_, he⟩
    rw [ho] at hp; cases hp; rfl
  · have hc : ({ s with cur := a } : State).hasCur = true :=
      hasCur_of_me fun hi => by rw [hme] at hi; rw [hi] at hp; cases hp
    refine .inr ⟨_, i, hcalm.trans (calm_setMe _ hc (by rw [hme])), by rw [hasCur_setMe]; exact hc, fun p hp => ?_, he⟩
    rw [me_setMe _ hc] at hp
    exact absurd (hn.symm.trans hp) nofun

/-- What is kept by calm changes, by the beginning of an operation that has passed its checks and by every micro-step of
one in flight, and carries the lock discipline, is kept by every step. -/
theorem step_keeps {P : State → Prop} (discipline : ∀ s, P s → LockDiscipline s)
    (calm : ∀ s t, P s → Calm s t → P t)
    (begins : ∀ s i, P s → s.hasCur = true → s.me.op = none → Admitted s i → P (enter i s))
    (micro : ∀ e t o, P e → e.me.op = some o → Admitted e o.instr → exec o.instr e = .next t → P t)
    {s t : State} (h : P s) (ht : step s = .next t) : P t := by
  have h0 := calm _ _ h (calm_takeMove s)
  obtain ⟨a, -, ha⟩ | ⟨c, rfl⟩ | ⟨m, rfl⟩ | ⟨i, rfl⟩ | ⟨i, v, rfl⟩ := step_cases ht
  · obtain hk | ⟨u, i, hk, hc, hi, he⟩ := agentStep_turn ha
    · exact calm _ _ h0 hk
    · have hu := calm _ _ h0 hk
      obtain had | hr := exec_admitted he
      · cases ho : u.me.op with
        | some o => obtain rfl := hi o ho; exact micro u t o hu ho had he
        | none =>
          obtain ⟨hoe, hae, hx⟩ := exec_enter ho hc had
          exact micro _ t _ (begins u i hu hc ho had) hoe hae (hx.trans he)
      · exact calm u t hu (hr.calm (discipline u hu) hc hi)
  · exact calm _ _ h0 (calm_deliver (discipline _ h0) c)
  · exact calm _ _ h0 (calm_hwLatch m _)
  · exact calm _ _ h0 (calm_hwLatchLevel i _)
  · exact calm _ _ h0 (calm_hwSetLevel i v _)

/-! ### What an effect does to the operations in flight -/

theorem Effect.op_other {e t : State} (h : Effect e t) {a : AgentId} (ha : a ≠ e.cur) :
    (t.agent a).op = (e.agent a).op := by
  cases h with
  | held => rfl
  | take | free | read w | event x => exact congrArg Agent.op (agent_advance_ne _ ha)
  | freeReturn | answer | readAnswer => exact congrArg Agent.op (agent_finish_ne _ ha)
  | write r d u hu =>
    have hq := quiet_put hu
    exact congrArg Agent.op ((agent_advance_ne _ (hq.cur ▸ ha)).trans (hq.others a ha))
  | writeAnswer r d u hu =>
    have hq := quiet_put hu
    exact congrArg Agent.op ((agent_finish_ne _ (hq.cur ▸ ha)).trans (hq.others a ha))
  | handleEnd hd | chainedEnd hd =>
    rw [hd] at ha
    cases a
    exacts [rfl, absurd rfl ha, rfl]
  | publish n => exact congrArg Agent.op (agent_finish_ne _ ha)

theorem me_put {s t : State} {d : Word} {r : Reg} (h : s.put d r = .ok t) : t.me = s.me := by
  obtain ⟨i, -, rfl⟩ | ⟨-, rfl⟩ | ⟨-, rfl⟩ := put_cases h <;> simp

theorem op_advance {u : State} {o : InFlight} (ho : u.me.op = some o) (w : Word) :
    ((advance w u).agent u.cur).op = some (o.next w) := by
  have h := me_advance w (hasCur_of_op ho)
  simp only [State.me, advance_cur] at h
  rw [h]
  exact congrArg (Option.map (·.next w)) ho

theorem op_finish {u : State} (r : Result) (hc : u.hasCur = true) : ((finish r u).agent u.cur).op = none := by
  have h := me_finish r hc
  simp only [State.me, finish_cur] at h
  rw [h]

/-- The acting agent goes on with its operation or ends it. -/
theorem Effect.op_me {e t : State} (h : Effect e t) {o : InFlight} (ho : e.me.op = some o) :
    (t.agent e.cur).op = none ∨ ∃ p, (t.agent e.cur).op = some p ∧ p.instr = o.instr := by
  have hc := hasCur_of_op ho
  cases h with
  | held => exact .inr ⟨o, ho, rfl⟩
  | take => exact .inr ⟨_, op_advance (u := e.setLock (some e.cur)) ho _, rfl⟩
  | free => exact .inr ⟨_, op_advance (u := e.setLock none) ho _, rfl⟩
  | read w => exact .inr ⟨_, op_advance (u := e.drew) ho w, rfl⟩
  | event x => exact .inr ⟨_, op_advance (u := addEvent x e) ho _, rfl⟩
  | write r d u hu =>
    rw [← (quiet_put hu).cur]
    exact .inr ⟨_, op_advance (by rw [me_put hu]; exact ho) _, rfl⟩
  | freeReturn => exact .inl (op_finish (u := e.setLock none) _ hc)
  | answer r => exact .inl (op_finish _ hc)
  | readAnswer r => exact .inl (op_finish (u := e.drew) _ hc)
  | writeAnswer r d u hu =>
    rw [← (quiet_put hu).cur]
    exact .inl (op_finish _ ((quiet_put hu).hasCur.trans hc))
  | publish n => exact .inl (op_finish (u := Machine.publish n e) _ hc)
  | handleEnd hd | chainedEnd hd => exact .inl (by rw [hd]; rfl)

/-- A micro-step publishes the controller or leaves it as it is. -/
theorem Effect.publishes_or {e t : State} (h : Effect e t) :
    (e.ctl = none ∧ ∃ n, t = finish .ok (Machine.publish n e)) ∨ t.ctl = e.ctl := by
  cases h with
  | write r d u hu | writeAnswer r d u hu => exact .inr (by simp [(quiet_put hu).ctl])
  | publish n hn => exact .inl ⟨hn, n, rfl⟩
  | _ => exact .inr (by simp)

/-- `handleBusy` is cleared by HANDLE's return alone, which ends the dispatch agent's operation. -/
theorem Effect.keepsBusy {e t : State} (h : Effect e t) (hc : t.ctl = e.ctl) :
    t.handleBusy = e.handleBusy ∨ t.dispatch.op = none := by
  cases h with
  | write r d u hu | writeAnswer r d u hu => exact .inl (by simp [(quiet_put hu).busy])
  | publish n hn => rw [hn] at hc; simp [Machine.publish] at hc
  | handleEnd | chainedEnd => exact .inr rfl
  | _ => exact .inl (by simp)

/-! ### What a micro-step does to the lock -/

/-- The lock stays with the acting agent inside or outside as it was, or is taken on the way in, or freed on the way
out. -/
inductive LockMove (e t : State) : Prop where
  | stays : t.lock = e.lock → t.inside e.cur = e.inside e.cur → LockMove e t
  | taken : e.lock = none → t.lock = some e.cur → t.inside e.cur = true → LockMove e t
  | freed : e.lock = some e.cur → t.lock = none → t.inside e.cur = false → LockMove e t

theorem inside_returnHandle {e u : State} {o : InFlight} (hi : contextFor o.instr = .interrupt) (ha : Admitted e o.instr) :
    (returnHandle u).inside e.cur = false := by
  rw [eq_dispatch_of_interrupt (ha.checked.context.symm.trans hi)]
  exact inside_of_none rfl

section
variable {e : State} {o : InFlight} (ho : e.me.op = some o)
include ho

theorem inside_advance {u : State} (hc : u.cur = e.cur) (hn : u.lineCount = e.lineCount) (hm : u.me = e.me) (w : Word) :
    (advance w u).inside e.cur = inCritical e.lineCount (o.next w) := by
  rw [← hc, inside_of_op (op_advance (hm ▸ ho) w), lineCount_advance, hn]

theorem inside_finish {u : State} (hc : u.cur = e.cur) (hm : u.me = e.me) (r : Result) :
    (finish r u).inside e.cur = false := by
  rw [← hc]
  exact inside_of_none (op_finish r (hasCur_of_op (hm ▸ ho)))

/-- A micro-step that leaves the lock and answers its agent outside a critical section. -/
theorem lockMove_of_answer {u : State} (hf : inCritical e.lineCount o = false) (hc : u.cur = e.cur) (hm : u.me = e.me)
    (hl : u.lock = e.lock) (r : Result) : LockMove e (finish r u) := by
  refine .stays ((finish_lock r u).trans hl) ?_
  rw [inside_finish ho hc hm, inside_of_op ho, hf]

/-- A micro-step that leaves the lock and goes on on the same side of the critical section. -/
theorem lockMove_of_advance {u : State} {w : Word} (hf : StaysInside e.lineCount o (o.next w)) (hc : u.cur = e.cur)
    (hn : u.lineCount = e.lineCount) (hm : u.me = e.me) (hl : u.lock = e.lock) : LockMove e (advance w u) := by
  refine .stays ((advance_lock w u).trans hl) ?_
  rw [inside_advance ho hc hn hm, inside_of_op ho, hf.1]

/-- A micro-step moves the lock only across the boundary of a critical section. -/
theorem exec_lockMove {t : State} (ha : Admitted e o.instr) (h : exec o.instr e = .next t) (hctl : t.ctl = e.ctl) :
    LockMove e t := by
  have hf := microOf_fits e o
  have ht : e.tmp = o.tmp := tmp_of_op ho
  rw [exec_inFlight ho ha] at h
  have hm := Micro.leaves_of_run h
  generalize microOf e o = m at hf hm
  cases hm <;> simp only [Micro.Fits, ← ht] at hf
  case held => exact .stays rfl rfl
  case acquire hl =>
    exact .taken hl (by simp) ((inside_advance (u := e.setLock (some e.cur)) ho rfl rfl rfl _).trans hf.2)
  case read => exact lockMove_of_advance (u := e.drew) ho (hf _) rfl rfl rfl rfl
  case write hu =>
    have hq := quiet_put hu
    exact lockMove_of_advance ho hf.1 hq.cur hq.lineCount (me_put hu) (put_keeps hu).2.2.2.1
  case event x => exact lockMove_of_advance (u := addEvent x e) ho hf rfl rfl rfl rfl
  case release hl => exact .freed hl (by simp) ((inside_advance (u := e.setLock none) ho rfl rfl rfl _).trans hf)
  case done hl => exact .freed hl (by simp) (inside_finish (u := e.setLock none) ho rfl rfl _)
  case handleDone hl => exact .freed hl rfl (inside_returnHandle hf ha)
  case chainedDone =>
    refine .stays rfl ?_
    rw [inside_returnHandle hf.2 ha, inside_of_op ho, hf.1]
  case answer => exact lockMove_of_answer ho hf rfl rfl rfl _
  case readAnswer => exact lockMove_of_answer (u := e.drew) ho hf rfl rfl rfl _
  case writeAnswer hu => exact lockMove_of_answer ho hf.1 (quiet_put hu).cur (me_put hu) (put_keeps hu).2.2.2.1 .ok
  case publish n =>
    rw [ha.checked.absent_iff.mpr ⟨n, hf.2⟩] at hctl
    simp [Machine.publish] at hctl

end

/-! ### Every step keeps the discipline -/

/-- Whatever the acting agent does to the lock, the holder is the agent inside a critical section. -/
theorem LockMove.lock_iff {e t : State} (h : LockMove e t) (he : ∀ a, e.lock = some a ↔ e.inside a = true)
    (hother : ∀ a, a ≠ e.cur → t.inside a = e.inside a) (a : AgentId) : t.lock = some a ↔ t.inside a = true := by
  by_cases ha : a = e.cur
  · subst ha
    cases h with
    | stays hl hi => rw [hl, hi]; exact he _
    | taken _ hl hi => simp [hl, hi]
    | freed _ hl hi => simp [hl, hi]
  · have hout : e.lock = none ∨ e.lock = some e.cur → ¬ e.inside a = true := by
      intro hl hi
      rw [← he a] at hi
      obtain hl | hl := hl <;> rw [hl] at hi <;> cases hi
      exact ha rfl
    rw [hother a ha]
    cases h with
    | stays hl _ => rw [hl]; exact he a
    | taken hl ht _ => rw [ht]; exact ⟨fun h => absurd (Option.some.inj h).symm ha, fun h => absurd h (hout (.inl hl))⟩
    | freed hl ht _ => rw [ht]; exact ⟨nofun, fun h => absurd h (hout (.inr hl))⟩

/-- No operation begins inside a critical section. -/
theorem inCritical_first (n : Nat) (i : Instr) (w : Word) : inCritical n ⟨i, 0, w⟩ = false := by
  cases i <;> rfl

theorem op_enter {s : State} (i : Instr) (hc : s.hasCur = true) (hf : s.me.op = none) :
    ((enter i s).agent s.cur).op = some ⟨i, 0, 0#32⟩ := by
  have h := me_enter_fresh i hc hf
  simp only [State.me, enter_cur] at h
  rw [h]

/-- An operation begins outside its critical section, having passed its checks. -/
theorem lockDiscipline_enter {s : State} (i : Instr) (h : LockDiscipline s) (hc : s.hasCur = true)
    (hf : s.me.op = none) (ha : Admitted s i) : LockDiscipline (enter i s) := by
  have hcongr : ∀ a j, s.Checked a j → (enter i s).Checked a j := fun a j hk => hk.congr (by simp) (by simp) (by simp)
  have hme := op_enter i hc hf
  refine lockDiscipline_iff.mpr ⟨fun a o ho => ?_, fun a => ?_⟩
  · by_cases hac : a = s.cur
    · subst hac
      rw [hme] at ho; cases ho
      exact hcongr _ _ ha.checked
    · rw [agent_enter_ne i hac] at ho
      exact hcongr _ _ (h.op_checked ho)
  · rw [enter_lock, h.lock_iff a]
    by_cases hac : a = s.cur
    · subst hac
      rw [inside_of_op hme, inCritical_first, inside_of_none hf]
    · rw [inside_congr (enter_ctl i s) (by rw [agent_enter_ne i hac])]

/-- Every micro-step keeps the discipline. After INIT's publish nothing is in flight; every other micro-step leaves the
controller, and with it the checks of every operation. -/
theorem exec_keeps_lockDiscipline {e t : State} {o : InFlight} (h : LockDiscipline e) (ho : e.me.op = some o)
    (ha : Admitted e o.instr) (he : exec o.instr e = .next t) : LockDiscipline t := by
  have hE : Effect e t := enter_inFlight o.instr ho ▸ exec_effect he
  have hK := hE.keepsController
  obtain ⟨hn, n, rfl⟩ | hctl := hE.publishes_or
  · refine lockDiscipline_of_no_ops (fun a => ?_) (by simp [Machine.publish])
    by_cases hac : a = e.cur
    · subst hac; exact op_finish (u := Machine.publish n e) _ (hasCur_of_op ho)
    · rw [hE.op_other hac]
      exact Option.eq_none_iff_forall_ne_some.mpr fun p hp => hac (h.alone_of_init hn hp ho)
  · refine lockDiscipline_iff.mpr ⟨fun a p hp => ?_, ?_⟩
    · have hk : e.Checked a p.instr := by
        by_cases hac : a = e.cur
        · subst hac
          obtain hnone | ⟨q, hq, hi⟩ := hE.op_me ho
          · rw [hnone] at hp; cases hp
          · rw [hq] at hp; cases hp; rw [hi]; exact ha.checked
        · exact h.op_checked ((hE.op_other hac).symm.trans hp)
      refine hk.congr hK.params hctl fun hd hb => ?_
      obtain hbusy | hnone := hE.keepsBusy hctl
      · rw [hbusy, hb]
      · subst hd; exact absurd (hp.symm.trans hnone) nofun
    · exact (exec_lockMove ho ha he hctl).lock_iff h.lock_iff fun a hac => inside_congr hctl (hE.op_other hac)

/-- Settles O33: an Acquire takes the lock on the way into a critical section, a Release frees it on the way out, and no
other micro-step moves the lock or crosses the boundary. -/
theorem stepKeepsLockDiscipline : Obligations.StepKeepsLockDiscipline := by
  unfold Obligations.StepKeepsLockDiscipline
  intro s t h ht
  exact step_keeps (P := LockDiscipline) (fun _ h => h) (fun _ _ h k => h.calm k)
    (fun _ i h hc hf ha => lockDiscipline_enter i h hc hf ha)
    (fun _ _ _ h ho ha he => exec_keeps_lockDiscipline h ho ha he) h ht

end Sys2Proof.Machine
end

section
/-!
PROOFS. Writes are made under the lock (20_memory.md R73), so that no update is lost (R77, R80).
-/

namespace Sys2Proof.Machine

/-! ### Who writes -/

/-- A micro-step that writes stands in a critical section, or is INIT's or a raw access's. -/
theorem Micro.Leaves.writer {m : Micro} {e t : State} {n : Nat} {o : InFlight} (h : m.Leaves e t) (hf : m.Fits n o) :
    (t.cfg = e.cfg ∧ t.irq = e.irq ∧ t.out = e.out) ∨
      inCritical n o = true ∨ (∃ k, o.instr = .init k) ∨ isRaw o.instr = true := by
  cases h with
  | write => exact .inr (hf.2.imp_right .inl)
  | writeAnswer => exact .inr (.inr (.inr hf.2))
  | held => exact .inl ⟨rfl, rfl, rfl⟩
  | _ => exact .inl (by simp)

theorem exec_writer {i : Instr} {s t : State} (h : exec i s = .next t) :
    (t.cfg = s.cfg ∧ t.irq = s.irq ∧ t.out = s.out) ∨
      inCritical s.lineCount (s.standing i) = true ∨ (∃ k, i = .init k) ∨ isRaw i = true := by
  obtain ha | ⟨-, r, rfl⟩ := exec_admitted h
  · rw [exec_eq_run ha] at h
    have hw := (Micro.leaves_of_run h).writer (microOf_fits s (s.standing i))
    rwa [enter_cfg, enter_irq, enter_out] at hw
  · exact .inl (by simp)

/-- An operation that begins stands at micro-step 0, also for an agent that is not there. -/
theorem mpc_enter_fresh {s : State} (i : Instr) (h : s.me.op = none) : (enter i s).mpc = 0 := by
  by_cases hc : s.hasCur = true
  · exact mpc_of_op (o := ⟨i, 0, 0#32⟩) (by rw [me_enter_fresh i hc h])
  · have he : (enter i s).me = Agent.idle := by
      by_contra hne
      exact hc ((hasCur_enter i s).symm.trans (hasCur_of_me hne))
    exact mpc_of_fresh (by rw [he]; rfl)

/-- Settles O32: the writes of the operations after INIT stand in critical sections, and who is inside one holds the
lock. -/
theorem writesAreUnderTheLock : Obligations.WritesAreUnderTheLock := by
  unfold Obligations.WritesAreUnderTheLock
  intro s t i h hraw hinit hop he hw
  obtain ⟨h1, h2, h3⟩ | hin | ⟨k, hk⟩ | hr := exec_writer he
  · simp [h1, h2, h3] at hw
  · obtain hf | ⟨o, ho, rfl⟩ := hop
    · rw [State.standing, mpc_enter_fresh i hf, inCritical_first] at hin
      cases hin
    · rw [standing_inFlight ho] at hin
      exact h.critical_holds s.cur o ho hin
  · exact absurd hk (hinit k)
  · rw [hraw] at hr; cases hr

/-! ### What an operation has read -/

/-- What is current is read off CFG, OUT and the line count. -/
theorem SnapshotCurrent.congr {s t : State} {o : InFlight} (h : SnapshotCurrent s o) (hc : t.cfg = s.cfg)
    (ho : t.out = s.out) (hn : t.lineCount = s.lineCount) : SnapshotCurrent t o := by
  have hcfg : ∀ i, t.cfgAt i = s.cfgAt i := cfgAt_congr hc
  unfold SnapshotCurrent at h ⊢
  simpa only [hcfg, ho, hn] using h

/-- Outside its critical section an operation other than INIT is not about to write anything back. -/
theorem snapshotCurrent_of_outside {s : State} {n : Nat} {o : InFlight} (h : inCritical n o = false)
    (hi : ∀ m, o.instr ≠ .init m) : SnapshotCurrent s o := by
  obtain ⟨i, k, w⟩ := o
  cases i with
  | init m => exact absurd rfl (hi m)
  | dirin | settype | irqdis | setval =>
    intro (hk : k = 2)
    subst hk; cases h
  | dirout =>
    intro (hk : k = 3)
    subst hk; cases h
  | irqen =>
    intro (hk : k = 2 ∨ k = 9)
    obtain rfl | rfl := hk <;> cases h
  | _ => trivial

/-- An operation that begins has read nothing. -/
theorem snapshotCurrent_first (s : State) (i : Instr) : SnapshotCurrent s ⟨i, 0, 0#32⟩ := by
  by_cases hi : ∃ m, i = .init m
  · obtain ⟨m, rfl⟩ := hi
    exact fun _ (h : 0 % 2 = 1) => absurd h (by decide)
  · exact snapshotCurrent_of_outside (inCritical_first 0 i _) fun m hm => hi ⟨m, hm⟩

theorem lineCount_le {s : State} (h : CountBounded s) : s.lineCount ≤ 32 := by
  unfold State.lineCount
  split
  · exact Nat.zero_le _
  · exact h _ ‹_›

section
variable {e u : State} {o p : InFlight} (ho : e.me.op = some o) (hc : u.cur = e.cur) (hm : u.me = e.me)
include ho hc hm

theorem eq_next_of_advance {w : Word} (hp : ((advance w u).agent e.cur).op = some p) : p = o.next w := by
  rw [← hc, op_advance (hm ▸ ho)] at hp
  exact (Option.some.inj hp).symm

theorem op_finish_ne {r : Result} : ((finish r u).agent e.cur).op ≠ some p := by
  rw [← hc, op_finish r (hasCur_of_op (hm ▸ ho))]
  exact nofun

end

/-- The acting agent's operation is current after its micro-step. -/
theorem exec_keeps_current {e t : State} {o p : InFlight} (h : NoLostUpdate e) (ho : e.me.op = some o)
    (ha : Admitted e o.instr) (he : exec o.instr e = .next t) (hp : (t.agent e.cur).op = some p) :
    SnapshotCurrent t p := by
  have hreg := microOf_onRegister e (o := o) fun j hj => (ha.checked.index j hj).trans_le (lineCount_le h.bounded)
  have hcur := microOf_leavesCurrent e o
  have hfit := microOf_fits e o
  rw [exec_inFlight ho ha] at he
  have hm := Micro.leaves_of_run he
  generalize microOf e o = m at hreg hcur hfit hm
  have ht : e.tmp = o.tmp := tmp_of_op ho
  cases hm with
  | held => exact h.current e.cur p hp
  | acquire hl =>
    rw [eq_next_of_advance (u := e.setLock (some e.cur)) ho rfl rfl hp, ht]
    exact hcur _
  | read f hx =>
    rw [resolve_offOf h.legal_map hreg.1] at hx
    cases hx
    rw [eq_next_of_advance (u := e.drew) ho rfl rfl hp]
    exact SnapshotCurrent.congr hcur (by simp) (by simp) (by simp)
  | write r hu =>
    rw [eq_next_of_advance ho (quiet_put hu).cur (me_put hu) hp, ht]
    exact hcur _
  | event x =>
    rw [eq_next_of_advance (u := addEvent x e) ho rfl rfl hp, ht]
    exact hcur _
  | release hl =>
    rw [eq_next_of_advance (u := e.setLock none) ho rfl rfl hp, ht]
    exact hcur _
  | done => exact absurd hp (op_finish_ne (u := e.setLock none) ho rfl rfl)
  | answer => exact absurd hp (op_finish_ne ho rfl rfl)
  | readAnswer => exact absurd hp (op_finish_ne (u := e.drew) ho rfl rfl)
  | writeAnswer r hu => exact absurd hp (op_finish_ne ho (quiet_put hu).cur (me_put hu))
  | publish n => exact absurd hp (op_finish_ne (u := Machine.publish n e) ho rfl rfl)
  | handleDone =>
    rw [eq_dispatch_of_interrupt (ha.checked.context.symm.trans hfit)] at hp
    cases hp
  | chainedDone =>
    rw [eq_dispatch_of_interrupt (ha.checked.context.symm.trans hfit.2)] at hp
    cases hp

/-- Another agent's operation stays current: the acting agent changes CFG or OUT under the lock alone, or in INIT, when no
other operation is in flight. -/
theorem exec_keeps_current_other {e t : State} {o p : InFlight} {a : AgentId} (h : NoLostUpdate e)
    (ho : e.me.op = some o) (ha : Admitted e o.instr) (he : exec o.instr e = .next t) (hac : a ≠ e.cur)
    (hp : (e.agent a).op = some p) : SnapshotCurrent t p := by
  have hD := h.discipline
  have hready : e.ctl ≠ none := fun hn => hac (hD.alone_of_init hn hp ho)
  have hE : Effect e t := enter_inFlight o.instr ho ▸ exec_effect he
  have hctl : t.ctl = e.ctl := hE.publishes_or.resolve_left fun ⟨hn, _⟩ => hready hn
  obtain ⟨h1, -, h3⟩ | hin | ⟨k, hk⟩ | hr := exec_writer he
  · exact (h.current a p hp).congr h1 h3 (lineCount_congr hctl)
  · rw [standing_inFlight ho] at hin
    have hlock := hD.critical_holds e.cur o ho hin
    refine snapshotCurrent_of_outside (n := e.lineCount) (Bool.eq_false_iff.mpr fun hpin => ?_) fun m hm => ?_
    · exact hac (Option.some.inj ((hD.critical_holds a p hp hpin).symm.trans hlock))
    · exact hready (hD.init_absent a p m hp hm)
  · exact absurd (ha.checked.absent_iff.mpr ⟨k, hk⟩) hready
  · exact absurd ((ha.raw hr).1.symm.trans h.raw_off) nofun

/-! ### Every step keeps it -/

theorem NoLostUpdate.calm {s t : State} (h : NoLostUpdate s) (k : Calm s t) : NoLostUpdate t where
  discipline := h.discipline.calm k
  legal_map := k.params ▸ h.legal_map
  bounded c hc := h.bounded c (k.ctl ▸ hc)
  raw_off := by rw [k.params]; exact h.raw_off
  current a o ho := (h.current a o (k.ops a ▸ ho)).congr k.cfg k.out k.lineCount

theorem noLostUpdate_enter {s : State} (i : Instr) (h : NoLostUpdate s) (hc : s.hasCur = true) (hf : s.me.op = none)
    (ha : Admitted s i) : NoLostUpdate (enter i s) where
  discipline := lockDiscipline_enter i h.discipline hc hf ha
  legal_map := by rw [enter_params]; exact h.legal_map
  bounded c hcc := h.bounded c (enter_ctl i s ▸ hcc)
  raw_off := by rw [enter_params]; exact h.raw_off
  current a o ho := by
    by_cases hac : a = s.cur
    · subst hac
      rw [op_enter i hc hf] at ho; cases ho
      exact snapshotCurrent_first _ i
    · rw [agent_enter_ne i hac] at ho
      exact (h.current a o ho).congr (by simp) (by simp) (by simp)

theorem exec_keeps_noLostUpdate {e t : State} {o : InFlight} (h : NoLostUpdate e) (ho : e.me.op = some o)
    (ha : Admitted e o.instr) (he : exec o.instr e = .next t) : NoLostUpdate t := by
  have hE : Effect e t := enter_inFlight o.instr ho ▸ exec_effect he
  have hK := hE.keepsController
  refine ⟨exec_keeps_lockDiscipline h.discipline ho ha he, hK.params ▸ h.legal_map, hK.countBounded h.bounded,
    by rw [hK.params]; exact h.raw_off, fun a p hp => ?_⟩
  by_cases hac : a = e.cur
  · subst hac
    exact exec_keeps_current h ho ha he hp
  · exact exec_keeps_current_other h ho ha he hac ((hE.op_other hac).symm.trans hp)

/-- Settles O35: what an operation is about to write back it read under the lock it still holds, or in INIT, when nothing
else is in flight. -/
theorem stepKeepsNoLostUpdate : Obligations.StepKeepsNoLostUpdate := by
  unfold Obligations.StepKeepsNoLostUpdate
  intro s t h ht
  exact step_keeps (P := NoLostUpdate) (fun _ h => h.discipline) (fun _ _ h k => h.calm k)
    (fun _ i h hc hf ha => noLostUpdate_enter i h hc hf ha)
    (fun _ _ _ h ho ha he => exec_keeps_noLostUpdate h ho ha he) h ht

end Sys2Proof.Machine
end

section
/-!
PROOFS. The Acquire and how soon the holder frees the lock (20_memory.md R70, R72, R75), and the accesses that have no step
(R62, R64, R65).
-/

namespace Sys2Proof.Machine

/-! ### The Acquire -/

section
variable {s : State} {o : InFlight} (ha : Admitted s o.instr) (hm : microOf s o = .acquire)
  (ho : (enter o.instr s).me = { s.me with op := some o })
include ha hm ho

theorem exec_eq_acquire : exec o.instr s = acquire (enter o.instr s) := by
  have hop : (enter o.instr s).me.op = some o := by rw [ho]
  have hs : s.standing o.instr = o := by rw [State.standing, mpc_of_op hop, tmp_of_op hop]
  rw [exec_eq_run ha, hs, hm]; rfl

/-- An operation that stands at an Acquire, begun or beginning, takes a Free lock (20_memory.md R70). -/
theorem exec_acquire_free {a : AgentId} (hc : s.cur = a) (hl : s.lock = none) :
    ∃ t, exec o.instr s = .next t ∧ KeepsRegisters s t ∧ t.draws = s.draws ∧
      KeepsInstance { s with lock := some a } t ∧ t.me = { s.me with op := some (o.next o.tmp) } := by
  have hop : (enter o.instr s).me.op = some o := by rw [ho]
  obtain ⟨t, he, hq, hme, hlt, hk, hd⟩ := acquire_takes (hasCur_of_op hop) hop ((enter_lock _ _).trans hl)
  have hQ := (quiet_enter o.instr s).trans hq
  refine ⟨t, (exec_eq_acquire ha hm ho).trans he, by simpa [KeepsRegisters] using hk, hd.trans (enter_draws _ _),
    ⟨hQ.params, hQ.launch, hQ.ctl, hlt.trans (by rw [enter_cur, hc]), hQ.busy, hQ.events, hQ.cur, hQ.schedule, hQ.moves,
      hQ.others⟩, ?_⟩
  rw [hme, ho]; rfl

/-- While the lock is busy it is held there, also when its agent is the holder (R72). -/
theorem exec_acquire_busy (hl : s.lock ≠ none) : exec o.instr s = .next (enter o.instr s) :=
  (exec_eq_acquire ha hm ho).trans (acquire_busy (by rw [enter_lock]; exact hl))

/-- The Acquire of an operation that begins now or has been held at its first micro-step. -/
theorem exec_acquire {a : AgentId} (hc : s.cur = a) :
    ∃ t, exec o.instr s = .next t ∧ KeepsRegisters s t ∧ t.draws = s.draws ∧
      if s.lock = none then
        KeepsInstance { s with lock := some a } t ∧ t.me = { s.me with op := some (o.next o.tmp) }
      else KeepsInstance s t ∧ t.me = { s.me with op := some o } := by
  by_cases hl : s.lock = none
  · simp only [if_pos hl]
    exact exec_acquire_free ha hm ho hc hl
  · simp only [if_neg hl]
    exact ⟨_, exec_acquire_busy ha hm ho hl, by simp [KeepsRegisters], enter_draws _ _,
      (quiet_enter _ s).keeps (enter_lock _ _), ho⟩

end

theorem hasCur_of_dispatch {s : State} (h : s.cur = .dispatch) : s.hasCur = true := by
  simp [State.hasCur, h]

/-- Where an operation stands that begins now or stands at its first micro-step. -/
theorem me_enter_first {s : State} {i : Instr} {w : Word} (hc : s.hasCur = true)
    (h : s.fresh ∧ w = 0#32 ∨ s.inOp i 0 w) : (enter i s).me = { s.me with op := some ⟨i, 0, w⟩ } := by
  obtain ⟨hf, rfl⟩ | ho := h
  · exact me_enter_fresh i hc hf
  · rw [enter_inFlight i ho, ← ho]

/-- Where an operation stands that has begun. -/
theorem me_enter_inOp {s : State} {o : InFlight} (ho : s.me.op = some o) :
    (enter o.instr s).me = { s.me with op := some o } := by
  rw [enter_inFlight _ ho, ← ho]

/-- Settles O31: each of these operations stands at an Acquire in the table. -/
theorem acquireTakesFreeLockOrHolds : Obligations.AcquireTakesFreeLockOrHolds := by
  unfold Obligations.AcquireTakesFreeLockOrHolds
  refine ⟨fun s c i v r op w ⟨hctx, hcur, hctl, _, _⟩ hop hi hmem => ?_, fun s c w hd hctl hb hop => ?_,
    fun s c i k w ⟨hctx, _, hctl, _, _⟩ hi hk hop => ?_, fun s c w hd hctl hb hch hop => ?_⟩
  · have hx : contextFor op = .call ∧ indexOf op = some i ∧ isRaw op = false ∧ microOf s ⟨op, 0, w⟩ = .acquire := by
      simp only [List.mem_cons, List.not_mem_nil, or_false] at hmem
      obtain rfl | rfl | rfl | rfl | rfl | rfl := hmem <;> exact ⟨rfl, rfl, rfl, rfl⟩
    obtain ⟨hfor, hidx, hraw, hm⟩ := hx
    have ha : Admitted s op := ⟨checked_of_call hctx hctl hfor fun j hj => by rw [hidx] at hj; cases hj; exact hi,
      rawAdmitted_of_not_raw hraw⟩
    exact exec_acquire (o := ⟨op, 0, w⟩) ha hm (me_enter_first hcur hop) rfl
  · have ha : Admitted s .handle := ⟨hd ▸ checked_of_delivered hctl hb (.inl rfl), nofun⟩
    exact exec_acquire (o := ⟨.handle, 0, w⟩) ha rfl (me_enter_first (hasCur_of_dispatch hd) hop) hd
  · have ha : Admitted s (.irqen i) :=
      ⟨checked_of_call hctx hctl rfl fun j hj => by cases hj; exact hi, nofun⟩
    have hm : microOf s ⟨.irqen i, k, w⟩ = .acquire := by obtain rfl | rfl := hk <;> rfl
    have ho := me_enter_inOp hop
    refine ⟨fun hl => ?_, fun hl => ?_⟩
    · obtain ⟨t, he, hk, -, hi, hme⟩ := exec_acquire_free (o := ⟨.irqen i, k, w⟩) ha hm ho rfl hl
      exact ⟨t, he, hi, hme, hk⟩
    · exact (exec_acquire_busy (o := ⟨.irqen i, k, w⟩) ha hm ho hl).trans (by rw [enter_inFlight _ hop])
  · have ha : Admitted s .handlechained := ⟨hd ▸ checked_of_delivered hctl hb (.inr ⟨rfl, hch⟩), nofun⟩
    have hm : microOf s ⟨.handlechained, 1, w⟩ = .acquire := by
      simp only [microOf, Nat.zero_le, if_true, scanMicro]
    have ho := me_enter_inOp hop
    refine ⟨fun hl => ?_, fun hl => ?_⟩
    · obtain ⟨t, he, hk, -, hi, hme⟩ := exec_acquire_free (o := ⟨.handlechained, 1, w⟩) ha hm ho hd hl
      exact ⟨t, he, hi, hme, hk⟩
    · exact (exec_acquire_busy (o := ⟨.handlechained, 1, w⟩) ha hm ho hl).trans (by rw [enter_inFlight _ hop])

/-! ### Accesses without a step -/

theorem memRead_refused {s : State} {off width : Nat} {e : Refusal} (h : resolve s.params off width = .error e)
    (k : Word → State → State) : memRead off width s k = .refused e := by
  unfold memRead; rw [h]

theorem memWrite_refused {s : State} {off width : Nat} {e : Refusal} (h : resolve s.params off width = .error e)
    (d : Word) (k : State → State) : memWrite off width d s k = .refused e := by
  unfold memWrite; rw [h]

theorem resolve_badWidth (p : Params) (off : Nat) {width : Nat} (h : width ≠ 4) :
    resolve p off width = .error .badWidth := if_pos h

theorem resolve_misaligned (p : Params) {off : Nat} (h : off % 4 ≠ 0) : resolve p off 4 = .error .misaligned := by
  simp [resolve, Params.regAt, h]

/-- No register stands at `off`: outside the window, or at no register's offset (20_memory.md R61, R65). -/
theorem resolve_unmapped {p : Params} {off : Nat} (ha : off % 4 = 0)
    (h : p.windowSize ≤ off ∨ (∀ i, i < 32 → off ≠ p.cfgBase + 4 * i) ∧ off ≠ p.irqOff ∧ off ≠ p.inOff ∧ off ≠ p.outOff) :
    resolve p off 4 = .error .unmapped := by
  have hreg : p.regAt off = .error .unmapped := by
    unfold Params.regAt
    rw [if_neg (not_not_intro ha)]
    split
    · rfl
    · obtain hw | ⟨hcfg, hirq, hinp, hout⟩ := h
      · contradiction
      · rw [if_neg, if_neg hirq, if_neg hinp, if_neg hout]
        rintro ⟨hlo, hhi, h4⟩
        exact hcfg ((off - p.cfgBase) / 4) (by omega) (by omega)
  simp [resolve, hreg]

/-- Settles O16: each such access names no register, and a read and a write resolve the register first. -/
theorem badAccessesHaveNoStep : Obligations.BadAccessesHaveNoStep := by
  unfold Obligations.BadAccessesHaveNoStep
  intro s off width d k h
  have refused : ∀ {w e}, resolve s.params off w = .error e →
      memRead off w s k = .refused e ∧ memWrite off w d s h = .refused e :=
    fun he => ⟨memRead_refused he k, memWrite_refused he d h⟩
  exact ⟨fun hw => refused (resolve_badWidth _ _ hw), fun hm => refused (resolve_misaligned _ hm),
    fun ha hu => refused (resolve_unmapped ha hu)⟩

end Sys2Proof.Machine
end

section
/-!
PROOFS. How soon the holder frees the lock (20_memory.md R75, 70_reset_and_hazards.md R360).
-/

namespace Sys2Proof.Machine

/-- The acting agent is inside a critical section of operation `o` on `n` lines, holds the lock, and has passed the checks
of the operation under a legal register map. -/
structure Holding (n : Nat) (s : State) (o : InFlight) : Prop where
  op : s.me.op = some o
  admitted : Admitted s o.instr
  legal_map : s.params.WF
  count : s.lineCount = n
  bounded : n ≤ 32
  critical : inCritical n o = true
  lock : s.lock = some s.cur

/-- A write to a register other than IN is stored. -/
theorem put_ok (s : State) (d : Word) {r : Reg} (h : r ≠ .inp) : ∃ u, s.put d r = .ok u := by
  cases r with
  | inp => exact absurd rfl h
  | cfg | irq | out => exact ⟨_, rfl⟩

section
variable {n : Nat} {s : State} {o : InFlight} (h : Holding n s o)
include h

/-- A micro-step that stays inside leaves the agent holding. -/
theorem Holding.advance {u : State} {w : Word} (hp : u.params = s.params) (hc : u.ctl = s.ctl)
    (hb : u.handleBusy = s.handleBusy) (hcur : u.cur = s.cur) (hl : u.lock = s.lock) (hm : u.me = s.me)
    (hf : StaysInside n o (o.next w)) : Holding n (Machine.advance w u) (o.next w) where
  op := by
    have ho := op_advance (hm ▸ h.op) w
    rwa [← advance_cur w u] at ho
  admitted := by
    refine ⟨?_, ?_⟩
    · rw [advance_cur, hcur]
      exact h.admitted.checked.congr (by simp [hp]) (by simp [hc]) (by simp [hb])
    · rw [advance_params, hp]
      exact h.admitted.raw
  legal_map := by rw [advance_params, hp]; exact h.legal_map
  count := by rw [lineCount_advance, lineCount_congr hc]; exact h.count
  bounded := h.bounded
  critical := hf.1.trans h.critical
  lock := by rw [advance_lock, advance_cur, hl, hcur]; exact h.lock

/-- The holder's next micro-step frees the lock, or brings it nearer to the Release. -/
theorem Holding.step : (∃ t, exec o.instr s = .next t ∧ t.lock = none) ∨
    ∃ t w, exec o.instr s = .next t ∧ Holding n t (o.next w) ∧ stepsLeft n (o.next w) < stepsLeft n o := by
  have hreg := microOf_onRegister s (o := o) fun j hj =>
    (h.admitted.checked.index j hj).trans_le (h.count.trans_le h.bounded)
  have hf := microOf_fits s o
  have ht : s.tmp = o.tmp := tmp_of_op h.op
  have outside : ∀ {P : Prop}, inCritical n o = false → P := fun hx => absurd (h.critical.symm.trans hx) nofun
  rw [exec_inFlight h.op h.admitted]
  rw [h.count] at hf
  generalize microOf s o = m at hreg hf
  cases m with
  | acquire => exact outside hf.1
  | chainedDone => exact outside hf.1
  | answer | readAnswer => exact outside hf
  | writeAnswer => exact outside hf.1
  | publish => exact outside hf.1
  | read r f =>
    have hw := hf (s.view s.draw r)
    refine .inr ⟨_, _, memRead_reg h.legal_map hreg.1 fun w t => Machine.advance (f w) t, ?_, hw.2 h.critical⟩
    exact h.advance (u := s.drew) rfl rfl rfl rfl rfl rfl hw
  | write r d =>
    obtain ⟨u, hu⟩ := put_ok s d hreg.2
    have hq := quiet_put hu
    refine .inr ⟨_, o.tmp, memWrite_reg h.legal_map hreg.1 hu _, ?_, hf.1.2 h.critical⟩
    rw [ht]
    exact h.advance hq.params hq.ctl hq.busy hq.cur (put_keeps hu).2.2.2.1 (me_put hu) hf.1
  | event x =>
    refine .inr ⟨_, o.tmp, rfl, ?_, hf.2 h.critical⟩
    rw [ht]
    exact h.advance (u := addEvent x s) rfl rfl rfl rfl rfl rfl hf
  | release => exact .inl ⟨_, release_held _ h.lock, advance_lock _ _⟩
  | done => exact .inl ⟨_, release_held _ h.lock, finish_lock _ _⟩
  | handleDone => exact .inl ⟨_, release_held _ h.lock, returnHandle_lock _⟩

end

/-- The holder frees the lock with the micro-step after those the critical section has left. -/
theorem Holding.releases {n m : Nat} {s : State} {o : InFlight} (h : Holding n s o) (hm : stepsLeft n o ≤ m) :
    ∃ k t, k ≤ m + 1 ∧ execTimes o.instr k s = .next t ∧ t.lock = none := by
  induction m generalizing s o with
  | zero =>
    obtain ⟨t, he, hl⟩ | ⟨t, w, -, -, hlt⟩ := h.step
    · exact ⟨1, t, Nat.le_refl _, execTimes_succ he 0, hl⟩
    · omega
  | succ m ih =>
    obtain ⟨t, he, hl⟩ | ⟨t, w, he, hh, hlt⟩ := h.step
    · exact ⟨1, t, by omega, execTimes_succ he 0, hl⟩
    · obtain ⟨k, u, hk, hr, hl⟩ := ih hh (by omega)
      exact ⟨k + 1, u, by omega, (execTimes_succ he k).trans hr, hl⟩

/-- No critical section is longer than HANDLE's on `n` lines (R75): a line operation has at least its own line. -/
theorem stepsLeft_le {n : Nat} {o : InFlight} (hx : ∀ j, indexOf o.instr = some j → j < n)
    (h : inCritical n o = true) : stepsLeft n o ≤ 2 * n + 1 := by
  obtain ⟨i, k, w⟩ := o
  cases i with
  | dirin j | dirout j | setval j | settype j | irqdis j =>
    have hj := hx j rfl
    have hk : 1 ≤ k := of_decide_eq_true h
    simp only [stepsLeft]; omega
  | irqen j =>
    have hj := hx j rfl
    rw [inCritical_irqen, decide_eq_true_eq] at h
    simp only [stepsLeft]; split_ifs <;> omega
  | handle =>
    have hk : 1 ≤ k := of_decide_eq_true h
    simp only [stepsLeft]; omega
  | handlechained =>
    rw [inCritical_handlechained, decide_eq_true_eq] at h
    simp only [stepsLeft]; omega
  | _ => exact Nat.zero_le _

/-- Only a locked operation is critical: no raw access is. -/
theorem not_raw_of_critical {n : Nat} {o : InFlight} (h : inCritical n o = true) : isRaw o.instr = false := by
  obtain ⟨i, k, w⟩ := o
  cases i with
  | rdCfg | wrCfg | rdIrq | wrIrq | rdIn | wrIn | rdOut | wrOut => cases h
  | _ => rfl

/-- Settles O34: the holder is inside a critical section, each of its micro-steps brings it nearer to the Release, and
none is longer than HANDLE's. -/
theorem lockHolderReleasesSoon : Obligations.LockHolderReleasesSoon := by
  unfold Obligations.LockHolderReleasesSoon
  intro s c h hwf hc hn hl
  have hcount := lineCount_ready hc
  obtain ⟨o, ho, hin⟩ := h.holder_critical s.cur hl
  rw [hcount] at hin
  have hk := h.op_checked ho
  have hold : Holding c.n s o :=
    ⟨ho, ⟨hk, rawAdmitted_of_not_raw (not_raw_of_critical hin)⟩, hwf, hcount, hn, hin, hl⟩
  obtain ⟨k, t, hle, he, hfree⟩ := hold.releases (stepsLeft_le (fun j hj => hcount ▸ hk.index j hj) hin)
  exact ⟨o, k, t, ho, hle, he, hfree⟩

end Sys2Proof.Machine
end

section
/-!
PROOFS. The two encodings (30_encoding.md): what the CMD decoder answers, the fields of an encoded line, that the decoder
and the encoder undo each other, and that a line that spells nothing refuses its program.
-/

namespace Sys2Proof.Machine

/-! ### The CMD decoder -/

/-- Some field that the mnemonic of a word with OP 0 to 12 does not use is nonzero (30_encoding.md R96). -/
abbrev UnusedFieldSet (w : Word) : Prop :=
  cmdRsv w ≠ 0 ∨ (cmdOp w ≠ 6 ∧ cmdTrq w ≠ 0) ∨ (cmdOp w ≠ 3 ∧ cmdOp w ≠ 5 ∧ cmdVal w ≠ 0) ∨ (11 ≤ cmdOp w ∧ cmdIdx w ≠ 0)

/-- The instruction that fields with OP 0 to 12 name (R92), whatever the fields hold that its mnemonic does not use. -/
def commandOf (op trq : Nat) (val : Bool) (idx : Nat) : Instr :=
  match op with
  | 0 => .init idx
  | 1 => .getdir idx
  | 2 => .dirin idx
  | 3 => .dirout idx val
  | 4 => .getval idx
  | 5 => .setval idx val
  | 6 => .settype idx (requestOf trq)
  | 7 => .irqen idx
  | 8 => .irqdis idx
  | 9 => .irqmask idx
  | 10 => .irqunmask idx
  | 11 => .handle
  | _ => .handlechained

/-- `ifUnusedZero` by the negation of what it tests: some unused field is set. -/
theorem ifUnusedZero_eq {ok : Bool} {unused : Prop} [Decidable unused] (h : ok = true ↔ ¬ unused) (i : Instr) :
    ifUnusedZero ok i = if unused then .error .unusedField else .ok i := by
  by_cases hu : unused <;> simp [ifUnusedZero, h, hu]

/-- With OP 0 to 12 the unused fields alone decide whether a word spells an instruction (R92, R96). -/
theorem decodeCmd_command {w : Word} (h : cmdOp w ≤ 12) :
    decodeCmd w = if UnusedFieldSet w then .error .unusedField
      else .ok (commandOf (cmdOp w) (cmdTrq w) (cmdVal w == 1) (cmdIdx w)) := by
  unfold decodeCmd commandOf UnusedFieldSet
  generalize cmdOp w = op at h ⊢
  interval_cases op <;> exact ifUnusedZero_eq (by simp [and_assoc]) _

/-- OP 0xD to 0xF spell nothing (R97). -/
theorem decodeCmd_reserved {w : Word} (h : 13 ≤ cmdOp w) : decodeCmd w = .error .reservedOp := by
  obtain ⟨k, hk⟩ : ∃ k, cmdOp w = k + 13 := ⟨cmdOp w - 13, by omega⟩
  unfold decodeCmd
  rw [hk]
  rfl

/-! ### The fields of a CMD word -/

theorem cmdTrq_lt (w : Word) : cmdTrq w < 16 := Nat.mod_lt _ (by decide)

theorem cmdIdx_lt (w : Word) : cmdIdx w < 65536 := Nat.div_lt_of_lt_mul w.isLt

/-- VAL as a truth value and back. -/
theorem toNat_cmdVal (w : Word) : (cmdVal w == 1).toNat = cmdVal w := by
  obtain h | h : cmdVal w = 0 ∨ cmdVal w = 1 := Nat.mod_two_eq_zero_or_one _ <;> rw [h] <;> rfl

/-- The word the encoder makes of given fields is the one that holds them, with RSV zero (R91). -/
theorem cmdWord_eq_iff {op trq idx : Nat} (ho : op < 16) (ht : trq < 16) (hi : idx < 65536) (v : Bool) (w : Word) :
    cmdWord op trq v idx = .cmd w ↔
      cmdOp w = op ∧ cmdTrq w = trq ∧ cmdVal w = v.toNat ∧ cmdRsv w = 0 ∧ cmdIdx w = idx := by
  have hv := v.toNat_le
  have hw := w.isLt
  unfold cmdWord cmdOp cmdTrq cmdVal cmdRsv cmdIdx
  rw [ProgLine.cmd.injEq, ← BitVec.toNat_inj, BitVec.toNat_ofNat]
  omega

/-! ### Trigger requests -/

/-- Every 4-bit TRQ numbers a well-formed request (R93). -/
theorem trqOf_requestOf : ∀ k, k < 16 → trqOf (requestOf k) = k ∧ (requestOf k).wellFormed = true := by decide

/-- Every well-formed request has a 4-bit TRQ number (R93). -/
theorem requestOf_trqOf {t : TriggerRequest} (h : t.wellFormed = true) : trqOf t < 16 ∧ requestOf (trqOf t) = t := by
  cases t with
  | other k =>
    obtain ⟨h5, h15⟩ : 5 ≤ k ∧ k ≤ 15 := by simpa [TriggerRequest.wellFormed] using h
    simp only [trqOf]
    interval_cases k <;> decide
  | _ => decide

/-! ### CMD words and instructions -/

/-- Fields that spell an instruction: OP is not reserved, TRQ and IDX have their widths, and each field that the mnemonic
does not use is zero (R91, R92, R96). -/
structure Spells (op trq : Nat) (v : Bool) (idx : Nat) : Prop where
  op_le : op ≤ 12
  trq_lt : trq < 16
  idx_lt : idx < 65536
  trq_zero : op = 6 ∨ trq = 0
  val_zero : op = 3 ∨ op = 5 ∨ v.toNat = 0
  idx_zero : op < 11 ∨ idx = 0

/-- A word spells an instruction exactly when it is made of fields that do. -/
theorem decodeCmd_eq_ok_iff {w : Word} {i : Instr} :
    decodeCmd w = .ok i ↔
      ∃ op trq v idx, Spells op trq v idx ∧ cmdWord op trq v idx = .cmd w ∧ commandOf op trq v idx = i := by
  constructor
  · intro h
    have ho : cmdOp w ≤ 12 := by
      by_contra hc
      rw [decodeCmd_reserved (by omega)] at h; cases h
    rw [decodeCmd_command ho] at h
    split at h
    next => cases h
    next hu =>
      unfold UnusedFieldSet at hu
      have hv := toNat_cmdVal w
      have ht := cmdTrq_lt w
      have hi := cmdIdx_lt w
      exact ⟨_, _, _, _, ⟨ho, ht, hi, by omega, by omega, by omega⟩,
        (cmdWord_eq_iff (by omega) ht hi _ w).2 ⟨rfl, rfl, hv.symm, by omega, rfl⟩, Except.ok.inj h⟩
  · rintro ⟨op, trq, v, idx, ⟨ho, ht, hi, htrq, hval, hidx⟩, hw, rfl⟩
    obtain ⟨rfl, rfl, hv, hr, rfl⟩ := (cmdWord_eq_iff (by omega) ht hi v w).1 hw
    have hbit : (cmdVal w == 1) = v := by rw [hv, Bool.toNat_beq_one]
    rw [decodeCmd_command ho, if_neg (by unfold UnusedFieldSet; omega), hbit]

theorem Spells.decodeLine {op trq idx : Nat} {v : Bool} (h : Spells op trq v idx) (p : Params) :
    decodeLine p (cmdWord op trq v idx) = .ok (commandOf op trq v idx) :=
  decodeCmd_eq_ok_iff.2 ⟨op, trq, v, idx, h, rfl, rfl⟩

theorem Spells.wellFormed {op trq idx : Nat} {v : Bool} (h : Spells op trq v idx) :
    (commandOf op trq v idx).wellFormed = true := by
  have hidx : indexFits idx = true := decide_eq_true h.idx_lt
  unfold commandOf
  split <;> simp [Instr.wellFormed, hidx, trqOf_requestOf _ h.trq_lt]

/-- The encoder writes the fields the mnemonic uses, and zero for every other one. -/
theorem Spells.encode {op trq idx : Nat} {v : Bool} (h : Spells op trq v idx) (p : Params) :
    encode p (commandOf op trq v idx) = cmdWord op trq v idx := by
  obtain ⟨ho, ht, -, htrq, hval, hidx⟩ := h
  have hreq := (trqOf_requestOf trq ht).1
  interval_cases op <;> simp_all [commandOf, Sys2Proof.encode]

/-! ### BUS descriptors -/

/-- A descriptor is OFF and W, and nothing else (R99). -/
theorem toNat_descriptor (d : Word) : d.toNat = busOff d + 2 ^ 31 * (busWrites d).toNat := by
  have hd := d.isLt
  have hw : (busWrites d).toNat = d.toNat / 2 ^ 31 % 2 := Nat.toNat_testBit d.toNat 31
  unfold busOff
  omega

theorem busOff_lt (d : Word) : busOff d < 2 ^ 31 := Nat.mod_lt _ (by decide)

/-- The descriptor the encoder makes of a register is the one whose OFF is the register's offset (R99). -/
theorem busLine_eq_iff {p : Params} {r : Reg} (h : p.offOf r < 2 ^ 31) (v : Bool) (x d y : Word) :
    busLine p v r x = .bus d y ↔ busOff d = p.offOf r ∧ busWrites d = v ∧ x = y := by
  have hd := toNat_descriptor d
  have hl := busOff_lt d
  have hv := v.toNat_le
  have hb := (busWrites d).toNat_le
  have hinj : (busWrites d).toNat = v.toNat ↔ busWrites d = v :=
    (Function.LeftInverse.injective Bool.ofNat_toNat).eq_iff
  unfold busLine
  rw [ProgLine.bus.injEq, ← BitVec.toNat_inj, BitVec.toNat_ofNat, ← and_assoc, ← hinj]
  refine and_congr_left fun _ => ?_
  omega

/-- What stands at an offset is a register of the window whose offset it is. -/
theorem offOf_of_regAt {p : Params} {off : Nat} {r : Reg} (h : p.regAt off = .ok r) : regExists r ∧ p.offOf r = off := by
  unfold Params.regAt at h
  split at h
  · cases h
  split at h
  · cases h
  split at h
  next hcfg =>
    obtain ⟨hlo, hhi, h4⟩ := hcfg
    cases h
    exact ⟨show (off - p.cfgBase) / 4 < 32 by omega, show p.cfgBase + 4 * ((off - p.cfgBase) / 4) = off by omega⟩
  split at h
  next hirq => cases h; exact ⟨trivial, hirq.symm⟩
  split at h
  next hinp => cases h; exact ⟨trivial, hinp.symm⟩
  split at h
  next hout => cases h; exact ⟨trivial, hout.symm⟩
  cases h

/-- The registers of a legal map stand inside the window (00_scope.md R12). -/
theorem offOf_lt_windowSize {p : Params} (hp : p.WF) {r : Reg} (hr : regExists r) : p.offOf r < p.windowSize := by
  obtain ⟨-, -, -, -, -, -, -, -, -, -, hcfg, hirq, hinp, hout⟩ := hp
  cases r with
  | cfg i => exact show p.cfgBase + 4 * i < p.windowSize by have : i < 32 := hr; omega
  | irq => exact show p.irqOff < p.windowSize by omega
  | inp => exact show p.inOff < p.windowSize by omega
  | out => exact show p.outOff < p.windowSize by omega

/-! ### BUS descriptors and accesses -/

theorem lineFits_iff {i : Nat} : lineFits i = true ↔ regExists (.cfg i) := decide_eq_true_iff

/-- OFF has room for every register of a legal map whose window ends at `2 ^ 31` or below. -/
theorem decodeLine_busLine {p : Params} (hp : p.WF) (hs : p.windowSize ≤ 2 ^ 31) {r : Reg} (hr : regExists r) (v : Bool)
    (x : Word) : decodeLine p (busLine p v r x) = .ok (accessOf v x r) := by
  obtain ⟨d, hd⟩ : ∃ d, busLine p v r x = .bus d x := ⟨_, rfl⟩
  obtain ⟨hoff, rfl, -⟩ := (busLine_eq_iff ((offOf_lt_windowSize hp hr).trans_le hs) v x d x).1 hd
  rw [hd]
  change decodeBus p d x = _
  unfold decodeBus
  rw [hoff, regAt_offOf hp hr]

theorem wellFormed_accessOf {r : Reg} (hr : regExists r) (v : Bool) (x : Word) : (accessOf v x r).wellFormed = true := by
  cases r with
  | cfg i => cases v <;> exact lineFits_iff.2 hr
  | _ => cases v <;> rfl

/-- The encoder writes a read's ignored data operand as zero (R99, R100). -/
theorem encode_accessOf (p : Params) (r : Reg) (v : Bool) (x : Word) :
    encode p (accessOf v x r) = busLine p v r (if v then x else 0#32) := by
  cases r <;> cases v <;> rfl

/-- What a descriptor spells is an access to the register at its OFF (R100). -/
theorem decodeBus_ok {p : Params} {d x : Word} {i : Instr} (h : decodeBus p d x = .ok i) :
    ∃ r, regExists r ∧ p.offOf r = busOff d ∧ i = accessOf (busWrites d) x r := by
  unfold decodeBus at h
  cases hr : p.regAt (busOff d) with
  | error e => rw [hr] at h; cases h
  | ok r =>
    rw [hr] at h
    obtain ⟨hreg, hoff⟩ := offOf_of_regAt hr
    cases h
    exact ⟨r, hreg, hoff, rfl⟩

/-! ### The statements -/

/-- Settles O1: a line made of fields decodes to the instruction of those fields, and a line made of a register to the
access to that register. -/
theorem decodeOfEncodeIsInstr : Obligations.DecodeOfEncodeIsInstr := by
  unfold Obligations.DecodeOfEncodeIsInstr
  intro p i hp hs hi
  cases i with
  | settype idx t =>
    obtain ⟨hidx, ht⟩ : indexFits idx = true ∧ t.wellFormed = true := by simpa [Instr.wellFormed] using hi
    obtain ⟨hlt, hreq⟩ := requestOf_trqOf ht
    have hspell : Spells 6 (trqOf t) false idx := ⟨by decide, hlt, of_decide_eq_true hidx, .inl rfl, by simp, by simp⟩
    exact (hspell.decodeLine p).trans (by rw [commandOf, hreq])
  | init | getdir | dirin | dirout | getval | setval | irqen | irqdis | irqmask | irqunmask =>
    exact Spells.decodeLine ⟨by decide, by decide, of_decide_eq_true hi, .inr rfl, by simp, by simp⟩ p
  | handle | handlechained =>
    exact Spells.decodeLine ⟨by decide, by decide, by decide, .inr rfl, by simp, .inr rfl⟩ p
  | rdCfg j => exact decodeLine_busLine hp hs (r := .cfg j) (lineFits_iff.1 hi) false 0
  | wrCfg j d => exact decodeLine_busLine hp hs (r := .cfg j) (lineFits_iff.1 hi) true d
  | rdIrq => exact decodeLine_busLine hp hs (r := .irq) trivial false 0
  | wrIrq d => exact decodeLine_busLine hp hs (r := .irq) trivial true d
  | rdIn => exact decodeLine_busLine hp hs (r := .inp) trivial false 0
  | wrIn d => exact decodeLine_busLine hp hs (r := .inp) trivial true d
  | rdOut => exact decodeLine_busLine hp hs (r := .out) trivial false 0
  | wrOut d => exact decodeLine_busLine hp hs (r := .out) trivial true d

/-- Settles O2: the decoder's checks leave no field, and no bit of a descriptor, that the encoder would not write back. -/
theorem encodeOfDecodedLineIsLine : Obligations.EncodeOfDecodedLineIsLine := by
  unfold Obligations.EncodeOfDecodedLineIsLine
  refine ⟨fun p w i h => ?_, fun p d x i h => ?_⟩
  · obtain ⟨op, trq, v, idx, hspell, hw, rfl⟩ := decodeCmd_eq_ok_iff.1 h
    exact ⟨hspell.wellFormed, (hspell.encode p).trans hw⟩
  · obtain ⟨r, hr, hoff, rfl⟩ := decodeBus_ok h
    have hline : ∀ y, busLine p (busWrites d) r y = .bus d y := fun y =>
      (busLine_eq_iff (hoff ▸ busOff_lt d) _ y d y).2 ⟨hoff.symm, rfl, rfl⟩
    refine ⟨wellFormed_accessOf hr _ x, ?_⟩
    rw [encode_accessOf, hline]
    cases hw : busWrites d with
    | true => exact .inl rfl
    | false => exact .inr ⟨rfl, rfl⟩

/-- Settles O3: below the reserved OPs the decoder answers the instruction of the fields unless an unused one is set. -/
theorem unusedCommandFieldsMustBeZero : Obligations.UnusedCommandFieldsMustBeZero := by
  unfold Obligations.UnusedCommandFieldsMustBeZero
  intro w h
  change (UnusedFieldSet w ↔ _) ∧ _
  rw [decodeCmd_command h]
  by_cases hu : UnusedFieldSet w
  · simp [hu, eq_comm]
  · simp [hu]

/-- Settles O4: a line that spells nothing is inadmissible, and one inadmissible line refuses its program. -/
theorem programWithInvalidWordIsRefused : Obligations.ProgramWithInvalidWordIsRefused := by
  unfold Obligations.ProgramWithInvalidWordIsRefused
  exact ⟨fun _ h => decodeCmd_reserved h,
    fun _ _ _ _ _ hs ho hl hd => step_refused_of_mem hs ho hl (lineRefusal_error hd)⟩

/-- Settles O5: each word is decoded by evaluation. -/
theorem spelledWordsDecode : Obligations.SpelledWordsDecode := by
  unfold Obligations.SpelledWordsDecode
  decide

end Sys2Proof.Machine
end

section
/-!
PROOFS. The hardware agent (40_register_window.md R130 to R135): when each of its three steps is enabled and what it then
changes.
-/

namespace Sys2Proof.Machine

/-! ### When a step is enabled -/

theorem hwLine_eq {s : State} {n : Nat} (h : HardwareLines s n) (i : Nat) : hwLine s i = decide (i < n) := by
  unfold hwLine
  obtain ⟨hc, rfl⟩ | ⟨c, hc, rfl, -⟩ := h <;> rw [hc]

theorem HardwareLines.le {s : State} {n : Nat} (h : HardwareLines s n) : n ≤ 32 := by
  obtain ⟨-, rfl⟩ | ⟨-, -, -, hn⟩ := h
  exacts [Nat.le_refl _, hn]

/-- The level condition of each TT code (R132). -/
theorem levelCondition_eq : ∀ (tt : BitVec 3) (level : Bool), levelCondition tt level =
    (decide (tt = 0#3) && level || decide (tt = 1#3) && !level || decide (5 ≤ tt.toNat)) := by decide

/-- A change of level to `v` is an edge for a rising, a falling or a both-edges TT code (R132). -/
theorem edgeCondition_change : ∀ (tt : BitVec 3) (old v : Bool), v ≠ old →
    (edgeCondition tt old v = true ↔ tt = 2#3 ∧ v = true ∨ tt = 3#3 ∧ v = false ∨ tt = 4#3) := by decide

theorem latchLevelEnabled_eq {s : State} {n : Nat} (h : HardwareLines s n) (hl : s.params.latch = .refined) (i : Nat) :
    latchLevelEnabled i s = (decide (i < n) && levelCondition (s.cfgAt i).tt (s.level.getLsbD i)) := by
  rw [latchLevelEnabled, hwLine_eq h, hl]; rfl

theorem setLevelEnabled_iff (i : Nat) (v : Bool) (s : State) : setLevelEnabled i v s = true ↔
    s.params.latch = .refined ∧ hwLine s i = true ∧ v ≠ s.level.getLsbD i ∧
      ¬ (s.params.inLoopback = true ∧ (s.cfgAt i).driving = true) := by
  simp only [setLevelEnabled, Bool.and_eq_true, beq_iff_eq, bne_iff_ne, Bool.not_eq_true', Bool.eq_false_iff, and_assoc,
    ne_eq]

/-! ### What a step changes -/

theorem hwLatch_loose {s : State} (h : s.params.latch = .loose) (m : Word) :
    hwLatch m s = { s with irq := s.irq ||| m } := by
  unfold hwLatch; rw [h]

theorem hwLatch_refined {s : State} (h : s.params.latch = .refined) (m : Word) : hwLatch m s = s := by
  unfold hwLatch; rw [h]

theorem hwLatchLevel_eq (i : Nat) (s : State) :
    hwLatchLevel i s = { s with irq := if latchLevelEnabled i s then s.irq ||| lineBit i else s.irq } := by
  unfold hwLatchLevel; split <;> rfl

theorem hwLatchLevel_loose {s : State} (h : s.params.latch = .loose) (i : Nat) : hwLatchLevel i s = s := by
  have hoff : latchLevelEnabled i s = false := by rw [latchLevelEnabled, h]; rfl
  unfold hwLatchLevel; rw [hoff]; rfl

/-- IRQ after a change of the level of line `i` to `v`: the line's bit is set when the edge latches (R132, R133). -/
def latchedIrq (i : Nat) (v : Bool) (s : State) : Word :=
  if edgeLatches (s.cfgAt i) (s.level.getLsbD i) v (s.draw.getLsbD i) then s.irq ||| lineBit i else s.irq

theorem hwSetLevel_enabled {i : Nat} {v : Bool} {s : State} (h : setLevelEnabled i v s = true) :
    hwSetLevel i v s = { s with level := setBit s.level i v, irq := latchedIrq i v s, draws := s.draws + 1 } := by
  unfold hwSetLevel; rw [if_pos h]; rfl

theorem hwSetLevel_disabled {i : Nat} {v : Bool} {s : State} (h : ¬ setLevelEnabled i v s = true) :
    hwSetLevel i v s = s := by
  unfold hwSetLevel; rw [if_neg h]

/-! ### The sticky bits -/

theorem getLsbD_or_lineBit (w : Word) (i b : Nat) :
    (w ||| lineBit i).getLsbD b = (w.getLsbD b || (decide (b < 32) && decide (b = i))) := by
  rw [BitVec.getLsbD_or, getLsbD_lineBit]

theorem getLsbD_latchedIrq (i : Nat) (v : Bool) (s : State) {b : Nat} (hb : b < 32) :
    (latchedIrq i v s).getLsbD b = (s.irq.getLsbD b ||
      (decide (b = i) && edgeLatches (s.cfgAt i) (s.level.getLsbD i) v (s.draw.getLsbD i))) := by
  unfold latchedIrq
  split
  next h => rw [getLsbD_or_lineBit, h, decide_eq_true hb, Bool.true_and, Bool.and_true]
  next h => rw [Bool.eq_false_iff.mpr h, Bool.and_false, Bool.or_false]

/-- The hardware agent only sets sticky bits (10_state.md R29). -/
theorem hwLatch_keeps_irq (m : Word) {s : State} {b : Nat} (h : s.irq.getLsbD b = true) :
    (hwLatch m s).irq.getLsbD b = true := by
  cases hl : s.params.latch with
  | loose => rw [hwLatch_loose hl]; simp [h]
  | refined => rw [hwLatch_refined hl]; exact h

theorem hwLatchLevel_keeps_irq (i : Nat) {s : State} {b : Nat} (h : s.irq.getLsbD b = true) :
    (hwLatchLevel i s).irq.getLsbD b = true := by
  rw [hwLatchLevel_eq]
  change (if latchLevelEnabled i s then s.irq ||| lineBit i else s.irq).getLsbD b = true
  split
  · rw [getLsbD_or_lineBit, h, Bool.true_or]
  · exact h

theorem hwSetLevel_keeps_irq (i : Nat) (v : Bool) {s : State} {b : Nat} (h : s.irq.getLsbD b = true) :
    (hwSetLevel i v s).irq.getLsbD b = true := by
  by_cases he : setLevelEnabled i v s = true
  · rw [hwSetLevel_enabled he]
    exact (getLsbD_latchedIrq i v s (BitVec.lt_of_getLsbD h)).trans (by rw [h, Bool.true_or])
  · rw [hwSetLevel_disabled he]; exact h

/-! ### The statements -/

section
variable {s : State} {rest : List Move}

theorem step_of_schedule_latch {m : Word} (h : s.schedule = .latch m :: rest) :
    step s = .next (hwLatch m { s with schedule := rest }) := by
  unfold step takeMove; rw [h]

theorem step_of_schedule_latchLevel {i : Nat} (h : s.schedule = .latchLevel i :: rest) :
    step s = .next (hwLatchLevel i { s with schedule := rest }) := by
  unfold step takeMove; rw [h]

theorem step_of_schedule_setLevel {i : Nat} {v : Bool} (h : s.schedule = .setLevel i v :: rest) :
    step s = .next (hwSetLevel i v { s with schedule := rest }) := by
  unfold step takeMove; rw [h]

end

/-- Settles O46: the step of each latch model. -/
theorem looseLatchSetsBits : Obligations.LooseLatchSetsBits := by
  unfold Obligations.LooseLatchSetsBits
  intro s rest m hs
  rw [step_of_schedule_latch hs]
  exact ⟨fun hl => congrArg _ (hwLatch_loose (s := { s with schedule := rest }) hl m),
    fun hl => congrArg _ (hwLatch_refined (s := { s with schedule := rest }) hl m)⟩

/-- Settles O47: the step is enabled where the level condition of the line's TT code holds. -/
theorem levelLatchFollowsTrigger : Obligations.LevelLatchFollowsTrigger := by
  unfold Obligations.LevelLatchFollowsTrigger
  intro s n rest i hs hn
  rw [step_of_schedule_latchLevel hs]
  refine ⟨fun hl => ⟨_, congrArg _ (hwLatchLevel_eq i _), fun b hb => ?_⟩,
    fun hl => congrArg _ (hwLatchLevel_loose (s := { s with schedule := rest }) hl i)⟩
  have he : latchLevelEnabled i { s with schedule := rest } =
      (decide (i < n) && levelCondition (s.cfgAt i).tt (s.level.getLsbD i)) :=
    latchLevelEnabled_eq (s := { s with schedule := rest }) hn hl i
  rw [he, ← levelCondition_eq, Bool.and_assoc]
  split
  next hon => rw [hon, getLsbD_or_lineBit, decide_eq_true hb, Bool.true_and, Bool.and_true]
  next hoff => rw [Bool.eq_false_iff.mpr hoff, Bool.and_false, Bool.or_false]

/-- Settles O48: the step is enabled under the statement's condition, and then latches where the change is an edge of the
line's TT code. -/
theorem levelChangeLatchesEdges : Obligations.LevelChangeLatchesEdges := by
  unfold Obligations.LevelChangeLatchesEdges
  intro s n rest i v hs hn
  rw [step_of_schedule_setLevel hs]
  have hiff := setLevelEnabled_iff i v { s with schedule := rest }
  rw [hwLine_eq (s := { s with schedule := rest }) hn i, decide_eq_true_eq] at hiff
  split
  next h =>
    have hon := hwSetLevel_enabled (hiff.mpr h)
    obtain ⟨-, hi, hv, -⟩ := h
    have hi32 : i < 32 := hi.trans_le hn.le
    refine ⟨_, _, congrArg _ hon, fun b hb => ?_, fun b hb hbi => ?_, ?_⟩
    · rw [getLsbD_setBit, decide_eq_true hb, Bool.true_and]
    · rw [getLsbD_latchedIrq _ _ _ hb, decide_eq_false hbi, Bool.false_and, Bool.or_false]
    · rw [getLsbD_latchedIrq _ _ _ hi32, decide_eq_true rfl, Bool.true_and]
      have hedge := edgeCondition_change (s.cfgAt i).tt (s.level.getLsbD i) v hv
      split
      next hmatch =>
        refine ⟨fun hq => ?_, fun hint hei => ?_⟩
        · exact (Bool.or_eq_true _ _).mpr (.inl hq)
        · refine (Bool.or_eq_true _ _).mpr (.inr ?_)
          change edgeLatches (s.cfgAt i) (s.level.getLsbD i) v _ = true
          rw [edgeLatches, hedge.mpr hmatch, hint, hei]; rfl
      next hmatch =>
        change (s.irq.getLsbD i || edgeLatches (s.cfgAt i) (s.level.getLsbD i) v _) = s.irq.getLsbD i
        rw [edgeLatches, Bool.eq_false_iff.mpr (mt hedge.mp hmatch), Bool.false_and, Bool.or_false]
  next h => exact congrArg _ (hwSetLevel_disabled (mt hiff.mp h))

/-- Settles O49: each of the three steps sets sticky bits alone and leaves CFG, OUT, the controller and the agents. -/
theorem hardwareNeverClearsNorConfigures : Obligations.HardwareNeverClearsNorConfigures := by
  unfold Obligations.HardwareNeverClearsNorConfigures
  intro s rest m hm hs
  have hag : ∀ a, ({ s with schedule := rest } : State).agent a = s.agent a := fun a => by cases a <;> rfl
  obtain ⟨w, rfl⟩ | ⟨i, rfl⟩ | ⟨i, v, rfl⟩ := hm
  · exact ⟨_, step_of_schedule_latch hs, by simp, by simp, fun b hb => hwLatch_keeps_irq w hb, by simp [hag]⟩
  · exact ⟨_, step_of_schedule_latchLevel hs, by simp, by simp, fun b hb => hwLatchLevel_keeps_irq i hb, by simp [hag]⟩
  · exact ⟨_, step_of_schedule_setLevel hs, by simp, by simp, fun b hb => hwSetLevel_keeps_irq i v hb, by simp [hag]⟩

end Sys2Proof.Machine
end

section
/-!
PROOFS. The levels of driving lines under Refined loopback (40_register_window.md R133, R134): what a write and a change of
level leave of each line, and that every step keeps the level of a driving line equal to OUT's bit.
-/

namespace Sys2Proof.Machine

/-- Whether the levels follow OUT is read off the parameters, CFG, OUT and the levels. -/
theorem LevelsFollowOut.congr {s t : State} (h : LevelsFollowOut s) (hp : t.params = s.params) (hc : t.cfg = s.cfg)
    (ho : t.out = s.out) (hl : t.level = s.level) : LevelsFollowOut t := by
  have hcfg : ∀ b, t.cfgAt b = s.cfgAt b := cfgAt_congr hc
  unfold LevelsFollowOut at h ⊢
  simpa only [State.levelsDriven, hp, hcfg, ho, hl] using h

/-- Once the lines of `l` are driven, it is enough that the other driving lines followed OUT. -/
theorem levelsFollowOut_driveLevels {u : State} (l : Nat → Bool)
    (h : u.levelsDriven → ∀ b, b < 32 → l b = false → (u.cfgAt b).driving = true →
      u.level.getLsbD b = u.out.getLsbD b) : LevelsFollowOut (driveLevels l u) := by
  intro hl b hb hd
  have hl : u.levelsDriven := by simpa only [State.levelsDriven, driveLevels_params] using hl
  rw [cfgAt_driveLevels] at hd
  rw [driveLevels_levels l hl b hb, driveLevels_out]
  cases hlb : l b with
  | true => simp [hd]
  | false => simpa using h hl b hb hlb hd

/-- A write drives the line or lines it changes, and leaves every other one. -/
theorem put_keeps_levelsFollowOut {s t : State} {d : Word} {r : Reg} (h : LevelsFollowOut s) (ht : s.put d r = .ok t) :
    LevelsFollowOut t := by
  obtain ⟨i, -, rfl⟩ | ⟨-, rfl⟩ | ⟨-, rfl⟩ := put_cases ht
  · refine levelsFollowOut_driveLevels _ fun hl b hb hbi hd => ?_
    rw [cfgAt_setCfg_ne _ (by simpa using hbi)] at hd
    exact h hl b hb hd
  · exact h.congr rfl rfl rfl rfl
  · refine levelsFollowOut_driveLevels _ fun hl b hb hbn hd => ?_
    have hout : (mergeBelow s.lineCount d s.out).getLsbD b = s.out.getLsbD b := by
      rw [getLsbD_mergeBelow, if_neg (of_decide_eq_false hbn), decide_eq_true hb, Bool.true_and]
    rw [setOut_out, hout]
    exact h hl b hb hd

/-- The hardware agent leaves the level of a line that drives under loopback. -/
theorem hwSetLevel_keeps_levelsFollowOut {s : State} (h : LevelsFollowOut s) (i : Nat) (v : Bool) :
    LevelsFollowOut (hwSetLevel i v s) := by
  by_cases he : setLevelEnabled i v s = true
  · rw [hwSetLevel_enabled he]
    obtain ⟨-, -, -, hfree⟩ := (setLevelEnabled_iff i v s).mp he
    intro hl b hb (hd : (s.cfgAt b).driving = true)
    have hbi : b ≠ i := by rintro rfl; exact hfree ⟨hl.2, hd⟩
    have hlevel : (setBit s.level i v).getLsbD b = s.level.getLsbD b := by
      rw [getLsbD_setBit, if_neg hbi, decide_eq_true hb, Bool.true_and]
    exact hlevel.trans (h hl b hb hd)
  · rw [hwSetLevel_disabled he]; exact h

theorem Effect.keeps_levelsFollowOut {e t : State} (h : Effect e t) (he : LevelsFollowOut e) : LevelsFollowOut t := by
  cases h with
  | write r d u hu | writeAnswer r d u hu =>
    exact (put_keeps_levelsFollowOut he hu).congr (by simp) (by simp) (by simp) (by simp)
  | _ => exact he.congr (by simp) (by simp) (by simp) (by simp)

theorem StepEffect.keeps_levelsFollowOut {e t : State} (h : StepEffect e t) (he : LevelsFollowOut e) :
    LevelsFollowOut t := by
  cases h with
  | micro hm => exact hm.keeps_levelsFollowOut he
  | setLevel i v => exact hwSetLevel_keeps_levelsFollowOut he i v
  | _ => exact he.congr (by simp) (by simp) (by simp) (by simp)

/-- Settles O52: a CFG or OUT write drives the lines it changes, the hardware leaves a driving line alone, and every other
effect leaves CFG, OUT and the levels. -/
theorem stepKeepsLevelsFollowOut : Obligations.StepKeepsLevelsFollowOut := by
  unfold Obligations.StepKeepsLevelsFollowOut
  intro s t h ht
  obtain ⟨e, hs, he⟩ := step_effect ht
  exact he.keeps_levelsFollowOut (h.congr hs.params hs.cfg hs.out hs.level)

end Sys2Proof.Machine
end

section
/-!
PROOFS. The raw accesses where they are admitted (40_register_window.md R120 to R127): each is one read or one write that
completes, and the word or the change is that of the register.
-/

namespace Sys2Proof.Machine

/-! ### One access -/

section
variable {s : State} {c : Controller} {op : Instr} {r : Reg} (h : RawReady s c) (hr : regExists r)
include h hr

/-- A raw read completes, yields the register's view and leaves everything else (R120, R122, R124, R126). -/
theorem rawRead_yields (he : exec op s = rawRead (s.params.offOf r) (enter op s)) :
    ∃ t, exec op s = .next t ∧ Returned (.okWord (s.view s.draw r)) s t ∧ t.draws = s.draws + 1 ∧ KeepsRegisters s t ∧
      KeepsInstance s t := by
  obtain ⟨⟨-, hcur, -, -, hp⟩, -, hfresh⟩ := h
  obtain ⟨hme, hq, hk, hl, hd⟩ := begun op hcur hfresh
  have hview : (enter op s).view (enter op s).draw r = s.view s.draw r := by
    rw [view_congr hq hk]; unfold State.draw; rw [hd]
  have hread := memRead_reg (s := enter op s) (by rw [enter_params]; exact hp) hr fun w t => finish (.okWord w) t
  rw [enter_params, hview] at hread
  refine ⟨_, he.trans hread, ?_, by simp, by simp [KeepsRegisters],
    ((hq.trans (quiet_drew _)).trans (quiet_finish _ _)).keeps (by simp)⟩
  unfold Returned
  rw [me_finish _ (by simpa using hcur), me_drew, hme]

/-- A raw write completes with `Ok`, and leaves the registers as the write of the register leaves them (R121, R123,
R127). -/
theorem rawWrite_stores {d : Word} {u : State} (hu : (enter op s).put d r = .ok u)
    (he : exec op s = rawWrite (s.params.offOf r) d (enter op s)) :
    ∃ t, exec op s = .next t ∧ Returned .ok s t ∧ KeepsRegisters u t ∧ t.draws = u.draws ∧ KeepsInstance s t := by
  obtain ⟨⟨-, hcur, -, -, hp⟩, -, hfresh⟩ := h
  obtain ⟨hme, hq, -, hl, -⟩ := begun op hcur hfresh
  have hwrite := memWrite_reg (s := enter op s) (by rw [enter_params]; exact hp) hr hu (finish .ok)
  rw [enter_params] at hwrite
  have hlu : u.lock = s.lock := (put_keeps hu).2.2.2.1.trans hl
  refine ⟨_, he.trans hwrite, ?_, by simp [KeepsRegisters], by simp,
    ((hq.trans (quiet_put hu)).trans (quiet_finish _ _)).keeps (by rw [finish_lock, hlu])⟩
  unfold Returned
  rw [me_finish _ (by rw [(quiet_put hu).hasCur, hasCur_enter]; exact hcur), me_put hu, hme]

end

/-! ### The words a read yields -/

/-- The reserved bits of a CFG word read as the draw (10_state.md R25). -/
theorem getLsbD_toWord_reserved (c : PinConfig) (r : Word) {b : Nat} (h : b = 4 ∨ 8 ≤ b) :
    (c.toWord r).getLsbD b = r.getLsbD b := by
  have hbit : c.bit r b = r.getLsbD b := by
    obtain ⟨h0, h1, h2, h3, h5⟩ : b ≠ 0 ∧ b ≠ 1 ∧ b ≠ 2 ∧ b ≠ 3 ∧ ¬ (5 ≤ b ∧ b < 8) := by omega
    simp [PinConfig.bit, h0, h1, h2, h3, h5]
  rw [getLsbD_toWord, hbit, Bool.and_eq_right_iff_imp, decide_eq_true_eq]
  exact fun hb => BitVec.lt_of_getLsbD hb

/-- The pin view with the drive condition and the latch model written out (R134). -/
theorem pinView_eq (loopback : Bool) (m : LatchModel) (c : PinConfig) (out level r : Bool) :
    pinView loopback m c out level r =
      if loopback && c.eo && c.oe && !c.ei then out else if m = .refined then level else r := by
  simp only [pinView, PinConfig.driving, Bool.and_assoc]
  cases m <;> rfl

/-- Settles O7: the fields a write of the word would store are the stored ones, and its other bits are the draw's. -/
theorem rdCfgYieldsFieldsAndDraw : Obligations.RdCfgYieldsFieldsAndDraw := by
  unfold Obligations.RdCfgYieldsFieldsAndDraw
  intro s c i h hi
  obtain ⟨⟨hctx, -, hctl, hn, -⟩, hraw, -⟩ := id h
  obtain ⟨t, he, hret, hd, hk, hinst⟩ :=
    rawRead_yields (r := .cfg i) h (hi.trans_le hn) (exec_rdCfg hctx hctl hraw hi)
  have hfields := ofWord_view_cfg s s.draw i
  exact ⟨t, _, he, hret, congrArg PinConfig.eo hfields, congrArg PinConfig.ei hfields, congrArg PinConfig.oe hfields,
    congrArg PinConfig.eint hfields, congrArg PinConfig.tt hfields, fun b hb => getLsbD_toWord_reserved _ _ hb, hd, hk,
    hinst⟩

/-- Settles O8: the view of IRQ. -/
theorem rdIrqYieldsStatusBelowCount : Obligations.RdIrqYieldsStatusBelowCount := by
  unfold Obligations.RdIrqYieldsStatusBelowCount
  intro s c h
  obtain ⟨⟨hctx, -, hctl, -, -⟩, hraw, -⟩ := id h
  obtain ⟨t, he, hret, hd, hk, hinst⟩ := rawRead_yields (r := .irq) h trivial (exec_rdIrq hctx hctl hraw)
  refine ⟨t, _, he, hret, fun b hb => ?_, hd, hk, hinst⟩
  simp only [State.view, getLsbD_mergeBelow, lineCount_ready hctl, decide_eq_true hb, Bool.true_and]; rfl

/-- Settles O9: the view of IN. -/
theorem rdInYieldsPinView : Obligations.RdInYieldsPinView := by
  unfold Obligations.RdInYieldsPinView
  intro s c h
  obtain ⟨⟨hctx, -, hctl, -, -⟩, hraw, -⟩ := id h
  obtain ⟨t, he, hret, hd, hk, hinst⟩ := rawRead_yields (r := .inp) h trivial (exec_rdIn hctx hctl hraw)
  refine ⟨t, _, he, hret, fun b hb => ?_, hd, hk, hinst⟩
  simp only [State.view, getLsbD_wordOfBits, pinView_eq, lineCount_ready hctl, decide_eq_true hb, Bool.true_and]; rfl

/-- Settles O10: the view of OUT. -/
theorem rdOutYieldsOutputBelowCount : Obligations.RdOutYieldsOutputBelowCount := by
  unfold Obligations.RdOutYieldsOutputBelowCount
  intro s c h
  obtain ⟨⟨hctx, -, hctl, -, -⟩, hraw, -⟩ := id h
  obtain ⟨t, he, hret, hd, hk, hinst⟩ := rawRead_yields (r := .out) h trivial (exec_rdOut hctx hctl hraw)
  refine ⟨t, _, he, hret, fun b hb => ?_, hd, hk, hinst⟩
  simp only [State.view, getLsbD_mergeBelow, lineCount_ready hctl, decide_eq_true hb, Bool.true_and]; rfl

/-! ### What a write leaves -/

/-- A driving line has EI clear, so the edge latch of a driven level is optional (R132, gating): the draw decides it. -/
theorem edgeLatches_driving {c : PinConfig} (h : c.driving = true) (old new may : Bool) :
    edgeLatches c old new may = (edgeCondition c.tt old new && may) := by
  have hei : c.ei = false := by
    rw [PinConfig.driving, Bool.and_eq_true, Bool.not_eq_true'] at h
    exact h.2
  rw [edgeLatches, hei, Bool.and_false, Bool.false_or]

/-- Each line through a write: under Refined loopback a driving line of `l` takes OUT's bit as its level and may latch the
edge of that change; every other line stays (R127, R133, R134). -/
theorem driveLevels_line (l : Nat → Bool) (s : State) {b : Nat} (hb : b < 32) :
    if s.levelsDriven ∧ l b = true ∧ (s.cfgAt b).driving = true then
      (driveLevels l s).level.getLsbD b = s.out.getLsbD b ∧
      (driveLevels l s).irq.getLsbD b = (s.irq.getLsbD b ||
        (edgeCondition (s.cfgAt b).tt (s.level.getLsbD b) (s.out.getLsbD b) && s.draw.getLsbD b))
    else (driveLevels l s).level.getLsbD b = s.level.getLsbD b ∧ (driveLevels l s).irq.getLsbD b = s.irq.getLsbD b := by
  by_cases hl : s.levelsDriven
  · rw [driveLevels_levels l hl b hb, driveLevels_irq l hl b hb]
    by_cases hd : l b = true ∧ (s.cfgAt b).driving = true
    · obtain ⟨hlb, hdrive⟩ := hd
      rw [if_pos ⟨hl, hlb, hdrive⟩, edgeLatches_driving hdrive, hlb, hdrive]
      exact ⟨rfl, rfl⟩
    · have hoff : (l b && (s.cfgAt b).driving) = false := by simpa [Bool.and_eq_true] using hd
      rw [if_neg fun h => hd h.2, hoff]
      exact ⟨rfl, Bool.or_false _⟩
  · rw [if_neg fun h => hl h.1, driveLevels_off l hl]
    exact ⟨rfl, rfl⟩

/-- Settles O12: the write of IRQ. -/
theorem wrIrqClearsTheOnes : Obligations.WrIrqClearsTheOnes := by
  unfold Obligations.WrIrqClearsTheOnes
  intro s c d h
  obtain ⟨⟨hctx, -, hctl, -, -⟩, hraw, -⟩ := id h
  obtain ⟨t, he, hret, ⟨hcfg, hirq, hout, hlevel⟩, hd, hinst⟩ :=
    rawWrite_stores (r := .irq) h trivial rfl (exec_wrIrq hctx hctl hraw d)
  refine ⟨t, he, hret, fun b _ => ?_, by simpa using hcfg, by simpa using hout, by simpa using hlevel, by simpa using hd,
    hinst⟩
  rw [hirq, setIrq_irq, getLsbD_clearBits, enter_irq]

/-- Settles O11: the write of one CFG word, after which its line alone may be driven. -/
theorem wrCfgStoresFields : Obligations.WrCfgStoresFields := by
  unfold Obligations.WrCfgStoresFields
  intro s c i d h hi
  obtain ⟨⟨hctx, -, hctl, hn, -⟩, hraw, -⟩ := id h
  have hi32 : i < 32 := hi.trans_le hn
  obtain ⟨t, he, hret, ⟨hcfg, hirq, hout, hlevel⟩, -, hinst⟩ :=
    rawWrite_stores (r := .cfg i) h hi32 rfl (exec_wrCfg hctx hctl hraw hi d)
  have hat : ∀ j, t.cfgAt j = ((enter (.wrCfg i d) s).setCfg i (PinConfig.ofWord d)).cfgAt j := fun j => by
    rw [cfgAt_congr hcfg, cfgAt_driveLevels]
  have hline {b : Nat} (hb : b < 32) :=
    driveLevels_line (fun j => j == i) ((enter (.wrCfg i d) s).setCfg i (PinConfig.ofWord d)) hb
  refine ⟨t, he, hret, ?_, fun j hj => ?_, by simpa using hout, hinst, fun b hb hbi => ?_, ?_⟩
  · rw [hat, cfgAt_setCfg _ hi32]; rfl
  · rw [hat, cfgAt_setCfg_ne _ hj, cfgAt_enter]
  · rw [hirq, hlevel]
    have hstay := hline hb
    rw [if_neg (by simp [hbi])] at hstay
    simpa using hstay.symm
  · rw [hirq, hlevel]
    have hown := hline hi32
    rw [cfgAt_setCfg _ hi32] at hown
    simpa [State.draw, PinConfig.driving, PinConfig.ofWord, and_assoc] using hown

/-- Settles O13: the write of OUT, after which every driving line below the count follows. -/
theorem wrOutStoresBelowCount : Obligations.WrOutStoresBelowCount := by
  unfold Obligations.WrOutStoresBelowCount
  intro s c d h
  obtain ⟨⟨hctx, -, hctl, -, -⟩, hraw, -⟩ := id h
  obtain ⟨t, he, hret, ⟨hcfg, hirq, hout, hlevel⟩, -, hinst⟩ :=
    rawWrite_stores (r := .out) h trivial rfl (exec_wrOut hctx hctl hraw d)
  have hn := lineCount_ready hctl
  refine ⟨t, he, hret, fun b hb => ?_, by simpa using hcfg, hinst, fun b hb => ?_⟩
  · rw [hout, driveLevels_out, setOut_out, getLsbD_mergeBelow, lineCount_enter, hn, enter_out, decide_eq_true hb,
      Bool.true_and]
  · rw [hirq, hlevel]
    have hline := driveLevels_line (fun b => decide (b < (enter (.wrOut d) s).lineCount))
      ((enter (.wrOut d) s).setOut (mergeBelow (enter (.wrOut d) s).lineCount d (enter (.wrOut d) s).out)) hb
    by_cases hbn : b < c.n
    · simpa [State.levelsDriven, State.draw, hn, hbn, getLsbD_mergeBelow, hb] using hline
    · simpa [hn, hbn] using hline

end Sys2Proof.Machine
end

section
/-!
PROOFS. Which registers an operation writes (40_register_window.md R125, R128): only WR_IN names IN, and no operation writes
a CFG word at or above the line count; and when a raw access is refused (R128, R129).
-/

namespace Sys2Proof.Machine

/-! ### The registers an operation writes -/

/-- The registers operation `i` may write: IRQ, OUT and the CFG word of its own index; INIT the CFG word of every line, and
WR_IN alone IN. -/
def MayWrite (i : Instr) : Reg → Prop
  | .cfg j => indexOf i = some j ∨ (∃ n, i = .init n) ∧ j < 32
  | .irq | .out => True
  | .inp => ∃ d, i = .wrIn d

/-- A micro-step that writes does so at a register of `P`. -/
def Micro.WritesTo (P : Reg → Prop) : Micro → Prop
  | .write r _ | .writeAnswer r _ => P r
  | _ => True

theorem Micro.WritesTo.imp {P Q : Reg → Prop} {m : Micro} (h : m.WritesTo P) (hPQ : ∀ r, P r → Q r) : m.WritesTo Q := by
  cases m with
  | write r d | writeAnswer r d => exact hPQ r h
  | _ => trivial

theorem rmwMicro_writesTo {P : Reg → Prop} {r : Reg} (hr : P r) (d : Word) (k : Nat) : (rmwMicro r d k).WritesTo P := by
  rcases k with _ | _ | _ | k
  exacts [trivial, trivial, hr, trivial]

theorem scanMicro_writesTo {P : Reg → Prop} (hirq : P .irq) (s : State) (w : Word) {last : Micro} (hl : last.WritesTo P)
    (k : Nat) : (scanMicro s w last k).WritesTo P := by
  obtain ⟨-, h⟩ | ⟨-, h⟩ | ⟨-, -, ⟨j, h⟩ | ⟨x, h⟩⟩ | ⟨-, h⟩ := scanMicro_cases s w last k <;> rw [h]
  exacts [trivial, trivial, hirq, trivial, hl]

/-- Every micro-step of the tables that writes does so at a register its operation may write. -/
theorem microOf_writesTo (s : State) (o : InFlight) : (microOf s o).WritesTo (MayWrite o.instr) := by
  obtain ⟨i, k, w⟩ := o
  have hown : ∀ j, indexOf i = some j → MayWrite i (.cfg j) := fun j hj => .inl hj
  cases i with
  | init m =>
    simp only [microOf, initMicro]
    split_ifs with hw hm hk he
    · trivial
    · trivial
    · trivial
    · exact .inr ⟨⟨m, rfl⟩, by simp only [maxLines] at hm; omega⟩
    · trivial
  | dirin | settype | irqdis => exact rmwMicro_writesTo (hown _ rfl) _ _
  | setval => exact rmwMicro_writesTo (r := .out) trivial _ _
  | dirout =>
    rcases k with _ | _ | _ | _ | k
    exacts [trivial, hown _ rfl, trivial, trivial, trivial]
  | irqen =>
    rcases k with _ | _ | _ | _ | _ | _ | _ | _ | _ | _ | k
    exacts [trivial, trivial, hown _ rfl, trivial, trivial, trivial, trivial, trivial, trivial, hown _ rfl, trivial]
  | handle => exact scanMicro_writesTo trivial s w (last := .handleDone) trivial k
  | handlechained =>
    cases k with
    | zero => trivial
    | succ k =>
      simp only [microOf]
      split
      · exact scanMicro_writesTo trivial s w (last := .release) trivial k
      · trivial
  | wrCfg => exact hown _ rfl
  | wrIn d => exact ⟨d, rfl⟩
  | getdir | getval | irqmask | irqunmask | rdCfg | rdIrq | wrIrq | rdIn | rdOut | wrOut => trivial

/-- What an operation past its checks may write stands in the window. -/
theorem MayWrite.regExists {s : State} {i : Instr} {r : Reg} (h : MayWrite i r) (ha : Admitted s i) (hn : s.lineCount ≤ 32) :
    regExists r := by
  cases r with
  | cfg j =>
    obtain hj | ⟨-, hj⟩ := h
    · exact (ha.checked.index j hj).trans_le hn
    · exact hj
  | irq | inp | out => trivial

/-! ### Refusals of a bus access -/

theorem resolve_ne_writeToIn (p : Params) (off width : Nat) : resolve p off width ≠ .error .writeToIn := by
  unfold resolve
  split
  · exact nofun
  · split <;> exact nofun

theorem memRead_ne_writeToIn (off width : Nat) (s : State) (k : Word → State → State) :
    memRead off width s k ≠ .refused .writeToIn := by
  intro h
  cases hr : resolve s.params off width with
  | ok r => simp [memRead, hr] at h
  | error e =>
    rw [memRead_refused hr k] at h
    cases h
    exact resolve_ne_writeToIn _ _ _ hr

section
variable {s : State} {r : Reg} (hp : s.params.WF) (hr : regExists r) (d : Word) (k : State → State)
include hp hr

/-- A write at a register's offset that answers a next state stores into that register. -/
theorem memWrite_next {t : State} (h : memWrite (s.params.offOf r) 4 d s k = .next t) :
    ∃ u, s.put d r = .ok u ∧ t = k u := by
  obtain ⟨x, u, hx, hu, he⟩ | ⟨e, he⟩ := memWrite_cases (s.params.offOf r) 4 d s k <;> rw [he] at h <;> cases h
  rw [resolve_offOf hp hr] at hx
  cases hx
  exact ⟨u, hu, rfl⟩

theorem memWrite_ne_writeToIn (hin : r ≠ .inp) : memWrite (s.params.offOf r) 4 d s k ≠ .refused .writeToIn := by
  obtain ⟨u, hu⟩ := put_ok s d hin
  rw [memWrite_reg hp hr hu]
  exact nofun

end

/-! ### Writes to IN -/

/-- A micro-step that writes registers of the window other than IN is not refused for a write to IN. -/
theorem Micro.run_ne_writeToIn {e : State} (hp : e.params.WF) {m : Micro}
    (hm : m.WritesTo fun r => regExists r ∧ r ≠ .inp) : m.run e ≠ .refused .writeToIn := by
  have acquires : Machine.acquire e ≠ .refused .writeToIn := by
    obtain ⟨-, h⟩ | ⟨-, h⟩ := acquire_cases e <;> rw [h] <;> exact nofun
  have releases : ∀ k, Machine.release e k ≠ .refused .writeToIn := fun k => by
    obtain ⟨-, h⟩ | ⟨-, h⟩ := release_cases e k <;> rw [h] <;> exact nofun
  cases m with
  | acquire => exact acquires
  | release | done | handleDone => exact releases _
  | read r f => exact memRead_ne_writeToIn _ _ e fun w t => advance (f w) t
  | readAnswer r f => exact memRead_ne_writeToIn _ _ e fun w t => finish (f w) t
  | write r d | writeAnswer r d => exact memWrite_ne_writeToIn hp hm.1 _ _ hm.2
  | event | chainedDone | answer | publish => exact nofun

section
variable {s : State} {i : Instr}

theorem inContext_writeToIn {c : Context} {k : Out} (h : inContext c s k = .refused .writeToIn) :
    contextOf s.cur = c ∧ k = .refused .writeToIn := by
  unfold inContext at h
  split at h
  next hc => exact ⟨hc, h⟩
  next => cases h

theorem whenReady_writeToIn {k : Controller → Out} (h : whenReady s k = .refused .writeToIn) :
    ∃ c, s.ctl = some c ∧ k c = .refused .writeToIn := by
  unfold whenReady at h
  split at h
  next => cases h
  next c hr => exact ⟨c, hr, h⟩

theorem lineOp_writeToIn {index : Nat} {bad : Result} {k : State → Out} (h : lineOp i index bad s k = .refused .writeToIn) :
    ∃ c, s.ctl = some c ∧ contextOf s.cur = .call ∧ index < c.n := by
  obtain ⟨hc, h⟩ := inContext_writeToIn h
  obtain ⟨c, hr, h⟩ := whenReady_writeToIn h
  refine ⟨c, hr, hc, ?_⟩
  by_contra hi
  rw [if_neg hi] at h
  cases h

theorem rawAccess_writeToIn {k : Controller → State → Out} (h : rawAccess i s k = .refused .writeToIn) :
    ∃ c, s.ctl = some c ∧ contextOf s.cur = .call ∧ s.params.rawBus = true ∧ k c (enter i s) = .refused .writeToIn := by
  obtain ⟨hc, h⟩ := inContext_writeToIn h
  split at h
  next hb =>
    obtain ⟨c, hr, h⟩ := whenReady_writeToIn h
    exact ⟨c, hr, hc, hb, h⟩
  next => cases h

theorem belowCount_writeToIn {c : Controller} {j : Nat} {o : Out} (h : belowCount c j o = .refused .writeToIn) :
    j < c.n := by
  unfold belowCount at h
  split at h
  next hj => exact hj
  next => cases h

theorem dispatchOp_writeToIn {k : Controller → State → Out} (h : dispatchOp i s k = .refused .writeToIn) :
    ∃ c, s.ctl = some c ∧ s.cur = .dispatch ∧ s.handleBusy = true := by
  obtain ⟨hc, h⟩ := inContext_writeToIn h
  obtain ⟨c, hr, h⟩ := whenReady_writeToIn h
  refine ⟨c, hr, eq_dispatch_of_interrupt hc, ?_⟩
  by_contra hb
  rw [if_neg hb] at h
  cases h

theorem lineOp_writeToIn_admitted {index : Nat} {bad : Result} {k : State → Out} (hi : contextFor i = .call)
    (hx : indexOf i = some index) (hw : isRaw i = false) (h : lineOp i index bad s k = .refused .writeToIn) :
    Admitted s i := by
  obtain ⟨c, hr, hc, hn⟩ := lineOp_writeToIn h
  exact ⟨checked_of_call hc hr hi fun j hj => by rw [hx] at hj; cases hj; exact hn, rawAdmitted_of_not_raw hw⟩

theorem rawAccess_writeToIn_admitted {k : Controller → State → Out} (hi : contextFor i = .call) (hw : ∀ d, i ≠ .wrIn d)
    (hx : ∀ c j, indexOf i = some j → k c (enter i s) = .refused .writeToIn → j < c.n)
    (h : rawAccess i s k = .refused .writeToIn) : Admitted s i := by
  obtain ⟨c, hr, hc, hb, hk⟩ := rawAccess_writeToIn h
  exact ⟨checked_of_call hc hr hi fun j hj => hx c j hj hk, fun _ => ⟨hb, hw⟩⟩

/-- No check refuses an operation for a write to IN: one that is refused so has passed them, or is WR_IN. -/
theorem exec_writeToIn_admitted (h : exec i s = .refused .writeToIn) : (∃ d, i = .wrIn d) ∨ Admitted s i := by
  cases i with
  | wrIn d => exact .inl ⟨d, rfl⟩
  | init n =>
    obtain ⟨hc, hk⟩ := inContext_writeToIn h
    cases hr : s.ctl with
    | some c => rw [hr] at hk; cases hk
    | none =>
      have hd : s.cur ≠ .dispatch := by rw [eq_platform_of_platform hc]; exact nofun
      exact .inr ⟨⟨hc.symm, nofun, ⟨fun _ => ⟨n, rfl⟩, fun _ => hr⟩, fun hx => absurd hx hd, nofun⟩, nofun⟩
  | getdir | dirin | dirout | getval | setval | settype | irqen | irqdis | irqmask | irqunmask =>
    simp only [exec, execGetdir, execDirin, execDirout, execGetval, execSetval, execSettype, execIrqen, execIrqdis,
      execIrqmask, execIrqunmask] at h
    exact .inr (lineOp_writeToIn_admitted rfl rfl rfl h)
  | handle =>
    simp only [exec, execHandle] at h
    obtain ⟨c, hr, hc, hb⟩ := dispatchOp_writeToIn h
    exact .inr ⟨hc ▸ checked_of_delivered hr hb (.inl rfl), nofun⟩
  | handlechained =>
    simp only [exec, execHandlechained] at h
    split at h
    next hp =>
      obtain ⟨c, hr, hc, hb⟩ := dispatchOp_writeToIn h
      exact .inr ⟨hc ▸ checked_of_delivered hr hb (.inr ⟨rfl, hp⟩), nofun⟩
    next => cases h
  | rdCfg | wrCfg =>
    simp only [exec, execRdCfg, execWrCfg] at h
    refine .inr (rawAccess_writeToIn_admitted rfl nofun (fun c j hj hk => ?_) h)
    cases hj; exact belowCount_writeToIn hk
  | rdIrq | wrIrq | rdIn | rdOut | wrOut =>
    simp only [exec, execRdIrq, execWrIrq, execRdIn, execRdOut, execWrOut] at h
    exact .inr (rawAccess_writeToIn_admitted rfl nofun nofun h)

/-- An operation past its checks writes no IN, and so is not refused for it. -/
theorem Admitted.exec_ne_writeToIn (ha : Admitted s i) (hp : s.params.WF) (hn : CountBounded s) :
    exec i s ≠ .refused .writeToIn := by
  have hin : ∀ d, i ≠ .wrIn d := fun d hd => (ha.raw (by rw [hd]; rfl)).2 d hd
  rw [exec_eq_run ha]
  refine Micro.run_ne_writeToIn (by rw [enter_params]; exact hp) ((microOf_writesTo s (s.standing i)).imp fun r hr => ?_)
  refine ⟨MayWrite.regExists hr ha (lineCount_le hn), ?_⟩
  rintro rfl
  obtain ⟨d, hd⟩ := hr
  exact hin d hd

end

/-- No context's program may hold a write to IN: it is another context's, a raw access that is not admitted, or refused as
such. -/
theorem inadmissible_wrIn (p : Params) (c : Context) (d : Word) : ∃ e, inadmissible p c (.wrIn d) = some e := by
  by_cases hc : contextFor (.wrIn d) = c
  · cases hb : p.rawBus with
    | false => exact ⟨_, inadmissible_raw hc rfl hb⟩
    | true => exact ⟨.writeToIn, by unfold inadmissible; simp [hc, hb]⟩
  · exact ⟨_, inadmissible_context hc⟩

/-- Settles O14: the meaning, the admission and the decoder of WR_IN, and that no other operation writes IN. -/
theorem wrInHasNoStep : Obligations.WrInHasNoStep := by
  unfold Obligations.WrInHasNoStep
  refine ⟨fun s d => rfl, fun s a rest l d hs ho hl hd => ?_, fun p d hp hw => ?_, fun s i hp hn h => ?_⟩
  · obtain ⟨e, he⟩ := inadmissible_wrIn s.params (contextOf a) d
    exact step_refused_of_mem hs ho hl ((lineRefusal_ok hd).trans he)
  · rw [Nat.add_comm]
    exact decodeLine_busLine hp hw (r := .inp) trivial true d
  · obtain hi | ha := exec_writeToIn_admitted h
    · exact hi
    · exact absurd h (ha.exec_ne_writeToIn hp hn)

/-! ### Writes to CFG -/

/-- A micro-step leaves CFG, or leaves it as a write to one of its registers does. -/
theorem Micro.run_cfg {P : Reg → Prop} {e t : State} {m : Micro} (hp : e.params.WF) (hm : m.WritesTo P)
    (hr : ∀ r, P r → regExists r) (h : m.run e = .next t) :
    t.cfg = e.cfg ∨ ∃ r d u, P r ∧ e.put d r = .ok u ∧ t.cfg = u.cfg := by
  cases m with
  | write r d =>
    obtain ⟨u, hu, rfl⟩ := memWrite_next hp (hr r hm) d _ h
    exact .inr ⟨r, d, u, hm, hu, advance_cfg _ _⟩
  | writeAnswer r d =>
    obtain ⟨u, hu, rfl⟩ := memWrite_next hp (hr r hm) d _ h
    exact .inr ⟨r, d, u, hm, hu, finish_cfg _ _⟩
  | _ => exact .inl (by cases Micro.leaves_of_run h <;> simp)

/-- A write to a register other than CFG[i] leaves CFG[i]. -/
theorem cfgAt_put_ne {s u : State} {d : Word} {r : Reg} {i : Nat} (h : s.put d r = .ok u) (hr : r ≠ .cfg i) :
    u.cfgAt i = s.cfgAt i := by
  obtain ⟨j, rfl, rfl⟩ | ⟨-, rfl⟩ | ⟨-, rfl⟩ := put_cases h
  · rw [cfgAt_driveLevels, cfgAt_setCfg_ne _ fun hj => hr (by rw [hj])]
  · rw [cfgAt_setIrq]
  · rw [cfgAt_driveLevels, cfgAt_setOut]

section
variable {s t : State} {c : Controller} {i : Nat} (hc : s.ctl = some c) (hn : c.n ≤ 32) (hp : s.params.WF) (hi : c.n ≤ i)
include hc hn hp hi

/-- On a Ready controller a micro-step writes the CFG word of its operation's own line alone, which is below the count. -/
theorem exec_keeps_cfg_beyond {op : Instr} (h : exec op s = .next t) : t.cfgAt i = s.cfgAt i := by
  obtain ha | ⟨-, r, rfl⟩ := exec_admitted h
  · rw [exec_eq_run ha] at h
    have hcount := lineCount_ready hc
    obtain hk | ⟨r, d, u, hr, hu, hk⟩ := Micro.run_cfg (by rw [enter_params]; exact hp) (microOf_writesTo s _)
      (fun r hr => MayWrite.regExists hr ha (hcount.trans_le hn)) h
    · rw [cfgAt_congr hk, cfgAt_enter]
    · rw [cfgAt_congr hk, cfgAt_put_ne hu, cfgAt_enter]
      rintro rfl
      obtain hx | ⟨hinit, -⟩ := hr
      · exact absurd (ha.checked.index i hx) (by omega)
      · exact absurd (hc.symm.trans (ha.checked.absent_iff.mpr hinit)) nofun
  · rw [cfgAt_finish, cfgAt_enter]

theorem agentStep_keeps_cfg_beyond {a : AgentId} (h : agentStep a s = .next t) : t.cfgAt i = s.cfgAt i := by
  obtain hk | ⟨u, op, hk, -, -, he⟩ := agentStep_turn h
  · exact cfgAt_congr hk.cfg i
  · rw [exec_keeps_cfg_beyond (hk.ctl.trans hc) hn (by rw [hk.params]; exact hp) hi he, cfgAt_congr hk.cfg]

end

/-- Settles O54: only an agent's turn writes CFG, and it writes below the count. -/
theorem cfgBeyondCountNeverChanges : Obligations.CfgBeyondCountNeverChanges := by
  unfold Obligations.CfgBeyondCountNeverChanges
  intro s t c i hc hn hp h hi
  have h0 : (takeMove s).2.cfgAt i = s.cfgAt i := cfgAt_congr (takeMove_cfg s) i
  obtain ⟨a, -, ha⟩ | ⟨b, rfl⟩ | ⟨m, rfl⟩ | ⟨j, rfl⟩ | ⟨j, v, rfl⟩ := step_cases h
  · exact (agentStep_keeps_cfg_beyond (by rw [takeMove_ctl]; exact hc) hn (by rw [takeMove_params]; exact hp) hi ha).trans h0
  · exact (cfgAt_congr (deliver_cfg _ _) i).trans h0
  · exact (cfgAt_congr (hwLatch_cfg _ _) i).trans h0
  · exact (cfgAt_congr (hwLatchLevel_cfg _ _) i).trans h0
  · exact (cfgAt_congr (hwSetLevel_cfg _ _ _) i).trans h0

/-! ### When a raw access is refused -/

theorem rawAccess_off {s : State} (h : s.params.rawBus = false) (i : Instr) (k : Controller → State → Out) :
    ∃ r, rawAccess i s k = .refused r := by
  simp only [rawAccess, inContext, h]
  split <;> exact ⟨_, rfl⟩

/-- Without `P_RAW_BUS` a raw access has no step (R129). -/
theorem exec_raw_off {s : State} {i : Instr} (hi : isRaw i = true) (h : s.params.rawBus = false) :
    ∃ r, exec i s = .refused r := by
  cases i with
  | wrIn => exact ⟨_, rfl⟩
  | rdCfg | wrCfg | rdIrq | wrIrq | rdIn | rdOut | wrOut =>
    simp only [exec, execRdCfg, execWrCfg, execRdIrq, execWrIrq, execRdIn, execRdOut, execWrOut]
    exact rawAccess_off h _ _
  | _ => cases hi

theorem not_init_of_raw {i : Instr} (h : isRaw i = true) (n : Nat) : i ≠ .init n := by
  rintro rfl; cases h

/-- Without `P_RAW_BUS` no context's program may hold a raw access (R129). -/
theorem inadmissible_raw_off {p : Params} (c : Context) {i : Instr} (hi : isRaw i = true) (h : p.rawBus = false) :
    ∃ e, inadmissible p c i = some e := by
  by_cases hc : contextFor i = c
  · exact ⟨_, inadmissible_raw hc hi h⟩
  · exact ⟨_, inadmissible_context hc⟩

/-- Settles O15: the parameter and the controller are asked for before the access, and the line before that of CFG. -/
theorem rawAccessNeedsParameterReadyAndLine : Obligations.RawAccessNeedsParameterReadyAndLine := by
  unfold Obligations.RawAccessNeedsParameterReadyAndLine
  refine ⟨fun s i hi h => ?_, fun s a rest l i hs ho hl hd hi hb => ?_, fun s c i d h hi => ?_⟩
  · obtain hb | hc := h
    · exact exec_raw_off hi hb
    · exact onlyInitStepsWhileAbsent s i hc (not_init_of_raw hi)
  · obtain ⟨e, he⟩ := inadmissible_raw_off (contextOf a) hi hb
    exact step_refused_of_mem hs ho hl ((lineRefusal_ok hd).trans he)
  · obtain ⟨⟨hctx, -, hctl, -, -⟩, hraw, -⟩ := h
    have refused : ∀ (op : Instr) (k : State → Out),
        rawAccess op s (fun c t => belowCount c i (k t)) = .refused .rawLineOutOfRange := fun op k => by
      rw [rawAccess_ready hctx hctl hraw]
      exact if_neg (Nat.not_lt.mpr hi)
    exact ⟨refused _ _, refused _ _⟩

end Sys2Proof.Machine
end

section
/-!
PROOFS. The pin-config codec bit by bit (41_pin_config_codec.md R150 to R161). A mask of one bit is that place's `lineBit`
(R23, R159), so that the updates of the direction and of EINT are `setBit`s (R160), and what they leave of each bit is what
`setBit` leaves.
-/

namespace Sys2Proof.Machine

/-! ### Line bits and masks -/

/-- Settles O60: each word's rule bit by bit, inside the 32 bits. -/
theorem lineBitsAndMasks : Obligations.LineBitsAndMasks := by
  unfold Obligations.LineBitsAndMasks
  refine ⟨fun w i b v _ hb => ⟨?_, ?_⟩, fun n b _ hb => ?_, by decide⟩
  · rw [getLsbD_lineBit, decide_eq_true hb, Bool.true_and]
  · rw [getLsbD_setBit, decide_eq_true hb, Bool.true_and]
  · rw [getLsbD_validMask, decide_eq_true hb, Bool.true_and]

/-! ### Direction and interrupt field updates -/

theorem cfgInput_eq_setBit (c : Word) :
    cfgInput c = setBit (setBit (setBit c bitEI true) bitOE false) bitEO false := by
  change (c ||| maskEI) &&& ~~~(maskEO ||| maskOE) = (c ||| maskEI) &&& ~~~maskOE &&& ~~~maskEO
  rw [BitVec.not_or, BitVec.and_comm (~~~maskEO), BitVec.and_assoc]

theorem cfgIntEnable_eq_setBit (c : Word) : cfgIntEnable c = setBit c bitEINT true := rfl

theorem cfgIntDisable_eq_setBit (c : Word) : cfgIntDisable c = setBit c bitEINT false := rfl

/-- The three places are different, so the order in which `cfgInput` sets and clears them does not show (R153). -/
theorem getLsbD_cfgInput (c : Word) {b : Nat} (hb : b < 32) :
    (cfgInput c).getLsbD b = if b = 1 then true else if b = 0 ∨ b = 2 then false else c.getLsbD b := by
  simp only [cfgInput_eq_setBit, getLsbD_setBit, hb, decide_true, Bool.true_and, bitEI_eq, bitEO_eq, bitOE_eq]
  by_cases hinput : b = 1
  · subst hinput; rfl
  · rw [if_neg hinput, if_neg hinput, ite_or]

theorem getLsbD_cfgIntEnable (c : Word) {b : Nat} (hb : b < 32) :
    (cfgIntEnable c).getLsbD b = if b = 3 then true else c.getLsbD b := by
  rw [cfgIntEnable_eq_setBit, getLsbD_setBit, decide_eq_true hb, Bool.true_and, bitEINT_eq]

theorem getLsbD_cfgIntDisable (c : Word) {b : Nat} (hb : b < 32) :
    (cfgIntDisable c).getLsbD b = if b = 3 then false else c.getLsbD b := by
  rw [cfgIntDisable_eq_setBit, getLsbD_setBit, decide_eq_true hb, Bool.true_and, bitEINT_eq]

/-- Settles O58: the updates are `setBit`s, and the direction is read from EI alone. -/
theorem configUpdatesBitByBit : Obligations.ConfigUpdatesBitByBit := by
  unfold Obligations.ConfigUpdatesBitByBit
  intro c b hb
  exact ⟨getLsbD_cfgInput c hb, by decide, getLsbD_cfgIntEnable c hb, getLsbD_cfgIntDisable c hb, decodeDirection_eq c⟩

/-! ### Trigger type -/

/-- The code stands in bits 7:5 and nothing else does (R151). -/
theorem getLsbD_ttBits (q : BitVec 3) {b : Nat} (hb : b < 32) :
    (ttBits q).getLsbD b = (decide (5 ≤ b) && decide (b ≤ 7) && q.getLsbD (b - 5)) := by
  have hshift : b - 5 < 32 := by omega
  rw [ttBits, ttShift_eq, BitVec.getLsbD_shiftLeft, BitVec.getLsbD_setWidth, decide_eq_true hb, decide_eq_true hshift,
    Bool.true_and, Bool.true_and, ← decide_not]
  by_cases hhigh : b ≤ 7
  · simp [hhigh]
  · have hcode : q.getLsbD (b - 5) = false := BitVec.getLsbD_of_ge _ _ (by omega)
    rw [hcode, Bool.and_false, Bool.and_false]

theorem maskTT_eq_ttBits : maskTT = ttBits (BitVec.allOnes 3) := rfl

/-- `M_TT` covers bits 7:5 (R23). -/
theorem getLsbD_maskTT {b : Nat} (hb : b < 32) : maskTT.getLsbD b = decide (5 ≤ b ∧ b ≤ 7) := by
  rw [maskTT_eq_ttBits, getLsbD_ttBits _ hb, BitVec.getLsbD_allOnes, Bool.eq_iff_iff]
  simp only [Bool.and_eq_true, decide_eq_true_eq]
  omega

/-- The requested code is merged into what stands in bits 7:5 (R156, Accumulate). -/
theorem getLsbD_cfgTrigger_accumulate (c : Word) (q : BitVec 3) {b : Nat} (hb : b < 32) :
    (cfgTrigger .accumulate c q).getLsbD b =
      (c.getLsbD b || (decide (5 ≤ b) && decide (b ≤ 7) && q.getLsbD (b - 5))) := by
  rw [cfgTrigger, BitVec.getLsbD_or, getLsbD_ttBits q hb]

/-- The requested code takes the place of what stands in bits 7:5 (R156, Replace). -/
theorem getLsbD_cfgTrigger_replace (c : Word) (q : BitVec 3) {b : Nat} (hb : b < 32) :
    (cfgTrigger .replace c q).getLsbD b = if 5 ≤ b ∧ b ≤ 7 then q.getLsbD (b - 5) else c.getLsbD b := by
  rw [cfgTrigger, BitVec.getLsbD_or, BitVec.getLsbD_and, BitVec.getLsbD_not, getLsbD_maskTT hb, getLsbD_ttBits q hb,
    decide_eq_true hb, ← Bool.decide_and]
  by_cases hfield : 5 ≤ b ∧ b ≤ 7 <;> simp [hfield]

/-- Settles O59: the codes are the spec's table, and a code lands in bits 7:5 alone. -/
theorem triggerEncodingAndMerge : Obligations.TriggerEncodingAndMerge := by
  unfold Obligations.TriggerEncodingAndMerge
  refine ⟨⟨rfl, rfl, rfl, rfl, rfl, fun _ => rfl⟩, fun c q b hb => ?_⟩
  exact ⟨getLsbD_ttBits q hb, getLsbD_cfgTrigger_accumulate c q hb, getLsbD_cfgTrigger_replace c q hb⟩

end Sys2Proof.Machine
end

section
/-!
PROOFS. Whole operations in a row (00_scope.md R15): each micro-step of an operation in flight is that of its table, a run
is put together from them, and what the register writes leave is read off one line at a time (40_register_window.md R121,
R127, R134).
-/

namespace Sys2Proof.Machine

/-! ### A caller's operation -/

section
variable {s t : State} {c : Controller} {op : Instr}

/-- A caller's operation on a valid line has passed its checks. -/
theorem admitted_of_callerReady {i : Nat} (h : CallerReady s c) (hi : i < c.n) (hfor : contextFor op = .call)
    (hx : indexOf op = some i) (hraw : isRaw op = false) : Admitted s op := by
  obtain ⟨hctx, -, hctl, -, -⟩ := h
  refine ⟨checked_of_call hctx hctl hfor fun j hj => ?_, rawAdmitted_of_not_raw hraw⟩
  rw [hx] at hj; cases hj; exact hi

/-- The checks read nothing that a quiet change changes. -/
theorem Admitted.quiet (h : Admitted s op) (hq : Quiet s t) : Admitted t op where
  checked := hq.cur ▸ h.checked.congr hq.params hq.ctl fun _ hb => hq.busy.trans hb
  raw := hq.params ▸ h.raw

/-- After a call has returned its caller is ready for the next one. -/
theorem callerReady_of_returned {r : Result} (h : CallerReady s c) (hret : Returned r s t) (hk : KeepsInstance s t) :
    CallerReady t c ∧ t.fresh := by
  obtain ⟨hctx, -, hctl, hn, hp⟩ := h
  obtain ⟨hparams, -, htctl, -, -, -, hcur, -⟩ := hk
  have hme : t.me ≠ Agent.idle := fun hidle => by
    have hres := congrArg Agent.results (hret.symm.trans hidle)
    simp [Agent.idle] at hres
  exact ⟨⟨hcur ▸ hctx, hasCur_of_me hme, htctl.trans hctl, hn, hparams ▸ hp⟩, congrArg Agent.op hret⟩

/-- An operation that is one read completes with what it makes of the register's view, and leaves everything else. -/
theorem exec_answers_read {r : Reg} {f : Word → Result} (h : CallerReady s c) (hf : s.fresh) (ha : Admitted s op)
    (hr : regExists r) (hm : microOf s (s.standing op) = .readAnswer r f) :
    ∃ t, exec op s = .next t ∧ Returned (f (s.view s.draw r)) s t ∧ KeepsRegisters s t ∧ KeepsInstance s t := by
  obtain ⟨-, hcur, -, -, hp⟩ := h
  obtain ⟨hme, hq, hk, hl, hd⟩ := begun op hcur hf
  have hview : (enter op s).view (enter op s).draw r = s.view s.draw r := by
    rw [view_congr hq hk]; unfold State.draw; rw [hd]
  have hread := memRead_reg (hq.params ▸ hp) hr fun w t => finish (f w) t
  rw [hview] at hread
  refine ⟨_, ((exec_eq_run ha).trans (by rw [hm]; rfl)).trans hread, ?_, by simp [KeepsRegisters],
    ((hq.trans (quiet_drew _)).trans (quiet_finish _ _)).keeps (by simp)⟩
  unfold Returned
  rw [me_finish _ (by simpa using hcur), me_drew, hme]

end

/-! ### The micro-steps of an operation in flight -/

section
variable {s : State} {op : Instr} {k : Nat} {w : Word} (ha : Admitted s op) (ho : s.inOp op k w)
include ha ho

theorem exec_reads {r : Reg} (hm : microOf s ⟨op, k, w⟩ = .read r id) (hp : s.params.WF) (hr : regExists r) :
    ∃ t, exec op s = .next t ∧ Quiet s t ∧ t.me = { s.me with op := some ⟨op, k + 1, s.view s.draw r⟩ } ∧
      t.lock = s.lock ∧ KeepsRegisters s t ∧ t.draws = s.draws + 1 := by
  rw [exec_inFlight ho ha, hm]
  exact readStep_reads hp hr (hasCur_of_op ho) ho

theorem exec_writes {r : Reg} {d : Word} {u : State} (hm : microOf s ⟨op, k, w⟩ = .write r d) (hp : s.params.WF)
    (hr : regExists r) (hu : s.put d r = .ok u) :
    ∃ t, exec op s = .next t ∧ Quiet s t ∧ t.me = { s.me with op := some ⟨op, k + 1, w⟩ } ∧ t.lock = s.lock ∧
      KeepsRegisters u t ∧ t.draws = u.draws := by
  rw [exec_inFlight ho ha, hm]
  exact writeStep_writes hp hr hu (hasCur_of_op ho) ho

theorem exec_returns (hm : microOf s ⟨op, k, w⟩ = .done) (hl : s.lock = some s.cur) :
    ∃ t, exec op s = .next t ∧ Quiet s t ∧ Returned .ok s t ∧ t.lock = none ∧ KeepsRegisters s t ∧
      t.draws = s.draws := by
  rw [exec_inFlight ho ha, hm]
  exact releaseOk_returns (hasCur_of_op ho) hl

end

/-! ### Runs of micro-steps -/

/-- Operation `o.instr`, begun in `s`, has run to `t` with nothing between; there it stands at `o` and the lock is `l`. -/
structure Reaches (s : State) (o : InFlight) (l : Option AgentId) (t : State) : Prop where
  run : execTimes o.instr o.mpc s = .next t
  quiet : Quiet s t
  me : t.me = { s.me with op := some o }
  lock : t.lock = l

/-- A run goes on with one more micro-step. -/
theorem execTimes_snoc {i : Instr} {s t u : State} {k : Nat} (h : execTimes i k s = .next t) (he : exec i t = .next u) :
    execTimes i (k + 1) s = .next u := (execTimes_add h 1).trans (execTimes_succ he 0)

/-- The first Acquire, with the lock Free (20_memory.md R70). -/
theorem reaches_acquired {s : State} {op : Instr} (ha : Admitted s op) (hc : s.hasCur = true) (hf : s.fresh)
    (hm : microOf s ⟨op, 0, 0#32⟩ = .acquire) (hl : s.lock = none) :
    ∃ t, Reaches s ⟨op, 1, 0#32⟩ (some s.cur) t ∧ KeepsRegisters s t := by
  obtain ⟨hme, hq, hk, hlock, -⟩ := begun op hc hf
  obtain ⟨t, he, hqt, hmet, hlt, hkt, -⟩ :=
    acquire_takes (hq.hasCur.trans hc) (congrArg Agent.op hme) (hlock.trans hl)
  refine ⟨t, ⟨?_, hq.trans hqt, by rw [hmet, hme], by rw [hlt, hq.cur]⟩, hk.trans hkt⟩
  exact execTimes_succ ((exec_eq_acquire (o := ⟨op, 0, 0#32⟩) ha hm hme).trans he) 0

section
variable {s t : State} {op : Instr} {k : Nat} {w : Word} {l : Option AgentId} (h : Reaches s ⟨op, k, w⟩ l t)
  (ha : Admitted s op)
include h ha

theorem Reaches.read {r : Reg} (hm : microOf t ⟨op, k, w⟩ = .read r id) (hp : s.params.WF) (hr : regExists r) :
    ∃ u, Reaches s ⟨op, k + 1, t.view t.draw r⟩ l u ∧ KeepsRegisters t u := by
  obtain ⟨hrun, hq, hme, hl⟩ := h
  obtain ⟨u, he, hqu, hmeu, hlu, hk, -⟩ :=
    exec_reads (ha.quiet hq) (congrArg Agent.op hme) hm (hq.params ▸ hp) hr
  exact ⟨u, ⟨execTimes_snoc hrun he, hq.trans hqu, by rw [hmeu, hme], hlu.trans hl⟩, hk⟩

theorem Reaches.write {r : Reg} {d : Word} {u : State} (hm : microOf t ⟨op, k, w⟩ = .write r d) (hp : s.params.WF)
    (hr : regExists r) (hu : t.put d r = .ok u) : ∃ v, Reaches s ⟨op, k + 1, w⟩ l v ∧ KeepsRegisters u v := by
  obtain ⟨hrun, hq, hme, hl⟩ := h
  obtain ⟨v, he, hqv, hmev, hlv, hk, -⟩ :=
    exec_writes (ha.quiet hq) (congrArg Agent.op hme) hm (hq.params ▸ hp) hr hu
  exact ⟨v, ⟨execTimes_snoc hrun he, hq.trans hqv, by rw [hmev, hme], hlv.trans hl⟩, hk⟩

theorem Reaches.returns (hm : microOf t ⟨op, k, w⟩ = .done) (hl : l = some s.cur) :
    ∃ u, execTimes op (k + 1) s = .next u ∧ Quiet s u ∧ Returned .ok s u ∧ u.lock = none ∧ KeepsRegisters t u := by
  obtain ⟨hrun, hq, hme, hlt⟩ := h
  obtain ⟨u, he, hqu, hret, hlu, hk, -⟩ :=
    exec_returns (ha.quiet hq) (congrArg Agent.op hme) hm (by rw [hlt, hl, hq.cur])
  exact ⟨u, execTimes_snoc hrun he, hq.trans hqu, hret.trans (by rw [hme]), hlu, hk⟩

end

/-! ### What a write leaves of CFG, OUT and the levels -/

/-- No change of level, no edge (R132). -/
theorem edgeCondition_same (tt : BitVec 3) (x : Bool) : edgeCondition tt x x = false := by
  revert tt x; decide

/-- TT level-high names no edge (R132). -/
theorem edgeCondition_levelHigh (old new : Bool) : edgeCondition 0#3 old new = false := rfl

/-- Whether the levels follow OUT is read off the registers. -/
theorem LevelsFollowOut.quiet {s t : State} (h : LevelsFollowOut s) (hq : Quiet s t) (hk : KeepsRegisters s t) :
    LevelsFollowOut t := by
  obtain ⟨hcfg, -, hout, hlevel⟩ := hk
  exact h.congr hq.params hcfg hout hlevel

/-- Whether the levels of driving lines follow OUT is read off the parameters (R134). -/
theorem Quiet.levelsDriven_iff {s t : State} (h : Quiet s t) : t.levelsDriven ↔ s.levelsDriven := by
  rw [State.levelsDriven, h.params]

section
variable {e u : State} {d : Word} {i : Nat}

/-- A CFG write stores the fields of its word, and leaves OUT and every other CFG word (R121). -/
theorem put_cfg_stores (hi : i < 32) (hu : e.put d (.cfg i) = .ok u) :
    u.cfgAt i = PinConfig.ofWord d ∧ KeepsOtherCfg i e u ∧ u.out = e.out := by
  cases hu
  refine ⟨?_, fun j hj => ?_, driveLevels_out _ _⟩
  · rw [cfgAt_driveLevels, cfgAt_setCfg _ hi]
  · rw [cfgAt_driveLevels, cfgAt_setCfg_ne _ hj]

/-- A CFG write affects its own line alone: if the line drives after it, it takes OUT's bit as its level and may latch the
edge of that change (R132, R134). -/
theorem put_cfg_line (hi : i < 32) (hu : e.put d (.cfg i) = .ok u) {b : Nat} (hb : b < 32) :
    if b = i ∧ e.levelsDriven ∧ (PinConfig.ofWord d).driving = true then
      u.level.getLsbD b = e.out.getLsbD b ∧ u.irq.getLsbD b = (e.irq.getLsbD b ||
        (edgeCondition (PinConfig.ofWord d).tt (e.level.getLsbD b) (e.out.getLsbD b) && e.draw.getLsbD b))
    else u.level.getLsbD b = e.level.getLsbD b ∧ u.irq.getLsbD b = e.irq.getLsbD b := by
  cases hu
  have hline := driveLevels_line (fun j => j == i) (e.setCfg i (PinConfig.ofWord d)) hb
  by_cases hbi : b = i
  · subst hbi
    rw [cfgAt_setCfg _ hi] at hline
    simpa [State.levelsDriven, State.draw] using hline
  · rw [if_neg fun h => hbi h.1]
    rwa [if_neg (by simp [hbi])] at hline

/-- A CFG write after which the line does not drive leaves IRQ and the levels. -/
theorem put_cfg_still (hi : i < 32) (hd : (PinConfig.ofWord d).driving = false) (hu : e.put d (.cfg i) = .ok u) :
    u.irq = e.irq ∧ u.level = e.level := by
  have hstay {b : Nat} (hb : b < 32) := put_cfg_line hi hu hb
  simp only [hd, Bool.false_eq_true, and_false, if_false] at hstay
  exact ⟨word_ext fun b hb => (hstay hb).2, word_ext fun b hb => (hstay hb).1⟩

/-- An OUT write stores the bits below the line count and leaves CFG (R127). -/
theorem put_out_stores (hu : e.put d .out = .ok u) : u.cfg = e.cfg ∧
    ∀ b, b < 32 → u.out.getLsbD b = if b < e.lineCount then d.getLsbD b else e.out.getLsbD b := by
  cases hu
  refine ⟨driveLevels_cfg _ _, fun b hb => ?_⟩
  rw [driveLevels_out, setOut_out, getLsbD_mergeBelow, decide_eq_true hb, Bool.true_and]

/-- The OUT write of a word with one bit set or cleared stores that bit and the word's other bits below the count. -/
theorem put_setBit_out_stores {w : Word} {v : Bool} (hi : i < e.lineCount) (hu : e.put (setBit w i v) .out = .ok u)
    {b : Nat} (hb : b < 32) : u.out.getLsbD b =
      if b = i then v else if b < e.lineCount then w.getLsbD b else e.out.getLsbD b := by
  rw [(put_out_stores hu).2 b hb, getLsbD_setBit, decide_eq_true hb, Bool.true_and]
  by_cases hbi : b = i
  · rw [if_pos hbi, if_pos hbi, if_pos (hbi ▸ hi)]
  · rw [if_neg hbi, if_neg hbi]

section
variable {w : Word} {v : Bool} (hi : i < e.lineCount) (hw : ∀ b, b < e.lineCount → w.getLsbD b = e.out.getLsbD b)
  (hu : e.put (setBit w i v) .out = .ok u)
include hi hw hu

/-- Where the word is OUT as it stands, the one bit alone changes. -/
theorem getLsbD_put_setBit_out {b : Nat} (hb : b < 32) :
    u.out.getLsbD b = if b = i then v else e.out.getLsbD b := by
  rw [put_setBit_out_stores hi hu hb]
  by_cases hbn : b < e.lineCount
  · rw [if_pos hbn, hw b hbn]
  · rw [if_neg hbn]

/-- Where the levels followed OUT, the line of that bit alone is affected: it takes the new level if it drives, and may
latch the edge of that change (R132, R134). -/
theorem put_setBit_out_line (hlevels : LevelsFollowOut e) {b : Nat} (hb : b < 32) :
    if b = i ∧ e.levelsDriven ∧ (e.cfgAt i).driving = true then
      u.level.getLsbD b = v ∧ u.irq.getLsbD b = (e.irq.getLsbD b ||
        (edgeCondition (e.cfgAt i).tt (e.level.getLsbD i) v && e.draw.getLsbD b))
    else u.level.getLsbD b = e.level.getLsbD b ∧ u.irq.getLsbD b = e.irq.getLsbD b := by
  have hout := getLsbD_put_setBit_out hi hw hu hb
  cases hu
  have hline := driveLevels_line (fun j => decide (j < e.lineCount))
    (e.setOut (mergeBelow e.lineCount (setBit w i v) e.out)) hb
  rw [driveLevels_out] at hout
  rw [hout] at hline
  by_cases hbi : b = i
  · subst hbi
    simpa [hi, State.levelsDriven, State.draw] using hline
  · rw [if_neg fun hx => hbi hx.1]
    rw [if_neg hbi] at hline
    split at hline
    case isFalse => exact hline
    case isTrue hx =>
      obtain ⟨hl, -, hd⟩ := hx
      have hfollows : e.level.getLsbD b = e.out.getLsbD b := hlevels hl b hb hd
      rw [setOut_level, cfgAt_setOut, setOut_irq, hfollows, edgeCondition_same, Bool.false_and, Bool.or_false] at hline
      rwa [hfollows]

end
end

end Sys2Proof.Machine
end

section
/-!
PROOFS. The line operations (42_line_control.md R181 to R186): the runs of GETDIR, DIRIN, DIROUT, GETVAL and SETVAL, and the
single micro-steps of DIRIN and DIROUT whatever comes between them.
-/

namespace Sys2Proof.Machine

/-! ### Reading a line -/

/-- Settles O17: the direction is read from the stored EI alone. -/
theorem getdirReportsDirection : Obligations.GetdirReportsDirection := by
  unfold Obligations.GetdirReportsDirection
  intro s c i h hf hi
  obtain ⟨-, -, -, hn, -⟩ := id h
  obtain ⟨t, he, hret, hk, hinst⟩ := exec_answers_read (r := .cfg i) (f := fun w => .okDirection (decodeDirection w))
    h hf (admitted_of_callerReady (op := .getdir i) h hi rfl rfl rfl) (hi.trans_le hn) rfl
  rw [decodeDirection_eq, ofWord_view_cfg] at hret
  exact ⟨t, he, hret, hk, hinst⟩

/-- Settles O20: the line's bit of the view of IN. -/
theorem getvalReadsPinView : Obligations.GetvalReadsPinView := by
  unfold Obligations.GetvalReadsPinView
  intro s c i h hf hi
  obtain ⟨-, -, hctl, hn, -⟩ := id h
  obtain ⟨t, he, hret, hk, hinst⟩ := exec_answers_read (r := .inp) (f := fun w => .okBit (w.getLsbD i))
    h hf (admitted_of_callerReady (op := .getval i) h hi rfl rfl rfl) trivial rfl
  refine ⟨t, he, ?_, hk, hinst⟩
  simp only [State.view, getLsbD_wordOfBits, pinView_eq, lineCount_ready hctl, decide_eq_true (hi.trans_le hn),
    Bool.true_and, if_pos hi] at hret
  exact hret

/-! ### DIRIN -/

/-- The fields `cfgInput` writes make no driving line: EI is set (R134). -/
theorem driving_cfgInput (d : Word) : (PinConfig.ofWord (cfgInput d)).driving = false := by
  rw [ofWord_cfgInput]; rfl

/-- The CFG write of DIRIN (R182). -/
theorem put_cfgInput {e u : State} {w : Word} {i : Nat} (hi : i < 32) (hu : e.put (cfgInput w) (.cfg i) = .ok u) :
    u.cfgAt i = { PinConfig.ofWord w with eo := false, ei := true, oe := false } ∧ KeepsOtherCfg i e u ∧
      u.irq = e.irq ∧ u.out = e.out ∧ u.level = e.level := by
  obtain ⟨hat, hother, hout⟩ := put_cfg_stores hi hu
  obtain ⟨hirq, hlevel⟩ := put_cfg_still hi (driving_cfgInput w) hu
  exact ⟨hat.trans (ofWord_cfgInput w), hother, hirq, hout, hlevel⟩

/-- Settles O18: the locked read-modify-write of the CFG word with `cfgInput`. -/
theorem dirinMakesLineInput : Obligations.DirinMakesLineInput := by
  unfold Obligations.DirinMakesLineInput
  intro s c i h hf hl hi
  obtain ⟨hctx, hcur, hctl, hn, hp⟩ := h
  have hi32 : i < 32 := hi.trans_le hn
  obtain ⟨m, u, t, hq, ⟨hmcfg, hmirq, hmout, hmlevel⟩, -, hu, hrun, hqt, hret, hlock, ⟨hcfg, hirq, hout, hlevel⟩, -⟩ :=
    lockedRmw_runs (r := .cfg i) hp hi32 nofun hcur hf hl fun t hq =>
      exec_dirin (hq.cur ▸ hctx) (hq.ctl.trans hctl) hi
  obtain ⟨huat, huother, huirq, huout, hulevel⟩ := put_cfgInput hi32 hu
  rw [ofWord_view_cfg] at huat
  refine ⟨t, hrun, hret, (cfgAt_congr hcfg i).trans huat, fun j hj => ?_, hirq.trans (huirq.trans hmirq),
    hout.trans (huout.trans hmout), hlevel.trans (hulevel.trans hmlevel), hqt.keeps (hlock.trans hl.symm)⟩
  rw [cfgAt_congr hcfg, huother j hj, cfgAt_congr hmcfg]

/-- Settles O23: the read, the write and the Release of the table. -/
theorem dirinMicroSteps : Obligations.DirinMicroSteps := by
  unfold Obligations.DirinMicroSteps
  intro s c i w h hi
  have ha : Admitted s (.dirin i) := admitted_of_callerReady h hi rfl rfl rfl
  obtain ⟨-, -, -, hn, hp⟩ := h
  have hi32 : i < 32 := hi.trans_le hn
  refine ⟨fun ho => ?_, fun ho => ?_, fun ho hl => ?_⟩
  · obtain ⟨t, he, hq, hme, hlock, hk, -⟩ := exec_reads (r := .cfg i) ha ho rfl hp hi32
    exact ⟨t, _, he, hme, ofWord_view_cfg s _ i, hk, hq.keeps hlock⟩
  · obtain ⟨u, hu⟩ := put_ok s (cfgInput w) (r := .cfg i) nofun
    obtain ⟨t, he, hq, hme, hlock, ⟨hcfg, hirq, hout, hlevel⟩, -⟩ := exec_writes ha ho rfl hp hi32 hu
    obtain ⟨huat, huother, huirq, huout, hulevel⟩ := put_cfgInput hi32 hu
    exact ⟨t, he, hme, (cfgAt_congr hcfg i).trans huat, fun j hj => (cfgAt_congr hcfg j).trans (huother j hj),
      hirq.trans huirq, hout.trans huout, hlevel.trans hulevel, hq.keeps hlock⟩
  · obtain ⟨t, he, -, hret, hlock, hk, -⟩ := exec_returns ha ho rfl hl
    exact ⟨t, he, hret, hlock, hk⟩

/-! ### DIROUT -/

/-- The fields of `cfgOutput()` drive the line (R134, R154). -/
theorem driving_output : (⟨true, false, true, false, 0#3⟩ : PinConfig).driving = true := rfl

/-- Where no line latches, IRQ is as it was and the levels are read off the lines. -/
theorem irq_level_of_lines {e u : State} {drives : Nat → Prop} [DecidablePred drives] {x : Nat → Bool}
    (h : ∀ b, b < 32 → if drives b then u.level.getLsbD b = x b ∧ u.irq.getLsbD b = e.irq.getLsbD b
      else u.level.getLsbD b = e.level.getLsbD b ∧ u.irq.getLsbD b = e.irq.getLsbD b) :
    u.irq = e.irq ∧ ∀ b, b < 32 → u.level.getLsbD b = if drives b then x b else e.level.getLsbD b := by
  refine ⟨word_ext fun b hb => ?_, fun b hb => ?_⟩ <;> have hline := h b hb <;> by_cases hd : drives b
  · rw [if_pos hd] at hline; exact hline.2
  · rw [if_neg hd] at hline; exact hline.2
  · rw [if_pos hd] at hline ⊢; exact hline.1
  · rw [if_neg hd] at hline ⊢; exact hline.1

/-- The CFG write of DIROUT (R183): the line drives, and under Refined loopback its level is OUT's bit; its TT is
level-high, which names no edge, so no sticky bit is set. -/
theorem put_cfgOutput {e u : State} {i : Nat} (hi : i < 32) (hu : e.put cfgOutput (.cfg i) = .ok u) :
    u.cfgAt i = ⟨true, false, true, false, 0#3⟩ ∧ KeepsOtherCfg i e u ∧ u.out = e.out ∧ u.irq = e.irq ∧
      ∀ b, b < 32 → u.level.getLsbD b = if b = i ∧ e.levelsDriven then e.out.getLsbD b else e.level.getLsbD b := by
  obtain ⟨hat, hother, hout⟩ := put_cfg_stores hi hu
  refine ⟨hat.trans ofWord_cfgOutput, hother, hout, irq_level_of_lines fun b hb => ?_⟩
  simpa only [ofWord_cfgOutput, driving_output, and_true, edgeCondition_levelHigh, Bool.false_and, Bool.or_false]
    using put_cfg_line hi hu hb

/-- The OUT write of DIROUT (R183), on the line its CFG write has left: no sticky bit is set here either. -/
theorem put_setBit_out_output {e u : State} {w : Word} {i : Nat} {v : Bool} (hi : i < e.lineCount)
    (hw : ∀ b, b < e.lineCount → w.getLsbD b = e.out.getLsbD b) (hu : e.put (setBit w i v) .out = .ok u)
    (hlevels : LevelsFollowOut e) (hat : e.cfgAt i = ⟨true, false, true, false, 0#3⟩) : u.irq = e.irq ∧
      ∀ b, b < 32 → u.level.getLsbD b = if b = i ∧ e.levelsDriven then v else e.level.getLsbD b := by
  refine irq_level_of_lines (x := fun _ => v) fun b hb => ?_
  simpa only [hat, driving_output, and_true, edgeCondition_levelHigh, Bool.false_and, Bool.or_false]
    using put_setBit_out_line hi hw hu hlevels hb

section
variable {s : State} {c : Controller} {i : Nat} {v : Bool} (h : CallerReady s c) (hl : s.lock = none) (hi : i < c.n)
include h hl hi

/-- DIROUT after its first two micro-steps: CFG is written and OUT is not (R183). -/
theorem dirout_configures (hf : s.fresh) : ∃ t, Reaches s ⟨.dirout i v, 2, 0#32⟩ (some s.cur) t ∧
    t.cfgAt i = ⟨true, false, true, false, 0#3⟩ ∧ KeepsOtherCfg i s t ∧ t.out = s.out ∧ t.irq = s.irq ∧
    (∀ b, b < 32 → t.level.getLsbD b = if b = i ∧ s.levelsDriven then s.out.getLsbD b else s.level.getLsbD b) ∧
    (LevelsFollowOut s → LevelsFollowOut t) := by
  have ha : Admitted s (.dirout i v) := admitted_of_callerReady h hi rfl rfl rfl
  obtain ⟨-, hcur, -, hn, hp⟩ := h
  have hi32 : i < 32 := hi.trans_le hn
  obtain ⟨e, he, hk⟩ := reaches_acquired ha hcur hf rfl hl
  obtain ⟨u, hu⟩ := put_ok e cfgOutput (r := .cfg i) nofun
  obtain ⟨t, ht, hcfg, hirq, hout, hlevel⟩ := he.write ha rfl hp hi32 hu
  obtain ⟨huat, huother, huout, huirq, hulevel⟩ := put_cfgOutput hi32 hu
  have hfollow : LevelsFollowOut s → LevelsFollowOut t := fun hs =>
    (put_keeps_levelsFollowOut (hs.quiet he.quiet hk) hu).congr
      (ht.quiet.params.trans ((quiet_put hu).params.trans he.quiet.params).symm) hcfg hout hlevel
  obtain ⟨hecfg, heirq, heout, helevel⟩ := hk
  refine ⟨t, ht, (cfgAt_congr hcfg i).trans huat, fun j hj => ?_, hout.trans (huout.trans heout),
    hirq.trans (huirq.trans heirq), fun b hb => ?_, hfollow⟩
  · rw [cfgAt_congr hcfg, huother j hj, cfgAt_congr hecfg]
  · rw [hlevel, hulevel b hb, heout, helevel]
    simp only [he.quiet.levelsDriven_iff]

/-- DIROUT's last three micro-steps: the read-modify-write of OUT and the Release (R183). Without `LevelsFollowOut` the
OUT write would bring the other driving lines to their OUT bits too. -/
theorem dirout_outputs {t : State} (ht : Reaches s ⟨.dirout i v, 2, 0#32⟩ (some s.cur) t)
    (hat : t.cfgAt i = ⟨true, false, true, false, 0#3⟩) : ∃ x, execTimes (.dirout i v) 5 s = .next x ∧
      Returned .ok s x ∧ KeepsInstance s x ∧ x.cfg = t.cfg ∧
      (∀ b, b < 32 → x.out.getLsbD b = if b = i then v else t.out.getLsbD b) ∧
      (LevelsFollowOut t → x.irq = t.irq ∧
        ∀ b, b < 32 → x.level.getLsbD b = if b = i ∧ s.levelsDriven then v else t.level.getLsbD b) := by
  have ha : Admitted s (.dirout i v) := admitted_of_callerReady h hi rfl rfl rfl
  obtain ⟨-, -, hctl, -, hp⟩ := h
  obtain ⟨m, hm, hk⟩ := ht.read (r := .out) ha rfl hp trivial
  obtain ⟨u, hu⟩ := put_ok m (setBit (t.view t.draw .out) i v) (r := .out) nofun
  obtain ⟨y, hy, huy⟩ := hm.write ha rfl hp trivial hu
  obtain ⟨x, hrun, hq, hret, hlock, hyx⟩ := hy.returns ha rfl rfl
  have hcount : m.lineCount = t.lineCount := hm.quiet.lineCount.trans ht.quiet.lineCount.symm
  have him : i < m.lineCount := by rw [hm.quiet.lineCount, lineCount_ready hctl]; exact hi
  obtain ⟨hmcfg, hmirq, hmout, hmlevel⟩ := hk
  have hw : ∀ b, b < m.lineCount → (t.view t.draw .out).getLsbD b = m.out.getLsbD b := fun b hb => by
    rw [getLsbD_view_out t _ (hcount ▸ hb), hmout]
  have hfollow : LevelsFollowOut t → LevelsFollowOut m := fun hs =>
    hs.congr (hm.quiet.params.trans ht.quiet.params.symm) hmcfg hmout hmlevel
  obtain ⟨hcfg, hirq, hout, hlevel⟩ := huy.trans hyx
  refine ⟨x, hrun, hret, hq.keeps (hlock.trans hl.symm), hcfg.trans ((put_out_stores hu).1.trans hmcfg), fun b hb => ?_,
    fun hs => ?_⟩
  · rw [hout, getLsbD_put_setBit_out him hw hu hb, hmout]
  · obtain ⟨huirq, hulevel⟩ := put_setBit_out_output him hw hu (hfollow hs) ((cfgAt_congr hmcfg i).trans hat)
    refine ⟨hirq.trans (huirq.trans hmirq), fun b hb => ?_⟩
    rw [hlevel, hulevel b hb, hmlevel]
    simp only [hm.quiet.levelsDriven_iff]

/-- DIROUT as a whole (R183); only what it leaves of IRQ and the levels rests on the levels having followed OUT. -/
theorem dirout_completes (hf : s.fresh) : ∃ t, execTimes (.dirout i v) 5 s = .next t ∧ Returned .ok s t ∧
    t.cfgAt i = ⟨true, false, true, false, 0#3⟩ ∧ KeepsOtherCfg i s t ∧
    (∀ b, b < 32 → t.out.getLsbD b = if b = i then v else s.out.getLsbD b) ∧
    (LevelsFollowOut s → t.irq = s.irq ∧
      ∀ b, b < 32 → t.level.getLsbD b = if b = i ∧ s.levelsDriven then v else s.level.getLsbD b) ∧
    KeepsInstance s t := by
  obtain ⟨m, hm, hat, hother, hmout, hmirq, hmlevel, hfollow⟩ := dirout_configures (v := v) h hl hi hf
  obtain ⟨t, hrun, hret, hinst, hcfg, hout, hline⟩ := dirout_outputs h hl hi hm hat
  refine ⟨t, hrun, hret, (cfgAt_congr hcfg i).trans hat, fun j hj => (cfgAt_congr hcfg j).trans (hother j hj),
    hmout ▸ hout, fun hs => ?_, hinst⟩
  obtain ⟨hirq, hlevel⟩ := hline (hfollow hs)
  refine ⟨hirq.trans hmirq, fun b hb => ?_⟩
  rw [hlevel b hb, hmlevel b hb]
  split <;> rfl

end

/-- Settles O19: the two writes one after the other, of which neither latches an edge. -/
theorem diroutOverwritesAndDrives : Obligations.DiroutOverwritesAndDrives := by
  unfold Obligations.DiroutOverwritesAndDrives
  intro s c i v h hf hl hi hlevels
  obtain ⟨t, hrun, hret, hat, hother, hout, hline, hinst⟩ := dirout_completes (v := v) h hl hi hf
  obtain ⟨hirq, hlevel⟩ := hline hlevels
  exact ⟨t, hrun, hret, hat, hother, hout, hirq, hlevel, hinst⟩

/-- Settles O24: the two writes of the table. -/
theorem diroutWritesConfigThenOutput : Obligations.DiroutWritesConfigThenOutput := by
  unfold Obligations.DiroutWritesConfigThenOutput
  intro s c i v w h hi
  have ha : Admitted s (.dirout i v) := admitted_of_callerReady h hi rfl rfl rfl
  obtain ⟨-, -, hctl, hn, hp⟩ := h
  have hi32 : i < 32 := hi.trans_le hn
  have hcount := lineCount_ready hctl
  refine ⟨fun ho => ?_, fun ho => ?_⟩
  · obtain ⟨u, hu⟩ := put_ok s cfgOutput (r := .cfg i) nofun
    obtain ⟨t, he, hq, hme, hlock, ⟨hcfg, -, hout, -⟩, -⟩ := exec_writes ha ho rfl hp hi32 hu
    obtain ⟨huat, huother, huout, -⟩ := put_cfgOutput hi32 hu
    refine ⟨t, he, hme, ?_, hout.trans huout, fun j hj => (cfgAt_congr hcfg j).trans (huother j hj), hq.keeps hlock⟩
    rw [cfgAt_congr hcfg, huat]; rfl
  · obtain ⟨u, hu⟩ := put_ok s (setBit w i v) (r := .out) nofun
    obtain ⟨t, he, hq, hme, hlock, ⟨hcfg, -, hout, -⟩, -⟩ := exec_writes ha ho rfl hp trivial hu
    refine ⟨t, he, hme, hcfg.trans (put_out_stores hu).1, fun b hb => ?_, hq.keeps hlock⟩
    rw [hout, put_setBit_out_stores (hcount ▸ hi) hu hb, hcount]

/-! ### SETVAL -/

/-- A change of level that TT does not name is no edge (R132). -/
theorem edgeCondition_false {tt : BitVec 3} {old v : Bool}
    (h : ¬ (old ≠ v ∧ (tt = 2#3 ∧ v = true ∨ tt = 3#3 ∧ v = false ∨ tt = 4#3))) : edgeCondition tt old v = false := by
  by_cases hv : v = old
  · rw [hv, edgeCondition_same]
  · exact Bool.eq_false_iff.mpr fun he => h ⟨Ne.symm hv, (edgeCondition_change tt old v hv).mp he⟩

/-- SETVAL as a whole (R185): a locked read-modify-write of OUT that affects one line, whose latch a draw `may`
decides. -/
theorem setval_completes {s : State} {c : Controller} {i : Nat} (h : CallerReady s c) (hf : s.fresh) (hl : s.lock = none)
    (hi : i < c.n) (v : Bool) (hlevels : LevelsFollowOut s) : ∃ (t : State) (may : Word),
      execTimes (.setval i v) 4 s = .next t ∧ Returned .ok s t ∧ KeepsInstance s t ∧ t.cfg = s.cfg ∧
      (∀ b, b < 32 → t.out.getLsbD b = if b = i then v else s.out.getLsbD b) ∧
      ∀ b, b < 32 → if b = i ∧ s.levelsDriven ∧ (s.cfgAt i).driving = true then
          t.level.getLsbD b = v ∧ t.irq.getLsbD b =
            (s.irq.getLsbD b || (edgeCondition (s.cfgAt i).tt (s.level.getLsbD i) v && may.getLsbD b))
        else t.level.getLsbD b = s.level.getLsbD b ∧ t.irq.getLsbD b = s.irq.getLsbD b := by
  obtain ⟨hctx, hcur, hctl, -, hp⟩ := h
  obtain ⟨m, u, t, hq, hk, -, hu, hrun, hqt, hret, hlock, ⟨hcfg, hirq, hout, hlevel⟩, -⟩ :=
    lockedRmw_runs (r := .out) hp trivial nofun hcur hf hl fun t hq =>
      exec_setval (hq.cur ▸ hctx) (hq.ctl.trans hctl) hi v
  have hfollow := hlevels.quiet hq hk
  obtain ⟨hmcfg, hmirq, hmout, hmlevel⟩ := hk
  have him : i < m.lineCount := by rw [hq.lineCount, lineCount_ready hctl]; exact hi
  have hw : ∀ b, b < m.lineCount → (s.view s.draw .out).getLsbD b = m.out.getLsbD b := fun b hb => by
    rw [getLsbD_view_out s _ (hq.lineCount ▸ hb), hmout]
  refine ⟨t, m.draw, hrun, hret, hqt.keeps (hlock.trans hl.symm), hcfg.trans ((put_out_stores hu).1.trans hmcfg),
    fun b hb => ?_, fun b hb => ?_⟩
  · rw [hout, getLsbD_put_setBit_out him hw hu hb, hmout]
  · have hline := put_setBit_out_line him hw hu hfollow hb
    simpa only [hirq, hlevel, hmirq, hmlevel, cfgAt_congr hmcfg, hq.levelsDriven_iff] using hline

/-- Settles O21: each bit of IRQ and of the levels is read off its line. -/
theorem setvalDrivesOneBit : Obligations.SetvalDrivesOneBit := by
  unfold Obligations.SetvalDrivesOneBit
  intro s c i v h hf hl hi hlevels
  obtain ⟨-, -, -, hn, -⟩ := id h
  obtain ⟨t, may, hrun, hret, hinst, hcfg, hout, hline⟩ := setval_completes h hf hl hi v hlevels
  have hown := hline i (hi.trans_le hn)
  refine ⟨t, hrun, hret, hout, hcfg, fun b hb => ?_, fun b hb hbi => ?_, fun hoff => word_ext fun b hb => ?_,
    fun hset => ?_, fun hedge => ?_, hinst⟩
  · have hb := hline b hb
    split at hb
    case isTrue hd => rw [if_pos hd, hb.1]
    case isFalse hd => rw [if_neg hd, hb.1]
  · have hb := hline b hb
    rw [if_neg fun hd => hbi hd.1] at hb
    exact hb.2
  · have hb := hline b hb
    rw [if_neg fun hd => hoff hd.2] at hb
    exact hb.2
  · rw [hset, Bool.true_or] at hown
    split at hown <;> exact hown.2
  · rw [edgeCondition_false hedge, Bool.false_and, Bool.or_false] at hown
    split at hown <;> exact hown.2

/-! ### Reading back -/

/-- Settles O22: the direction and the value are read from the fields DIRIN and DIROUT store. -/
theorem directionAndValueReadBack : Obligations.DirectionAndValueReadBack := by
  unfold Obligations.DirectionAndValueReadBack
  intro s c i v h hf hl hi
  obtain ⟨-, -, -, hn, -⟩ := id h
  obtain ⟨a, hin, hina, hinat, -, -, -, -, hinkeeps⟩ := dirinMakesLineInput s c i h hf hl hi
  obtain ⟨b, hout, houtb, houtat, -, houtbits, -, hkeeps⟩ := dirout_completes (v := v) h hl hi hf
  obtain ⟨ha, hfa⟩ := callerReady_of_returned h hina hinkeeps
  obtain ⟨hb, hfb⟩ := callerReady_of_returned h houtb hkeeps
  refine ⟨?_, ?_, fun hloop => ?_⟩
  · obtain ⟨u, hu, hret, -⟩ := getdirReportsDirection a c i ha hfa hi
    rw [hinat] at hret
    exact ⟨a, u, hin, hu, hret⟩
  · obtain ⟨u, hu, hret, -⟩ := getdirReportsDirection b c i hb hfb hi
    rw [houtat] at hret
    exact ⟨b, u, hout, hu, hret⟩
  · obtain ⟨u, hu, hret, -⟩ := getvalReadsPinView b c i hb hfb hi
    obtain ⟨hparams, -⟩ := hkeeps
    rw [houtat, hparams, hloop, houtbits i (hi.trans_le hn), if_pos rfl] at hret
    exact ⟨b, u, hout, hu, hret⟩

end Sys2Proof.Machine
end

section
/-!
PROOFS. The interrupt-chip operations (43_interrupt_chip.md R211 to R216): SETTYPE and IRQDIS are one locked
read-modify-write of the line's CFG word, IRQEN is three critical sections in a row, and IRQMASK and IRQUNMASK return at
once.
-/

namespace Sys2Proof.Machine

/-! ### What one write leaves -/

/-- CFG[i] became `p`, and no other CFG word, IRQ, OUT or level changed. -/
def StoresCfg (i : Nat) (p : PinConfig) (s t : State) : Prop :=
  t.cfgAt i = p ∧ KeepsOtherCfg i s t ∧ t.irq = s.irq ∧ t.out = s.out ∧ t.level = s.level

/-- The sticky bit of line `i` was cleared and no other, and CFG, OUT and the levels did not change. -/
def ClearsStatus (i : Nat) (s t : State) : Prop :=
  (∀ b, b < 32 → t.irq.getLsbD b = (s.irq.getLsbD b && !decide (b = i))) ∧ t.cfg = s.cfg ∧ t.out = s.out ∧
    t.level = s.level

section
variable {i : Nat} {p : PinConfig} {s m u t : State}

/-- Steps that keep the registers may come before and after the write. -/
theorem StoresCfg.between (hk : KeepsRegisters s m) (h : StoresCfg i p m u) (hk' : KeepsRegisters u t) :
    StoresCfg i p s t := by
  obtain ⟨hcfg, hirq, hout, hlevel⟩ := hk
  obtain ⟨hat, hother, hirq', hout', hlevel'⟩ := h
  obtain ⟨hcfg'', hirq'', hout'', hlevel''⟩ := hk'
  refine ⟨(cfgAt_congr hcfg'' i).trans hat, fun j hj => ?_, hirq''.trans (hirq'.trans hirq),
    hout''.trans (hout'.trans hout), hlevel''.trans (hlevel'.trans hlevel)⟩
  rw [cfgAt_congr hcfg'', hother j hj, cfgAt_congr hcfg]

theorem ClearsStatus.between (hk : KeepsRegisters s m) (h : ClearsStatus i m u) (hk' : KeepsRegisters u t) :
    ClearsStatus i s t := by
  obtain ⟨hcfg, hirq, hout, hlevel⟩ := hk
  obtain ⟨hbits, hcfg', hout', hlevel'⟩ := h
  obtain ⟨hcfg'', hirq'', hout'', hlevel''⟩ := hk'
  refine ⟨fun b hb => ?_, hcfg''.trans (hcfg'.trans hcfg), hout''.trans (hout'.trans hout),
    hlevel''.trans (hlevel'.trans hlevel)⟩
  rw [hirq'', hbits b hb, hirq]

end

/-- A CFG write stores its word's fields and nothing else, if the line does not drive after it or its level already is
OUT's bit: then the level does not change, and no edge is latched (R132, R134). -/
theorem put_storesCfg {e u : State} {d : Word} {i : Nat} (hi : i < 32)
    (hd : (PinConfig.ofWord d).driving = true → e.levelsDriven → e.level.getLsbD i = e.out.getLsbD i)
    (hu : e.put d (.cfg i) = .ok u) : StoresCfg i (PinConfig.ofWord d) e u := by
  obtain ⟨hat, hother, hout⟩ := put_cfg_stores hi hu
  have hstill : u.level = e.level ∧ u.irq = e.irq := by
    cases hu
    refine driveLevels_one_still (s := e.setCfg i (PinConfig.ofWord d)) fun hdrive => ?_
    rw [cfgAt_setCfg _ hi] at hdrive
    exact hd hdrive
  exact ⟨hat, hother, hstill.2, hout, hstill.1⟩

/-- The write-1-to-clear of one line's bit (R123, R159). -/
theorem put_clearsStatus {e u : State} {i : Nat} (hu : e.put (lineBit i) .irq = .ok u) : ClearsStatus i e u := by
  cases hu
  refine ⟨fun b hb => ?_, rfl, rfl, rfl⟩
  rw [setIrq_irq, getLsbD_clearBits, getLsbD_lineBit, decide_eq_true hb, Bool.true_and]

/-! ### SETTYPE and IRQDIS -/

/-- A locked read-modify-write of a CFG word that leaves whether the line drives changes that word alone: the level of a
driving line follows OUT, so it has no edge to latch. -/
theorem lockedRmw_storesCfg {s : State} {c : Controller} {i : Nat} {op : Instr} {f : Word → Word} {p : PinConfig}
    (h : CallerReady s c) (hf : s.fresh) (hl : s.lock = none) (hi : i < c.n) (hlevels : LevelsFollowOut s)
    (he : ∀ t, Quiet s t → exec op t = lockedRmw (t.params.cfgOff i) f (enter op t))
    (hp : ∀ w, PinConfig.ofWord w = s.cfgAt i → PinConfig.ofWord (f w) = p)
    (hd : p.driving = (s.cfgAt i).driving) :
    ∃ t, execTimes op 4 s = .next t ∧ Returned .ok s t ∧ StoresCfg i p s t ∧ KeepsInstance s t := by
  obtain ⟨-, hcur, -, hn, hwf⟩ := h
  have hi32 : i < 32 := hi.trans_le hn
  obtain ⟨m, u, t, hq, hk, -, hu, hrun, hqt, hret, hlock, hut, -⟩ :=
    lockedRmw_runs (r := .cfg i) hwf hi32 nofun hcur hf hl he
  have hfields := hp _ (ofWord_view_cfg s s.draw i)
  have hdrive : (PinConfig.ofWord (f (s.view s.draw (.cfg i)))).driving = (m.cfgAt i).driving := by
    obtain ⟨hcfg, -⟩ := hk
    rw [hfields, hd, cfgAt_congr hcfg]
  have hstore := put_storesCfg hi32 (fun hon hdriven => hlevels.quiet hq hk hdriven i hi32 (hdrive ▸ hon)) hu
  rw [hfields] at hstore
  exact ⟨t, hrun, hret, hstore.between hk hut, hqt.keeps (hlock.trans hl.symm)⟩

/-- The merged code as a case of the parameter (R156). -/
theorem mergedType_eq (m : TriggerMerge) (old code : BitVec 3) :
    mergedType m old code = if m = .accumulate then old ||| code else code := by
  cases m <;> rfl

/-- Settles O25: the locked read-modify-write of the CFG word with `cfgTrigger`. -/
theorem settypeMergesTrigger : Obligations.SettypeMergesTrigger := by
  unfold Obligations.SettypeMergesTrigger
  intro s c i r h hf hl hi hlevels
  obtain ⟨hctx, -, hctl, -, -⟩ := id h
  obtain ⟨t, hrun, hret, ⟨hat, hother, hirq, hout, hlevel⟩, hinst⟩ :=
    lockedRmw_storesCfg (op := .settype i r) (p := { s.cfgAt i with
        tt := if s.params.merge = .accumulate then (s.cfgAt i).tt ||| encodeTrigger r else encodeTrigger r })
      h hf hl hi hlevels
      (fun t hq => by rw [exec_settype (hq.cur ▸ hctx) (hq.ctl.trans hctl) hi r, hq.params])
      (fun w hw => by rw [ofWord_cfgTrigger, hw, mergedType_eq]) rfl
  exact ⟨t, hrun, hret, hat, hother, hirq, hout, hlevel, hinst⟩

/-- Settles O28: the locked read-modify-write of the CFG word with `cfgIntDisable`. -/
theorem irqdisClearsEnableOnly : Obligations.IrqdisClearsEnableOnly := by
  unfold Obligations.IrqdisClearsEnableOnly
  intro s c i h hf hl hi hlevels
  obtain ⟨hctx, -, hctl, -, -⟩ := id h
  obtain ⟨t, hrun, hret, ⟨hat, hother, hirq, hout, hlevel⟩, hinst⟩ :=
    lockedRmw_storesCfg (op := .irqdis i) (p := { s.cfgAt i with eint := false }) h hf hl hi hlevels
      (fun t hq => exec_irqdis (hq.cur ▸ hctx) (hq.ctl.trans hctl) hi)
      (fun w hw => by rw [ofWord_cfgIntDisable, hw]) rfl
  exact ⟨t, hrun, hret, hat, hother, hirq, hout, hlevel, hinst⟩

/-! ### A critical section after the first -/

/-- A run goes on with the micro-step at which it stands. -/
theorem Reaches.snoc {s t u : State} {op : Instr} {k : Nat} {w v : Word} {l m : Option AgentId}
    (h : Reaches s ⟨op, k, w⟩ l t) (he : exec op t = .next u) (hq : Quiet t u)
    (hme : u.me = { t.me with op := some ⟨op, k + 1, v⟩ }) (hl : u.lock = m) : Reaches s ⟨op, k + 1, v⟩ m u :=
  ⟨execTimes_snoc h.run he, h.quiet.trans hq, by rw [hme, h.me], hl⟩

section
variable {s t : State} {op : Instr} {k : Nat} {w : Word} (ha : Admitted s op)
include ha

/-- A later Acquire, with the lock Free again (20_memory.md R70). -/
theorem Reaches.acquire (h : Reaches s ⟨op, k, w⟩ none t) (hm : microOf t ⟨op, k, w⟩ = .acquire) :
    ∃ u, Reaches s ⟨op, k + 1, w⟩ (some s.cur) u ∧ KeepsRegisters t u := by
  have ho : t.me.op = some ⟨op, k, w⟩ := congrArg Agent.op h.me
  obtain ⟨u, he, hq, hme, hl, hk, -⟩ := acquire_takes (hasCur_of_op ho) ho h.lock
  have hexec : exec op t = .next u := (exec_inFlight ho (ha.quiet h.quiet)).trans (by rw [hm]; exact he)
  exact ⟨u, h.snoc hexec hq hme (by rw [hl, h.quiet.cur]), hk⟩

/-- A Release that does not end the operation (20_memory.md R71). -/
theorem Reaches.release (h : Reaches s ⟨op, k, w⟩ (some s.cur) t) (hm : microOf t ⟨op, k, w⟩ = .release) :
    ∃ u, Reaches s ⟨op, k + 1, w⟩ none u ∧ KeepsRegisters t u := by
  have ho : t.me.op = some ⟨op, k, w⟩ := congrArg Agent.op h.me
  obtain ⟨u, he, hq, hme, hl, hk, -⟩ := releaseStep_frees (hasCur_of_op ho) ho (by rw [h.lock, h.quiet.cur])
  have hexec : exec op t = .next u := (exec_inFlight ho (ha.quiet h.quiet)).trans (by rw [hm]; exact he)
  exact ⟨u, h.snoc hexec hq hme hl, hk⟩

/-- The read and the write of a CFG word after which the line does not drive change that word alone. -/
theorem Reaches.rmwCfg {l : Option AgentId} {i : Nat} {f : Word → Word} {p : PinConfig}
    (h : Reaches s ⟨op, k, w⟩ l t) (hwf : s.params.WF) (hi : i < 32) (hr : microOf t ⟨op, k, w⟩ = .read (.cfg i) id)
    (hw : ∀ m v, microOf m ⟨op, k + 1, v⟩ = .write (.cfg i) (f v))
    (hp : ∀ v, PinConfig.ofWord v = t.cfgAt i → PinConfig.ofWord (f v) = p) (hd : p.driving = false) :
    ∃ v u, Reaches s ⟨op, k + 2, v⟩ l u ∧ StoresCfg i p t u := by
  obtain ⟨m, hm, hk⟩ := h.read (r := .cfg i) ha hr hwf hi
  obtain ⟨e, he⟩ := put_ok m (f (t.view t.draw (.cfg i))) (r := .cfg i) nofun
  obtain ⟨u, hu, hk'⟩ := hm.write ha (hw m _) hwf hi he
  have hfields := hp _ (ofWord_view_cfg t t.draw i)
  have hstore := put_storesCfg hi (fun hdrive => absurd hdrive (by rw [hfields, hd]; exact Bool.false_ne_true)) he
  rw [hfields] at hstore
  exact ⟨_, u, hu, hstore.between hk hk'⟩

end

/-! ### IRQEN -/

section
variable {s t : State} {c : Controller} {i : Nat} (h : CallerReady s c) (hi : i < c.n)
include h hi

/-- The first critical section of IRQEN makes the line an input (R212). -/
theorem irqen_configures (hf : s.fresh) (hl : s.lock = none) : ∃ v t, Reaches s ⟨.irqen i, 4, v⟩ none t ∧
    StoresCfg i { s.cfgAt i with eo := false, ei := true, oe := false } s t := by
  have ha : Admitted s (.irqen i) := admitted_of_callerReady h hi rfl rfl rfl
  obtain ⟨-, hcur, -, hn, hwf⟩ := h
  obtain ⟨a, hacq, hk⟩ := reaches_acquired ha hcur hf rfl hl
  obtain ⟨hcfg, -⟩ := id hk
  obtain ⟨v, u, hu, hstore⟩ := hacq.rmwCfg ha (p := { s.cfgAt i with eo := false, ei := true, oe := false }) hwf
    (hi.trans_le hn) rfl (fun _ _ => rfl) (fun v hv => by rw [ofWord_cfgInput, hv, cfgAt_congr hcfg]) rfl
  obtain ⟨t, ht, hk'⟩ := hu.release ha rfl
  exact ⟨v, t, ht, hstore.between hk hk'⟩

/-- The second critical section of IRQEN clears the line's sticky bit (R212). -/
theorem irqen_clears {v : Word} (ht : Reaches s ⟨.irqen i, 4, v⟩ none t) :
    ∃ u, Reaches s ⟨.irqen i, 7, v⟩ none u ∧ ClearsStatus i t u := by
  have ha : Admitted s (.irqen i) := admitted_of_callerReady h hi rfl rfl rfl
  obtain ⟨-, -, -, -, hwf⟩ := h
  obtain ⟨a, hacq, hk⟩ := ht.acquire ha rfl
  obtain ⟨e, he⟩ := put_ok a (lineBit i) (r := .irq) nofun
  obtain ⟨m, hm, hem⟩ := hacq.write ha rfl hwf trivial he
  obtain ⟨u, hu, hmu⟩ := hm.release ha rfl
  exact ⟨u, hu, (put_clearsStatus he).between hk (hem.trans hmu)⟩

/-- The third critical section of IRQEN sets EINT of a line that does not drive, and the operation returns (R212). -/
theorem irqen_enables {v : Word} (ht : Reaches s ⟨.irqen i, 7, v⟩ none t) (hl : s.lock = none)
    (hd : (t.cfgAt i).driving = false) : ∃ u, execTimes (.irqen i) 11 s = .next u ∧ Returned .ok s u ∧
      StoresCfg i { t.cfgAt i with eint := true } t u ∧ KeepsInstance s u := by
  have ha : Admitted s (.irqen i) := admitted_of_callerReady h hi rfl rfl rfl
  obtain ⟨-, -, -, hn, hwf⟩ := h
  obtain ⟨a, hacq, hk⟩ := ht.acquire ha rfl
  obtain ⟨hcfg, -⟩ := id hk
  obtain ⟨w, m, hm, hstore⟩ := hacq.rmwCfg ha (p := { t.cfgAt i with eint := true }) hwf (hi.trans_le hn) rfl
    (fun _ _ => rfl) (fun v hv => by rw [ofWord_cfgIntEnable, hv, cfgAt_congr hcfg]) hd
  obtain ⟨u, hrun, hq, hret, hlock, hk'⟩ := hm.returns ha rfl rfl
  exact ⟨u, hrun, hret, hstore.between hk hk', hq.keeps (hlock.trans hl.symm)⟩

end

/-- Settles O26: the three critical sections; the first leaves EI set, so that the line does not drive at the third. -/
theorem irqenClearsThenEnables : Obligations.IrqenClearsThenEnables := by
  unfold Obligations.IrqenClearsThenEnables
  intro s c i h hf hl hi
  obtain ⟨v, x, hx, hxat, hxother, hxirq, hxout, hxlevel⟩ := irqen_configures h hi hf hl
  obtain ⟨y, hy, hyirq, hycfg, hyout, hylevel⟩ := irqen_clears h hi hx
  have hyat := (cfgAt_congr hycfg i).trans hxat
  obtain ⟨t, hrun, hret, ⟨hat, hother, hirq, hout, hlevel⟩, hinst⟩ :=
    irqen_enables h hi hy hl (by rw [hyat]; rfl)
  refine ⟨t, hrun, hret, by rw [hat, hyat], fun j hj => ?_, fun b hb => ?_, hout.trans (hyout.trans hxout),
    hlevel.trans (hylevel.trans hxlevel), hinst⟩
  · rw [hother j hj, cfgAt_congr hycfg, hxother j hj]
  · rw [hirq, hyirq b hb, hxirq]

/-- Settles O27: the two writes of the table. -/
theorem irqenClearPrecedesEnable : Obligations.IrqenClearPrecedesEnable := by
  unfold Obligations.IrqenClearPrecedesEnable
  intro s c i w h hi
  have ha : Admitted s (.irqen i) := admitted_of_callerReady h hi rfl rfl rfl
  obtain ⟨-, -, -, hn, hwf⟩ := h
  have hi32 : i < 32 := hi.trans_le hn
  refine ⟨fun ho => ?_, fun ho => ?_⟩
  · obtain ⟨u, hu⟩ := put_ok s (lineBit i) (r := .irq) nofun
    obtain ⟨t, he, hq, hme, hlock, hk, -⟩ := exec_writes ha ho rfl hwf trivial hu
    obtain ⟨hirq, hcfg, hout, hlevel⟩ := (put_clearsStatus hu).between ⟨rfl, rfl, rfl, rfl⟩ hk
    exact ⟨t, he, hme, hirq, hcfg, hout, hlevel, hq.keeps hlock⟩
  · obtain ⟨u, hu⟩ := put_ok s (cfgIntEnable w) (r := .cfg i) nofun
    obtain ⟨t, he, hq, hme, hlock, ⟨hcfg, -, hout, -⟩, -⟩ := exec_writes ha ho rfl hwf hi32 hu
    obtain ⟨huat, huother, huout⟩ := put_cfg_stores hi32 hu
    exact ⟨t, he, hme, (cfgAt_congr hcfg i).trans (huat.trans (ofWord_cfgIntEnable w)),
      fun j hj => (cfgAt_congr hcfg j).trans (huother j hj), hout.trans huout, hq.keeps hlock⟩

/-! ### IRQMASK and IRQUNMASK -/

/-- An operation that begins and returns in one turn changes nothing but its agent (60_exceptions.md R291). -/
theorem finish_enter_returns {s : State} (i : Instr) (r : Result) (hc : s.hasCur = true) (hf : s.fresh) :
    Returned r s (finish r (enter i s)) ∧ (finish r (enter i s)).draws = s.draws ∧
      KeepsRegisters s (finish r (enter i s)) ∧ KeepsInstance s (finish r (enter i s)) := by
  obtain ⟨hme, hq, -⟩ := begun i hc hf
  refine ⟨?_, by simp, by simp [KeepsRegisters], (hq.trans (quiet_finish r _)).keeps (by simp)⟩
  unfold Returned
  rw [me_finish r (hq.hasCur.trans hc), hme]

/-- Settles O29: both return at once. -/
theorem maskAndUnmaskAreNoOps : Obligations.MaskAndUnmaskAreNoOps := by
  unfold Obligations.MaskAndUnmaskAreNoOps
  rintro s c i ⟨hctx, hcur, hctl, -, -⟩ hf hi
  exact ⟨⟨_, exec_irqmask hctx hctl hi, finish_enter_returns _ .ok hcur hf⟩,
    ⟨_, exec_irqunmask hctx hctl hi, finish_enter_returns _ .ok hcur hf⟩⟩

end Sys2Proof.Machine
end

section
/-!
PROOFS. The dispatch loop (44_dispatch.md R240 to R248): the lines a scan services, what a micro-step of HANDLE and
HANDLECHAINED can do to the registers, and the whole run of both. The two entries share one scan, which begins at `mpc` 0
in HANDLE and at `mpc` 1 in HANDLECHAINED.
-/

namespace Sys2Proof.Machine

/-! ### The lines a scan services -/

/-- Settles O39: the lines are filtered out of the range below `n`, which ascends. -/
theorem pendingLinesAscend : Obligations.PendingLinesAscend := by
  unfold Obligations.PendingLinesAscend
  exact fun n w => ⟨List.pairwise_lt_range.filter _, fun i => mem_pendingLines⟩

/-! ### One bit at a time -/

/-- A micro-step whose one write, if it makes any, is the write-1-to-clear of one line of `P` (R241). -/
def Micro.ClearsLineOf (P : Nat → Prop) : Micro → Prop
  | .write r d => r = .irq ∧ ∃ b, P b ∧ d = lineBit b
  | .writeAnswer _ _ => False
  | _ => True

/-- Such a micro-step leaves the registers, or clears the one bit of a line of `P`. -/
theorem Micro.ClearsLineOf.run {P : Nat → Prop} {e t : State} {m : Micro} (hm : m.ClearsLineOf P) (hp : e.params.WF)
    (h : m.run e = .next t) : KeepsRegisters e t ∨ ∃ b, P b ∧ ClearsStatus b e t := by
  cases m with
  | write r d =>
    obtain ⟨rfl, b, hb, rfl⟩ := hm
    obtain ⟨u, hu, rfl⟩ := memWrite_next (r := .irq) hp trivial _ _ h
    exact .inr ⟨b, hb, (put_clearsStatus hu).between ⟨rfl, rfl, rfl, rfl⟩ (by simp [KeepsRegisters])⟩
  | writeAnswer r d => exact hm.elim
  | _ => exact .inl (by cases Micro.leaves_of_run h <;> simp [KeepsRegisters])

theorem scanMicro_clearsLineOf (s : State) (w : Word) {last : Micro} {P : Nat → Prop} (hl : last.ClearsLineOf P)
    (hP : ∀ b, b ∈ pendingLines s.lineCount w → P b) (k : Nat) : (scanMicro s w last k).ClearsLineOf P := by
  rcases k with _ | _ | k
  · trivial
  · trivial
  · simp only [scanMicro]
    cases hx : (pendingLines s.lineCount w)[k / 2]? with
    | none => exact hl
    | some b =>
      dsimp only
      split
      · exact ⟨rfl, b, hP b (List.mem_of_getElem? hx), rfl⟩
      · trivial

/-- Every write of HANDLE and HANDLECHAINED clears a line of the snapshot. -/
theorem microOf_clearsLineOf (s : State) {o : InFlight} (hi : o.instr = .handle ∨ o.instr = .handlechained) :
    (microOf s o).ClearsLineOf (· ∈ pendingLines s.lineCount o.tmp) := by
  obtain ⟨i, k, w⟩ := o
  obtain rfl | rfl : i = .handle ∨ i = .handlechained := hi
  · exact scanMicro_clearsLineOf s w (last := .handleDone) trivial (fun _ hb => hb) k
  · cases k with
    | zero => trivial
    | succ k =>
      simp only [microOf]
      split
      · exact scanMicro_clearsLineOf s w (last := .release) trivial (fun _ hb => hb) k
      · trivial

/-- Beginning an operation sets no local: without an operation it reads as 0. -/
@[simp] theorem tmp_enter (i : Instr) (s : State) : (enter i s).tmp = s.tmp := by
  cases ho : s.me.op with
  | some o => rw [enter_inFlight i ho]
  | none =>
    have h0 : s.tmp = 0#32 := by simp [State.tmp, ho]
    by_cases hc : s.hasCur = true
    · rw [h0, tmp_of_op (congrArg Agent.op (me_enter_fresh i hc ho))]
    · have hidle : (enter i s).me = Agent.idle := by
        by_contra hne
        exact hc ((hasCur_enter i s).symm.trans (hasCur_of_me hne))
      simp [State.tmp, hidle, Agent.idle, ho]

/-- Settles O38: a turn is the micro-step of the table at which the operation stands, and the tables of both entries write
line bits of the snapshot to IRQ alone. -/
theorem handleClearsOneBitAtATime : Obligations.HandleClearsOneBitAtATime := by
  unfold Obligations.HandleClearsOneBitAtATime
  intro s t i hi hp h
  obtain ha | ⟨⟨j, hj, -⟩, -⟩ := exec_admitted h
  · rw [exec_eq_run ha] at h
    have hclears := microOf_clearsLineOf s (o := s.standing i) hi
    obtain ⟨hcfg, hirq, hout, -⟩ | ⟨b, hb, hbits, hcfg, hout, -⟩ := hclears.run (by rw [enter_params]; exact hp) h
    · exact ⟨hcfg.trans (enter_cfg i s), hout.trans (enter_out i s), .inl (hirq.trans (enter_irq i s))⟩
    · rw [State.standing, tmp_enter, mem_pendingLines] at hb
      obtain ⟨hlt, hset⟩ := hb
      rw [enter_irq] at hbits
      refine ⟨hcfg.trans (enter_cfg i s), hout.trans (enter_out i s), .inr ?_⟩
      cases hc : s.ctl with
      | none => simp [State.lineCount, hc] at hlt
      | some c => exact ⟨c, b, rfl, lineCount_ready hc ▸ hlt, hset, hbits⟩
  · obtain rfl | rfl := hi <;> cases hj

/-! ### The dispatch agent in the middle of its operation -/

/-- The state with the dispatch agent's operation in flight at `o`. -/
def State.dispatchAt (s : State) (o : InFlight) : State := { s with dispatch := { s.dispatch with op := some o } }

theorem me_dispatch {s : State} (h : s.cur = .dispatch) : s.me = s.dispatch := by
  simp [State.me, State.agent, h]

theorem setMe_dispatch {s : State} (h : s.cur = .dispatch) (g : Agent) : s.setMe g = { s with dispatch := g } := by
  simp [State.setMe, State.setAgent, h]

theorem enter_dispatch {s : State} (h : s.cur = .dispatch) (hf : s.fresh) (i : Instr) :
    enter i s = s.dispatchAt ⟨i, 0, 0#32⟩ := by
  have hop : s.me.op = none := hf
  rw [enter, hop, setMe_dispatch h, me_dispatch h]
  rfl

theorem me_dispatchAt {s : State} (h : s.cur = .dispatch) (o : InFlight) : (s.dispatchAt o).me.op = some o := by
  rw [me_dispatch (s := s.dispatchAt o) h]
  rfl

theorem tmp_dispatchAt {s : State} (h : s.cur = .dispatch) (o : InFlight) : (s.dispatchAt o).tmp = o.tmp :=
  tmp_of_op (me_dispatchAt h o)

theorem advance_dispatchAt {s : State} (h : s.cur = .dispatch) (o : InFlight) (w : Word) :
    advance w (s.dispatchAt o) = s.dispatchAt (o.next w) := by
  rw [advance, setMe_dispatch (s := s.dispatchAt o) h, me_dispatch (s := s.dispatchAt o) h]
  rfl

section
variable {s : State} (h : s.cur = .dispatch) (o : InFlight)
include h

theorem acquire_dispatchAt (hl : s.lock = none) :
    acquire (s.dispatchAt o) = .next ((s.setLock (some .dispatch)).dispatchAt (o.next o.tmp)) := by
  rw [acquire_free (s := s.dispatchAt o) hl, tmp_dispatchAt h, ← h]
  exact congrArg _ (advance_dispatchAt (s := s.setLock (some s.cur)) h o o.tmp)

theorem readIrq_dispatchAt (hp : s.params.WF) (f : Word → Word) :
    (Micro.read .irq f).run (s.dispatchAt o) = .next (s.drew.dispatchAt (o.next (f (s.view s.draw .irq)))) :=
  (memRead_reg (s := s.dispatchAt o) (r := .irq) hp trivial fun w t => advance (f w) t).trans
    (congrArg _ (advance_dispatchAt (s := s.drew) h o _))

theorem writeIrq_dispatchAt (hp : s.params.WF) (w : Word) :
    writeStep s.params.irqOff w (s.dispatchAt o) =
      .next ((s.setIrq (clearBits s.irq w)).dispatchAt (o.next o.tmp)) := by
  refine (memWrite_reg (s := s.dispatchAt o) (r := .irq) hp trivial rfl _).trans ?_
  rw [tmp_dispatchAt h]
  exact congrArg _ (advance_dispatchAt (s := s.setIrq (clearBits s.irq w)) h o o.tmp)

theorem event_dispatchAt (x : Event) :
    (Micro.event x).run (s.dispatchAt o) = .next ((addEvent x s).dispatchAt (o.next o.tmp)) := by
  have hadv := advance_dispatchAt (s := addEvent x s) h o o.tmp
  rw [Micro.run, tmp_dispatchAt h]
  exact congrArg _ hadv

theorem releaseStep_dispatchAt (hl : s.lock = some .dispatch) :
    releaseStep (s.dispatchAt o) = .next ((s.setLock none).dispatchAt (o.next o.tmp)) := by
  refine (release_held (s := s.dispatchAt o) _ (hl.trans (congrArg some h.symm))).trans ?_
  have hadv := advance_dispatchAt (s := s.setLock none) h o o.tmp
  rw [← hadv, ← tmp_dispatchAt (s := s.setLock none) h o]
  rfl

end

/-! ### One scan for both entries -/

/-- An entry of the dispatch agent: its scan begins at `mpc` `d` and ends with the micro-step `last`; the chained one only
where it is admitted (R247). -/
inductive ScanEntry (p : Params) : Instr → Nat → Micro → Prop where
  | handle : ScanEntry p .handle 0 .handleDone
  | chained : p.chainedEntry = true → ScanEntry p .handlechained 1 .release

/-- After the W1C and the Dispatch of one line (R244). -/
def State.servicedLine (s : State) (i : Nat) : State :=
  addEvent (.irq i (s.handleOf i)) (s.setIrq (clearBits s.irq (lineBit i)))

/-- After the W1C and the Dispatch of the lines `ls`, in this order. -/
def State.serviced (s : State) (ls : List Nat) : State :=
  { s with
    irq := ls.foldl (fun w i => clearBits w (lineBit i)) s.irq
    events := s.events ++ ls.map fun i => .irq i (s.handleOf i) }

/-- After the Acquire, the read and every pending line below `n` (R240). -/
def State.scanned (s : State) (n : Nat) : State :=
  ((s.setLock (some .dispatch)).drew).serviced (pendingLines n s.irq)

theorem serviced_nil (s : State) : s.serviced [] = s := by simp [State.serviced]

theorem serviced_cons (s : State) (i : Nat) (ls : List Nat) : s.serviced (i :: ls) = (s.servicedLine i).serviced ls := by
  rw [State.serviced, List.map_cons, List.append_cons]
  rfl

/-- Each serviced line's bit is cleared, and no other. -/
theorem getLsbD_serviced_irq (s : State) (ls : List Nat) {b : Nat} (hb : b < 32) :
    (s.serviced ls).irq.getLsbD b = (s.irq.getLsbD b && decide (b ∉ ls)) := by
  induction ls generalizing s with
  | nil => simp [State.serviced]
  | cons i ls ih =>
    have hline : (s.servicedLine i).irq = clearBits s.irq (lineBit i) := rfl
    rw [serviced_cons, ih, hline, getLsbD_clearBits, getLsbD_lineBit]
    simp [hb, Bool.and_assoc]

section
variable {s : State} {w : Word} {last : Micro} {j i : Nat} (hx : (pendingLines s.lineCount w)[j]? = some i)
include hx

theorem scanMicro_clears : scanMicro s w last (2 * j + 2) = .write .irq (lineBit i) := by
  simp [scanMicro, hx]

theorem scanMicro_dispatches : scanMicro s w last (2 * j + 3) = .event (.irq i (s.handleOf i)) := by
  have hdiv : (2 * j + 1) / 2 = j := by omega
  simp [scanMicro, hdiv, hx]

end

/-- After the last line a scan stands at its last micro-step. -/
theorem scanMicro_ends (s : State) (w : Word) (last : Micro) :
    scanMicro s w last (scanLength s.lineCount w) = last := by
  have hb := (scanLength_bounds s.lineCount w).1
  obtain ⟨h0, -⟩ | ⟨h1, -⟩ | ⟨-, hlt, -⟩ | ⟨-, h⟩ := scanMicro_cases s w last (scanLength s.lineCount w)
  · omega
  · omega
  · omega
  · exact h

section
variable {s : State} {c : Controller} {op : Instr} {d : Nat} {last : Micro}
  (hs : ScanEntry s.params op d last) (h : DispatchReady s c)
include hs h

theorem ScanEntry.admitted : Admitted s op := by
  obtain ⟨hcur, hctl, -, -, hbusy⟩ := h
  cases hs with
  | handle => exact ⟨hcur ▸ checked_of_delivered hctl hbusy (.inl rfl), nofun⟩
  | chained hp => exact ⟨hcur ▸ checked_of_delivered hctl hbusy (.inr ⟨rfl, hp⟩), nofun⟩

/-- The operation in flight runs its micro-step of the scan. -/
theorem ScanEntry.exec_scan {m : Nat} {w : Word} (hm : m ≤ scanLength c.n w) :
    exec op (s.dispatchAt ⟨op, d + m, w⟩) = (scanMicro s w last m).run (s.dispatchAt ⟨op, d + m, w⟩) := by
  have ha : Admitted (s.dispatchAt ⟨op, d + m, w⟩) op := hs.admitted (s := s.dispatchAt ⟨op, d + m, w⟩) (c := c) h
  obtain ⟨hcur, hctl, -⟩ := h
  rw [exec_inFlight (me_dispatchAt hcur _) ha]
  cases hs with
  | handle => rw [Nat.zero_add]; rfl
  | chained =>
    rw [← lineCount_ready hctl] at hm
    rw [Nat.add_comm 1 m]
    exact congrArg (Micro.run _) (if_pos hm)

/-- The Acquire and the masked read of IRQ (R240), with the lock Free; the snapshot has the pending lines of IRQ. -/
theorem ScanEntry.exec_snapshot (hl : s.lock = none) (w : Word) :
    ∃ v, pendingLines c.n v = pendingLines c.n s.irq ∧ execTimes op 2 (s.dispatchAt ⟨op, d, w⟩) =
      .next ((s.setLock (some .dispatch)).drew.dispatchAt ⟨op, d + 2, v⟩) := by
  have hacquire := hs.exec_scan h (m := 0) (w := w) (Nat.zero_le _)
  have hread := hs.exec_scan (s := s.setLock (some .dispatch)) (c := c) h (m := 1) (w := w)
    (Nat.le_of_succ_le (scanLength_bounds c.n w).1)
  obtain ⟨hcur, hctl, hn, hp, -⟩ := h
  refine ⟨_, pendingLines_congr fun b hb => ?_, (execTimes_succ (hacquire.trans (acquire_dispatchAt hcur _ hl)) 1).trans
    (execTimes_succ (hread.trans (readIrq_dispatchAt (s := s.setLock (some .dispatch)) hcur _ hp _)) 0)⟩
  have hcount : (s.setLock (some .dispatch)).lineCount = c.n := lineCount_ready hctl
  have hb32 : b < 32 := hb.trans_le hn
  simp [State.view, hcount, hb, hb32]

/-- The W1C and the Dispatch of the `j`-th line of the snapshot (R241, R244). -/
theorem ScanEntry.exec_line {w : Word} {i j : Nat} (hx : (pendingLines c.n w)[j]? = some i) :
    execTimes op 2 (s.dispatchAt ⟨op, d + (2 * j + 2), w⟩) =
      .next ((s.servicedLine i).dispatchAt ⟨op, d + (2 * (j + 1) + 2), w⟩) := by
  obtain ⟨hcur, hctl, -, hp, -⟩ := id h
  have hlt : 2 * j + 3 ≤ scanLength c.n w := by
    have hj := (List.getElem?_eq_some_iff.mp hx).1
    unfold scanLength; omega
  rw [← lineCount_ready hctl] at hx
  have hclear := hs.exec_scan h (m := 2 * j + 2) (Nat.le_of_succ_le hlt)
  rw [scanMicro_clears hx] at hclear
  have hevent := hs.exec_scan (s := s.setIrq (clearBits s.irq (lineBit i))) h hlt
  rw [scanMicro_dispatches (s := s.setIrq (clearBits s.irq (lineBit i))) hx] at hevent
  exact (execTimes_succ (hclear.trans (writeIrq_dispatchAt hcur _ hp _)) 1).trans
    (execTimes_succ (hevent.trans (event_dispatchAt (s := s.setIrq (clearBits s.irq (lineBit i))) hcur _ _)) 0)

/-- Every line of the snapshot that is not done yet, in order (R243). -/
theorem ScanEntry.exec_lines {w : Word} (done ls : List Nat) (hls : pendingLines c.n w = done ++ ls) :
    execTimes op (2 * ls.length) (s.dispatchAt ⟨op, d + (2 * done.length + 2), w⟩) =
      .next ((s.serviced ls).dispatchAt ⟨op, d + scanLength c.n w, w⟩) := by
  induction ls generalizing s done with
  | nil =>
    have hlen : scanLength c.n w = 2 * done.length + 2 := by rw [scanLength, hls, List.append_nil, Nat.add_comm]
    rw [serviced_nil, hlen]
    rfl
  | cons i ls ih =>
    have hline := hs.exec_line h (j := done.length) (i := i) (w := w) (by rw [hls]; simp)
    have hrest := ih (s := s.servicedLine i) hs h (done ++ [i]) (by rw [hls, List.append_cons])
    rw [List.length_append] at hrest
    rw [serviced_cons, List.length_cons, Nat.mul_succ, Nat.add_comm]
    exact (execTimes_add hline _).trans hrest

/-- A whole scan, with the lock Free before it: it holds the lock at its last micro-step. -/
theorem ScanEntry.exec_until_last (hl : s.lock = none) (w : Word) : ∃ v,
    execTimes op (2 + 2 * (pendingLines c.n s.irq).length) (s.dispatchAt ⟨op, d, w⟩) =
      .next ((s.scanned c.n).dispatchAt ⟨op, d + scanLength c.n v, v⟩) ∧
    exec op ((s.scanned c.n).dispatchAt ⟨op, d + scanLength c.n v, v⟩) =
      last.run ((s.scanned c.n).dispatchAt ⟨op, d + scanLength c.n v, v⟩) := by
  obtain ⟨v, hv, hsnap⟩ := hs.exec_snapshot h hl w
  have hlines := hs.exec_lines (s := (s.setLock (some .dispatch)).drew) h [] _ hv
  have hlast := hs.exec_scan (s := s.scanned c.n) h (Nat.le_refl (scanLength c.n v))
  obtain ⟨-, hctl, -⟩ := h
  have hcount : (s.scanned c.n).lineCount = c.n := lineCount_ready hctl
  have hend := scanMicro_ends (s.scanned c.n) v last
  rw [hcount] at hend
  rw [hend] at hlast
  exact ⟨v, (execTimes_add hsnap _).trans hlines, hlast⟩

/-- Beginning takes no turn of its own. -/
theorem ScanEntry.execTimes_begin (hf : s.fresh) (k : Nat) :
    execTimes op (k + 1) s = execTimes op (k + 1) (s.dispatchAt ⟨op, 0, 0#32⟩) := by
  have ha := hs.admitted h
  obtain ⟨hcur, -⟩ := h
  obtain ⟨-, -, he⟩ := exec_enter hf (hasCur_of_dispatch hcur) ha
  rw [← enter_dispatch hcur hf, execTimes, execTimes, he]

end

/-- A scan clears every pending line below `n`, and keeps the bits at and above `n` (R246). -/
theorem getLsbD_scanned_irq (s : State) (n : Nat) {b : Nat} (hb : b < 32) :
    (s.scanned n).irq.getLsbD b = (s.irq.getLsbD b && decide (n ≤ b)) := by
  refine (getLsbD_serviced_irq _ _ hb).trans ?_
  cases hset : s.irq.getLsbD b <;> simp [mem_pendingLines, hset]

/-- A scan delivers every pending line below `n` with its handle, in ascending order (R243, R245). -/
theorem scanned_events {s : State} {c : Controller} (h : s.ctl = some c) (n : Nat) :
    (s.scanned n).events = s.events ++ (pendingLines n s.irq).map fun i => .irq i (c.handleOf i) := by
  simp [State.scanned, State.serviced, State.handleOf, h]

/-! ### HANDLE and HANDLECHAINED -/

/-- Settles O36: the scan begins at HANDLE's first micro-step, and its last is the Release with the return. -/
theorem handleServicesPendingLines : Obligations.HandleServicesPendingLines := by
  unfold Obligations.HandleServicesPendingLines
  intro s c h hf hl
  have hbegin := ScanEntry.execTimes_begin .handle h hf (2 + 2 * (pendingLines c.n s.irq).length)
  obtain ⟨v, hscan, hlast⟩ := ScanEntry.exec_until_last .handle h hl 0#32
  obtain ⟨hcur, hctl, -⟩ := h
  have hrun := hbegin.trans (execTimes_snoc hscan (hlast.trans (release_held _ (congrArg some hcur.symm))))
  rw [Nat.add_right_comm] at hrun
  refine ⟨_, hrun, scanned_events hctl c.n, fun b hb => ?_, ?_⟩
  · rw [returnHandle_irq, setLock_irq]
    exact getLsbD_scanned_irq s c.n hb
  · simp [State.dispatchAt, State.scanned, State.serviced, returnHandle]

/-- The enter marker, HANDLECHAINED's first micro-step (R247). -/
theorem exec_chainedEnter {s : State} {c : Controller} (h : DispatchReady s c) (hp : s.params.chainedEntry = true) :
    exec .handlechained (s.dispatchAt ⟨.handlechained, 0, 0#32⟩) =
      .next ((addEvent .chainedEnter s).dispatchAt ⟨.handlechained, 1, 0#32⟩) := by
  have ha : Admitted (s.dispatchAt ⟨.handlechained, 0, 0#32⟩) .handlechained :=
    ScanEntry.admitted (c := c) (.chained hp) h
  obtain ⟨hcur, -⟩ := h
  exact (exec_inFlight (me_dispatchAt hcur _) ha).trans (event_dispatchAt hcur _ _)

/-- The exit marker and the return, HANDLECHAINED's micro-step after its scan (R247). -/
theorem exec_chainedExit {s : State} {c : Controller} (h : DispatchReady s c) (hp : s.params.chainedEntry = true)
    (v : Word) : exec .handlechained (s.dispatchAt ⟨.handlechained, 1 + scanLength c.n v + 1, v⟩) =
      .next (returnHandle (addEvent .chainedExit (s.dispatchAt ⟨.handlechained, 1 + scanLength c.n v + 1, v⟩))) := by
  have ha : Admitted (s.dispatchAt ⟨.handlechained, 1 + scanLength c.n v + 1, v⟩) .handlechained :=
    ScanEntry.admitted (c := c) (.chained hp) h
  obtain ⟨hcur, hctl, -⟩ := h
  refine (exec_inFlight (me_dispatchAt hcur _) ha).trans (congrArg (Micro.run _) (if_neg ?_ : _ = Micro.chainedDone))
  have hcount : (s.dispatchAt ⟨.handlechained, 1 + scanLength c.n v + 1, v⟩).lineCount = c.n := lineCount_ready hctl
  rw [hcount]
  dsimp only
  omega

/-- Settles O37: the enter marker, the scan with a Release that goes on, and the exit marker with the return. -/
theorem handlechainedFramesTheScan : Obligations.HandlechainedFramesTheScan := by
  unfold Obligations.HandlechainedFramesTheScan
  intro s c h hp hf hl
  have hbegin := ScanEntry.execTimes_begin (.chained hp) h hf (2 + 2 * (pendingLines c.n s.irq).length + 2)
  have henter := exec_chainedEnter h hp
  obtain ⟨v, hscan, hlast⟩ := ScanEntry.exec_until_last (s := addEvent .chainedEnter s) (.chained hp) h hl 0#32
  rw [addEvent_irq] at hscan
  have hexit := exec_chainedExit (s := ((addEvent .chainedEnter s).scanned c.n).setLock none) h hp v
  obtain ⟨hcur, hctl, -⟩ := h
  have hrelease := releaseStep_dispatchAt (s := (addEvent .chainedEnter s).scanned c.n) hcur
    ⟨.handlechained, 1 + scanLength c.n v, v⟩ rfl
  have hrun := hbegin.trans ((execTimes_succ henter _).trans
    (execTimes_snoc (execTimes_snoc hscan (hlast.trans hrelease)) hexit))
  have hlen : 5 + 2 * (pendingLines c.n s.irq).length = 2 + 2 * (pendingLines c.n s.irq).length + 2 + 1 := by omega
  rw [hlen]
  refine ⟨_, hrun, ?_, fun b hb => ?_, ?_⟩
  · have hevents := scanned_events (s := addEvent .chainedEnter s) hctl c.n
    simp only [addEvent, List.append_assoc] at hevents
    simp [State.dispatchAt, addEvent, hevents]
  · rw [returnHandle_irq, addEvent_irq]
    exact getLsbD_scanned_irq (addEvent .chainedEnter s) c.n hb
  · simp [State.dispatchAt, State.scanned, State.serviced, returnHandle, addEvent]

end Sys2Proof.Machine
end

section
/-!
PROOFS. Controller bring-up (45_controller.md R270 to R274): INIT's refusal while Ready, its two error returns, and its
whole run. The run is one read and one write per line, ascending, and then the publish micro-step.
-/

namespace Sys2Proof.Machine

/-! ### The agents the platform agent leaves alone -/

/-- The same agent acts, and neither a caller nor the dispatch agent changed. -/
def KeepsOtherAgents (s t : State) : Prop := t.cur = s.cur ∧ t.callers = s.callers ∧ t.dispatch = s.dispatch

theorem KeepsOtherAgents.trans {s t u : State} (h : KeepsOtherAgents s t) (k : KeepsOtherAgents t u) :
    KeepsOtherAgents s u := by
  obtain ⟨hcur, hcallers, hdispatch⟩ := h
  obtain ⟨hcur', hcallers', hdispatch'⟩ := k
  exact ⟨hcur'.trans hcur, hcallers'.trans hcallers, hdispatch'.trans hdispatch⟩

theorem keepsOtherAgents_setMe {s : State} (h : s.cur = .platform) (g : Agent) : KeepsOtherAgents s (s.setMe g) := by
  simp only [State.setMe, h]
  exact ⟨rfl, rfl, rfl⟩

theorem keepsOtherAgents_enter {s : State} (h : s.cur = .platform) (i : Instr) : KeepsOtherAgents s (enter i s) := by
  unfold enter
  split
  · exact ⟨rfl, rfl, rfl⟩
  · exact keepsOtherAgents_setMe h _

theorem keepsOtherAgents_put {s t : State} {d : Word} {r : Reg} (h : s.put d r = .ok t) : KeepsOtherAgents s t := by
  obtain ⟨-, -, -, -, -, -, hcur, -, -, hcallers, hdispatch, -⟩ := put_keeps h
  exact ⟨hcur, hcallers, hdispatch⟩

/-- A micro-step of the platform agent changes no other agent (00_scope.md R10). -/
theorem Effect.keepsOtherAgents {e t : State} (h : Effect e t) (hp : e.cur = .platform) : KeepsOtherAgents e t := by
  cases h with
  | held => exact ⟨rfl, rfl, rfl⟩
  | take => exact keepsOtherAgents_setMe (s := e.setLock (some e.cur)) hp _
  | read => exact keepsOtherAgents_setMe (s := e.drew) hp _
  | free | freeReturn => exact keepsOtherAgents_setMe (s := e.setLock none) hp _
  | answer => exact keepsOtherAgents_setMe hp _
  | readAnswer => exact keepsOtherAgents_setMe (s := e.drew) hp _
  | event x => exact keepsOtherAgents_setMe (s := addEvent x e) hp _
  | publish n => exact keepsOtherAgents_setMe (s := Machine.publish n e) hp _
  | write r d u hu | writeAnswer r d u hu =>
    exact (keepsOtherAgents_put hu).trans (keepsOtherAgents_setMe ((quiet_put hu).cur.trans hp) _)
  | handleEnd hd | chainedEnd hd => exact absurd (hp.symm.trans hd) nofun

/-- Nor do micro-steps of the platform agent in a row. -/
theorem execTimes_keepsOtherAgents {i : Instr} {k : Nat} {s t : State} (hp : s.cur = .platform)
    (h : execTimes i k s = .next t) : KeepsOtherAgents s t := by
  induction k generalizing s with
  | zero => cases h; exact ⟨rfl, rfl, rfl⟩
  | succ k ih =>
    rw [execTimes] at h
    cases he : exec i s with
    | next u =>
      rw [he] at h
      have hstep : KeepsOtherAgents s u := (keepsOtherAgents_enter hp i).trans
        ((exec_effect he).keepsOtherAgents ((enter_cur i s).trans hp))
      obtain ⟨hcur, -⟩ := id hstep
      exact hstep.trans (ih (hcur.trans hp) h)
    | fault r => rw [he] at h; cases h
    | refused r => rw [he] at h; cases h

/-! ### Runs that begin at micro-step 0 -/

theorem hasCur_of_platform {s : State} (h : s.cur = .platform) : s.hasCur = true := by
  unfold State.hasCur; rw [h]

section
variable {s : State} {op : Instr} (hc : s.hasCur = true) (hf : s.fresh)
include hc hf

/-- An operation that has just begun has reached its first micro-step. -/
theorem reaches_begun : Reaches (enter op s) ⟨op, 0, 0#32⟩ (enter op s).lock (enter op s) := by
  obtain ⟨hme, -⟩ := begun op hc hf
  exact ⟨rfl, .rfl _, by rw [hme], rfl⟩

/-- Beginning takes no turn of its own. -/
theorem execTimes_enter (ha : Admitted s op) (k : Nat) :
    execTimes op (k + 1) (enter op s) = execTimes op (k + 1) s := by
  obtain ⟨-, -, he⟩ := exec_enter hf hc ha
  rw [execTimes, execTimes, he]

end

/-! ### INIT line by line -/

/-- INIT of `n` lines passes the checks of R270 and R271 under a legal register map. -/
abbrev InitReady (s : State) (n : Nat) : Prop :=
  s.cur = .platform ∧ s.ctl = none ∧ s.launch.windowPresent = true ∧ n ≤ 32 ∧ s.params.WF

/-- EINT is cleared on every line below `k`; every other field, IRQ, OUT and the levels did not change. -/
def DisablesBelow (k : Nat) (s t : State) : Prop :=
  (∀ i, t.cfgAt i = if i < k then { s.cfgAt i with eint := false } else s.cfgAt i) ∧ t.irq = s.irq ∧ t.out = s.out ∧
    t.level = s.level

theorem disablesBelow_zero (s : State) : DisablesBelow 0 s s := ⟨fun _ => rfl, rfl, rfl, rfl⟩

/-- The next line's EINT is cleared after those below it. -/
theorem DisablesBelow.succ {k : Nat} {s t u : State} (h : DisablesBelow k s t)
    (hu : StoresCfg k { t.cfgAt k with eint := false } t u) : DisablesBelow (k + 1) s u := by
  obtain ⟨hcfg, hirq, hout, hlevel⟩ := h
  obtain ⟨hat, hother, hirq', hout', hlevel'⟩ := hu
  refine ⟨fun i => ?_, hirq'.trans hirq, hout'.trans hout, hlevel'.trans hlevel⟩
  by_cases hik : i = k
  · subst hik
    rw [hat, hcfg, if_neg (Nat.lt_irrefl i), if_pos (Nat.lt_succ_self i)]
  · have hlt : i < k ↔ i < k + 1 := by omega
    simp only [hother i hik, hcfg, hlt]

/-- Steps that keep the registers may come before the clearing. -/
theorem DisablesBelow.after {k : Nat} {s m t : State} (hk : KeepsRegisters s m) (h : DisablesBelow k m t) :
    DisablesBelow k s t := by
  obtain ⟨hcfg, hirq, hout, hlevel⟩ := hk
  obtain ⟨hat, hirq', hout', hlevel'⟩ := h
  refine ⟨fun i => ?_, hirq'.trans hirq, hout'.trans hout, hlevel'.trans hlevel⟩
  rw [hat, cfgAt_congr hcfg]

/-- EINT has no part in whether a line drives, so the levels of the driving lines still follow OUT (R134). -/
theorem DisablesBelow.levelsFollowOut {k : Nat} {s t : State} (h : DisablesBelow k s t) (hp : t.params = s.params)
    (hs : LevelsFollowOut s) : LevelsFollowOut t := by
  obtain ⟨hcfg, -, hout, hlevel⟩ := h
  intro hdriven b hb hd
  have hsame : (t.cfgAt b).driving = (s.cfgAt b).driving := by
    rw [hcfg]
    split <;> rfl
  rw [State.levelsDriven, hp] at hdriven
  rw [hlevel, hout]
  exact hs hdriven b hb (hsame ▸ hd)

section
variable {s t : State} {n : Nat} (h : InitReady s n)
include h

theorem InitReady.admitted : Admitted s (.init n) := by
  obtain ⟨hcur, hctl, -⟩ := h
  refine ⟨⟨by rw [hcur]; rfl, nofun, ⟨fun _ => ⟨n, rfl⟩, fun _ => hctl⟩, fun hd => ?_, nofun⟩, nofun⟩
  exact absurd (hcur.symm.trans hd) nofun

/-- The checks read nothing that a quiet change changes. -/
theorem InitReady.quiet (hq : Quiet s t) : InitReady t n := by
  obtain ⟨hcur, hctl, hwindow, hn, hwf⟩ := h
  exact ⟨hq.cur.trans hcur, hq.ctl.trans hctl, by rw [hq.launch, hwindow], hn, by rw [hq.params]; exact hwf⟩

/-- Past its checks INIT stands at a micro-step of its table (R270). -/
theorem InitReady.microOf_init (k : Nat) (w : Word) : microOf s ⟨.init n, k, w⟩ = initMicro n w k := by
  obtain ⟨-, -, hwindow, hn, -⟩ := h
  simp [microOf, hwindow, maxLines, Nat.not_lt.mpr hn]

theorem InitReady.microOf_reads {k : Nat} (hk : k < n) (w : Word) :
    microOf s ⟨.init n, 2 * k, w⟩ = .read (.cfg k) id := by
  rw [h.microOf_init, initMicro, if_pos (by omega), if_pos (by omega), Nat.mul_div_cancel_left k (by decide)]

theorem InitReady.microOf_writes {k : Nat} (hk : k < n) (w : Word) :
    microOf s ⟨.init n, 2 * k + 1, w⟩ = .write (.cfg k) (cfgIntDisable w) := by
  have hdiv : (2 * k + 1) / 2 = k := by omega
  rw [h.microOf_init, initMicro, if_pos (by omega), if_neg (by omega), hdiv]

theorem InitReady.microOf_publishes (w : Word) : microOf s ⟨.init n, 2 * n, w⟩ = .publish n := by
  rw [h.microOf_init, initMicro, if_neg (Nat.lt_irrefl _)]

/-- The read and the write of one line clear its EINT alone: a driving line goes on driving with its level as it was, so
no edge is latched. -/
theorem InitReady.disables_line {k : Nat} {w : Word} {l : Option AgentId} (ht : Reaches s ⟨.init n, 2 * k, w⟩ l t)
    (hk : k < n) (hlevels : LevelsFollowOut t) :
    ∃ v u, Reaches s ⟨.init n, 2 * (k + 1), v⟩ l u ∧ StoresCfg k { t.cfgAt k with eint := false } t u := by
  have ha := h.admitted
  have hready := h.quiet ht.quiet
  obtain ⟨-, -, -, hn, hwf⟩ := id h
  have hk32 : k < 32 := hk.trans_le hn
  obtain ⟨m, hm, hkm⟩ := ht.read (r := .cfg k) ha (hready.microOf_reads hk w) hwf hk32
  have hreadym := h.quiet hm.quiet
  obtain ⟨e, he⟩ := put_ok m (cfgIntDisable (t.view t.draw (.cfg k))) (r := .cfg k) nofun
  obtain ⟨u, hu, hku⟩ := hm.write ha (hreadym.microOf_writes hk _) hwf hk32 he
  have hfields : PinConfig.ofWord (cfgIntDisable (t.view t.draw (.cfg k))) = { t.cfgAt k with eint := false } := by
    rw [ofWord_cfgIntDisable, ofWord_view_cfg]
  have hfollows : m.levelsDriven → (t.cfgAt k).driving = true → m.level.getLsbD k = m.out.getLsbD k := by
    obtain ⟨-, -, hout, hlevel⟩ := hkm
    rw [hout, hlevel, State.levelsDriven, hm.quiet.params, ← ht.quiet.params]
    exact fun hdriven hd => hlevels hdriven k hk32 hd
  have hstore := put_storesCfg hk32 (fun hd hdriven => hfollows hdriven (by rw [hfields] at hd; exact hd)) he
  rw [hfields] at hstore
  exact ⟨_, u, hu, hstore.between hkm hku⟩

/-- The lines below `k`, one after the other. -/
theorem InitReady.disables_below {w : Word} {l : Option AgentId} (hs : Reaches s ⟨.init n, 0, w⟩ l s)
    (hlevels : LevelsFollowOut s) {k : Nat} (hk : k ≤ n) :
    ∃ v t, Reaches s ⟨.init n, 2 * k, v⟩ l t ∧ DisablesBelow k s t := by
  induction k with
  | zero => exact ⟨w, s, hs, disablesBelow_zero s⟩
  | succ k ih =>
    obtain ⟨v, t, ht, hbelow⟩ := ih (Nat.le_of_succ_le hk)
    obtain ⟨x, u, hu, hstore⟩ := h.disables_line ht hk (hbelow.levelsFollowOut ht.quiet.params hlevels)
    exact ⟨x, u, hu, hbelow.succ hstore⟩

/-- The whole run: `t` is where INIT stands at its publish, with every enable below `n` off. -/
theorem InitReady.completes (hf : s.fresh) (hlevels : LevelsFollowOut s) :
    ∃ t, Quiet s t ∧ Returned .ok s (finish .ok (publish n t)) ∧ DisablesBelow n s t ∧
      execTimes (.init n) (2 * n + 1) s = .next (finish .ok (publish n t)) := by
  obtain ⟨hcur, -⟩ := id h
  have hc := hasCur_of_platform hcur
  obtain ⟨hme, hq, hk, -⟩ := begun (.init n) hc hf
  obtain ⟨v, t, ht, hbelow⟩ :=
    (h.quiet hq).disables_below (reaches_begun hc hf) (hlevels.quiet hq hk) (Nat.le_refl n)
  have hqt : Quiet s t := hq.trans ht.quiet
  have hpublish : exec (.init n) t = .next (finish .ok (publish n t)) := by
    rw [exec_inFlight (o := ⟨.init n, 2 * n, v⟩) (congrArg Agent.op ht.me) (h.admitted.quiet hqt),
      (h.quiet hqt).microOf_publishes]
    rfl
  refine ⟨t, hqt, ?_, hbelow.after hk, ?_⟩
  · unfold Returned
    rw [me_finish _ (by rw [hasCur_publish, hqt.hasCur, hc]), me_publish, ht.me, hme]
  · rw [← execTimes_enter hc hf h.admitted]
    exact execTimes_snoc ht.run hpublish

end

/-- With every enable off below the count, no enabled line is pending (R274). -/
theorem up_false_of_disabled {s : State} (h : ∀ i, i < s.lineCount → (s.cfgAt i).eint = false) : up s = false := by
  rw [up, List.any_eq_false]
  intro i hi
  rw [h i (List.mem_range.mp hi), Bool.and_false]
  exact Bool.false_ne_true

/-- Settles O42: the lines below `n` ascending, then the publish. -/
theorem initBuildsController : Obligations.InitBuildsController := by
  unfold Obligations.InitBuildsController
  intro s n hcur hf hctl hwindow hn hwf hlevels
  have h : InitReady s n := ⟨hcur, hctl, hwindow, hn, hwf⟩
  obtain ⟨t, hq, hret, ⟨hcfg, hirq, hout, hlevel⟩, hrun⟩ := h.completes hf hlevels
  obtain ⟨hcur', hcallers, hdispatch⟩ := execTimes_keepsOtherAgents hcur hrun
  have hat : ∀ i, (finish .ok (publish n t)).cfgAt i = t.cfgAt i := fun i => cfgAt_congr (by simp) i
  have hpublished : (finish .ok (publish n t)).ctl = some ⟨n, s.launch.map⟩ := by
    rw [finish_ctl, publish, hq.launch]
  refine ⟨_, hrun, hret, hpublished, ?_, ?_, ?_, fun i hi => ?_, fun i hi => ?_, ?_, ?_, ?_, ?_, ?_, ?_, ?_, hcur',
    hcallers, hdispatch, up_false_of_disabled fun i hi => ?_⟩
  · rw [finish_lock, publish]
  · rw [finish_handleBusy, publish]
  · rw [finish_events, publish_events, hq.events]
  · rw [hat, hcfg, if_pos hi]
  · rw [hat, hcfg, if_neg (Nat.not_lt.mpr hi)]
  · rw [finish_irq, publish_irq, hirq]
  · rw [finish_out, publish_out, hout]
  · rw [finish_level, publish_level, hlevel]
  · rw [finish_params, publish_params, hq.params]
  · rw [finish_launch, publish_launch, hq.launch]
  · rw [finish_schedule, publish_schedule, hq.schedule]
  · rw [finish_moves, publish_moves, hq.moves]
  · rw [lineCount_ready hpublished] at hi
    rw [hat, hcfg, if_pos hi]

/-! ### INIT's errors and its refusal -/

/-- The argument that is wrong ends INIT in one turn, the window first (R270, R271). -/
theorem exec_init_error {s : State} {n : Nat} (hcur : s.cur = .platform) (hctl : s.ctl = none)
    (h : s.launch.windowPresent = false ∨ 32 < n) : exec (.init n) s = .next (finish
      (.err (if s.launch.windowPresent then .tooManyLines else .hardwareUnavailable)) (enter (.init n) s)) := by
  have hc : contextOf s.cur = .platform := by rw [hcur]; rfl
  simp only [exec, execInit, inContext, if_pos hc, hctl, enter_launch]
  cases hw : s.launch.windowPresent with
  | false => rfl
  | true =>
    rw [hw] at h
    have hn : maxLines < n := h.resolve_left nofun
    simp only [Bool.true_eq_false, if_false, if_pos hn, if_true]

/-- Settles O43: the error return changes nothing but its agent, so the controller stays Absent. -/
theorem initErrorsLeaveAbsent : Obligations.InitErrorsLeaveAbsent := by
  unfold Obligations.InitErrorsLeaveAbsent
  intro s n hcur hf hctl h
  exact ⟨_, exec_init_error hcur hctl h, finish_enter_returns _ _ (hasCur_of_platform hcur) hf⟩

/-- Settles O44: another agent is refused for its context, the platform agent because the controller is Ready. -/
theorem initHasNoStepWhileReady : Obligations.InitHasNoStepWhileReady := by
  unfold Obligations.InitHasNoStepWhileReady
  intro s c n hctl
  have hplatform (hc : contextOf s.cur = .platform) : exec (.init n) s = .refused .alreadyReady := by
    simp only [exec, execInit, inContext, if_pos hc, hctl]
  refine ⟨?_, fun hcur => hplatform (by rw [hcur]; rfl)⟩
  by_cases hc : contextOf s.cur = .platform
  · exact ⟨_, hplatform hc⟩
  · exact ⟨.wrongContext, if_neg hc⟩

end Sys2Proof.Machine
end

section
/-!
PROOFS. The exceptions (60_exceptions.md): the answer to an invalid index (R291), what an operation leaves of the other
agents (R302), and the delivery of the upstream interrupt (R300).
-/

namespace Sys2Proof.Machine

/-! ### The delivery -/

theorem step_of_schedule_deliver {s : State} {chained : Bool} {rest : List Move}
    (h : s.schedule = .deliver chained :: rest) : step s = .next (deliver chained { s with schedule := rest }) := by
  unfold step takeMove; rw [h]

/-- A delivery is enabled when Ready, with no HANDLE running, and for the entry that is admitted (R300, 44_dispatch.md
R247). -/
theorem deliverEnabled_iff {chained : Bool} {s : State} : deliverEnabled chained s = true ↔
    s.ctl ≠ none ∧ s.handleBusy = false ∧ (chained = true → s.params.chainedEntry = true) := by
  cases chained <;> simp [deliverEnabled, Option.isSome_iff_ne_none, and_assoc]

/-- The word of HANDLE and that of HANDLECHAINED (30_encoding.md R92), whatever the register map. -/
theorem encode_entry (p : Params) (chained : Bool) : encode p (if chained then .handlechained else .handle) =
    .cmd (if chained then 0x0000000C#32 else 0x0000000B#32) := by
  cases chained <;> rfl

theorem deliver_enabled {chained : Bool} {s : State} (h : deliverEnabled chained s = true) : deliver chained s =
    { s with
      handleBusy := true
      dispatch := { s.dispatch with
        program := [.cmd (if chained then 0x0000000C#32 else 0x0000000B#32)], op := none } } := by
  rw [deliver, if_pos h, encode_entry]

theorem deliver_disabled {chained : Bool} {s : State} (h : ¬ deliverEnabled chained s = true) : deliver chained s = s :=
  if_neg h

/-- Settles O41: each reason for a disabled delivery denies one condition of an enabled one. -/
theorem deliverStartsHandle : Obligations.DeliverStartsHandle := by
  unfold Obligations.DeliverStartsHandle
  intro s rest chained hs
  rw [step_of_schedule_deliver hs]
  refine ⟨fun hctl hbusy hchained => ?_, fun h => ?_⟩
  · exact congrArg _ (deliver_enabled (deliverEnabled_iff.mpr ⟨hctl, hbusy, hchained⟩))
  · refine congrArg _ (deliver_disabled fun he => ?_)
    obtain ⟨hctl, hbusy, hchained⟩ := deliverEnabled_iff.mp he
    obtain hnone | hrunning | ⟨hc, hentry⟩ := h
    · exact hctl hnone
    · exact Bool.false_ne_true (hbusy.symm.trans hrunning)
    · exact Bool.false_ne_true (hentry.symm.trans (hchained hc))

/-! ### An invalid index -/

/-- What a per-line operation returns for an invalid index (R291): SETVAL alone is a silent no-op (42_line_control.md
R185). -/
def invalidIndexAnswer : Instr → Result
  | .setval _ _ => .ok
  | _ => .err .invalidLine

/-- Every per-line operation asks for its index first, and has this answer to an invalid one. -/
theorem exec_eq_lineOp {op : Instr} {i : Nat} (hop : indexOf op = some i) (hraw : isRaw op = false) (s : State) :
    ∃ k, exec op s = lineOp op i (invalidIndexAnswer op) s k := by
  cases op with
  | getdir | dirin | dirout | getval | setval | settype | irqen | irqdis | irqmask | irqunmask =>
    cases hop
    simp only [exec, execGetdir, execDirin, execDirout, execGetval, execSetval, execSettype, execIrqen, execIrqdis,
      execIrqmask, execIrqunmask, invalidIndexAnswer]
    exact ⟨_, rfl⟩
  | rdCfg | wrCfg => cases hraw
  | _ => cases hop

/-- Settles O30: the return comes before the operation's first micro-step, and touches its agent alone. -/
theorem invalidIndexChangesNothing : Obligations.InvalidIndexChangesNothing := by
  unfold Obligations.InvalidIndexChangesNothing
  intro s c i op hctx hcur hctl hf hi hop hraw
  obtain ⟨k, hk⟩ := exec_eq_lineOp hop hraw s
  exact ⟨_, hk.trans (lineOp_invalid hctx hctl hi), finish_enter_returns op (invalidIndexAnswer op) hcur hf⟩

/-! ### The other agents -/

/-- A micro-step leaves every other agent as it was, but for the result a return from HANDLE gives the platform (R302). -/
theorem Effect.agent_other {e t : State} (h : Effect e t) {a : AgentId} (ha : a ≠ e.cur) : t.agent a = e.agent a ∨
    e.cur = .dispatch ∧ a = .platform ∧ t.agent a = { e.platform with results := e.platform.results ++ [.ok] } := by
  cases h with
  | held => exact .inl rfl
  | take | free | read | event => exact .inl (agent_advance_ne _ ha)
  | freeReturn | answer | readAnswer | publish => exact .inl (agent_finish_ne _ ha)
  | write r d u hu =>
    have hq := quiet_put hu
    exact .inl ((agent_advance_ne _ (hq.cur ▸ ha)).trans (hq.others a ha))
  | writeAnswer r d u hu =>
    have hq := quiet_put hu
    exact .inl ((agent_finish_ne _ (hq.cur ▸ ha)).trans (hq.others a ha))
  | handleEnd hd | chainedEnd hd =>
    cases a with
    | caller => exact .inl rfl
    | dispatch => exact absurd hd.symm ha
    | platform => exact .inr ⟨hd, rfl, rfl⟩

theorem eq_handle_of_interrupt {i : Instr} (h : contextFor i = .interrupt) : i = .handle ∨ i = .handlechained := by
  cases i with
  | handle => exact .inl rfl
  | handlechained => exact .inr rfl
  | _ => cases h

/-- Settles O55: only the dispatch agent returns from HANDLE, and no other operation passes its checks. -/
theorem operationsTouchNoOtherAgent : Obligations.OperationsTouchNoOtherAgent := by
  unfold Obligations.OperationsTouchNoOtherAgent
  intro s t i a h ha
  have hcur : a ≠ (enter i s).cur := by rwa [enter_cur]
  have hagent : (enter i s).agent a = s.agent a := agent_enter_ne i ha
  obtain hk | ⟨hd, rfl, hres⟩ := (exec_effect h).agent_other hcur
  · exact .inl (hk.trans hagent)
  · obtain had | ⟨-, r, rfl⟩ := exec_admitted h
    · have hctx : contextFor i = .interrupt := by
        rw [had.checked.context, ← enter_cur i s, hd]; rfl
      have hplatform : (enter i s).platform = s.platform := hagent
      exact .inr ⟨rfl, eq_handle_of_interrupt hctx, by rw [hres, hplatform]⟩
    · exact .inl ((agent_finish_ne r hcur).trans hagent)

end Sys2Proof.Machine
end
